-- ==== Sys2Proof/Word.lean ====
section
/-! DEFINITION. The word types of the block: bytes, 24-bit flash addresses, 32-bit counts and times
(spec/00_scope.md R6, R7, R8, R13). Every value is unsigned; arithmetic is BitVec's, modulo two to the
declared width (R14). -/

namespace Sys2Proof

/-- One byte on the bus, in the buffer or in the flash array (R16, R54). -/
abbrev Byte := BitVec 8

/-- A 24-bit flash address, `ADDR_W = 24` (R6). -/
abbrev FlashAddr := BitVec 24

/-- A 32-bit request length, buffer index or remaining count, `LEN_W = 32` (R7). -/
abbrev Count := BitVec 32

/-- A 32-bit time sample, `TS_W = 32` (R8). -/
abbrev Time := BitVec 32

/-- The four-bit opcode or reserved field of a request word (R71). -/
abbrev Nibble := BitVec 4

/-- A 64-bit request word (R71). -/
abbrev RequestWord := BitVec 64

end Sys2Proof
end

