-- ==== Sys2Proof/Config.lean ====
section
/-! DEFINITION. The parameters fixed when the block is instantiated (spec/00_scope.md R5 to R12) and the
free values: opaque constants of which nothing is known, applied to a counter in State or to the operands they
depend on (spec/93_implementation_defined.md). -/

namespace Sys2Proof

/-- The parameters of one instance of the block and of the chip wired to it. No request and no port changes them
(R19). PAGE_SIZE, ADDR_W, LEN_W and TS_W are fixed (R5 to R8), so they are no fields. -/
structure Params where
  /-- LOG_INTERVAL, in the unit of `now` (R9). -/
  logInterval : Nat
  /-- DUMMY_TX, sent in the data phase of a Read Status (R10). -/
  dummyTx : Byte
  /-- LEGACY_INCLUSIVE_XFER: one extra data byte per Page Program (R11, R113). -/
  legacyXfer : Bool
  /-- The chip's capacity in bytes; chip-defined, never checked by the block (R46). -/
  capacity : Nat
  deriving DecidableEq, Repr

/-- The values of a conforming block: 1000, 0x00, false (R9, R10, R11). The capacity 2^24 is a DESIGN CHOICE
(log 17): the spec leaves it to the chip. -/
def Params.conforming : Params :=
  { logInterval := 1000, dummyTx := 0x00, legacyXfer := false, capacity := 16777216 }

namespace Config

/-- The byte received in an exchange that no rule fixes, and a status byte nothing scripted
(R17, R59; I9, I10 of 93_implementation_defined.md). Argument: the draw counter. -/
opaque freeRx : Nat → BitVec 8

/-- A `NOW()` sample nothing scripted (R62, I10). -/
opaque freeNow : Nat → BitVec 32

/-- A `BufRead` of a byte the requester does not hold stable, or outside the buffer (R51, I7, I8). -/
opaque freeBuf : Nat → BitVec 8

/-- `op` after a reset (R42, R160, I11). -/
opaque freeOp : Nat → BitVec 4

/-- `cur_addr` after a reset (R42, R160, I11). -/
opaque freeAddr : Nat → BitVec 24

/-- `buf_off` after a reset (R42, R160, I11). -/
opaque freeOffset : Nat → BitVec 32

/-- `remaining` after a reset (R42, R160, I11). -/
opaque freeRemaining : Nat → BitVec 32

/-- `chunk_len` after a reset (R42, R160, I11). -/
opaque freeChunk : Nat → BitVec 9

/-- `sr_latch` after a reset (R42, R160, I11). -/
opaque freeLatch : Nat → BitVec 8

/-- A flash byte whose value the spec leaves to the chip (I1, I3, I4, I5). Arguments: the draw counter, the address. -/
opaque freeFlash : Nat → Nat → BitVec 8

/-- PROGRAM_COMBINE, on target bytes that are not erased (R56, I2). Arguments: old byte, new byte. -/
opaque programCombine : BitVec 8 → BitVec 8 → BitVec 8

/-- The chip's erase granularity less one, chip-defined (R134, I21). Less one, so that the granularity is positive. -/
opaque eraseSpan : Nat

/-- The chip's identification bytes: manufacturer, memory type, capacity (R136, I21). Argument: 0, 1 or 2. -/
opaque idByte : Nat → BitVec 8

end Config

end Sys2Proof
end

