-- ==== Sys2Proof/Syntax.lean ====
section
/-! DEFINITION. The instructions: one constructor per row of spec/opcode_table.json, and the two shapes in which
they are encoded, an SPI frame (spec/30_encoding.md R63) and a 64-bit request word (R71). -/

namespace Sys2Proof

/-- An instruction: a bus command (the eight rows of R64) or a request (R72 to R75, R77). -/
inductive Instr where
  /-- Write Enable, 0x06 (R65). -/
  | wren
  /-- Read Status, 0x05 (R66). `tx`: the byte sent while the status byte comes in. -/
  | rdsr (tx : Byte)
  /-- Page Program, 0x02 (R67). -/
  | pp (addr : FlashAddr) (data : List Byte)
  /-- Write Status Register, 0x01 (R132). -/
  | wrsr (value : Byte)
  /-- Read, 0x03 (R133). `tx`: the bytes sent while the data comes in, one for each byte read (I22). -/
  | read (addr : FlashAddr) (tx : List Byte)
  /-- Sector/Block Erase, 0x20 (R134). -/
  | se (addr : FlashAddr)
  /-- Chip Erase, 0xC7 (R135). -/
  | ce
  /-- Read Identification, 0x9F (R136). The three bytes sent while the identification comes in. -/
  | rdid (tx0 tx1 tx2 : Byte)
  /-- WRITE, op 0x1 (R72, R106). -/
  | write (addr : FlashAddr) (len : Count)
  /-- WAIT_READY, op 0x2 (R73, R96). The fields are carried and ignored (R76). -/
  | waitReady (addr : FlashAddr) (len : Count)
  /-- READ_STATUS, op 0x3 (R74, R95). The fields are carried and ignored (R76). -/
  | readStatus (addr : FlashAddr) (len : Count)
  /-- WRITE_ENABLE, op 0x4 (R75, R103). The fields are carried and ignored (R76). -/
  | writeEnable (addr : FlashAddr) (len : Count)
  /-- Every other request word (R77, R78). -/
  | reservedRequest (op rsv : Nibble) (addr : FlashAddr) (len : Count)
  deriving DecidableEq, Repr

/-- What stands on an interface of the machine: a word on the request port (R71), or the bytes of one SPI frame from
`CS(0)` to `CS(1)` (R63). A frame does not state its length (R68), so it is the list of all its bytes. -/
inductive Code where
  | request (w : RequestWord)
  | frame (bytes : List Byte)
  deriving DecidableEq, Repr

end Sys2Proof
end

