-- ==== Sys2Proof/WellFormed.lean ====
section
/-! DEFINITION. Which instructions the encodings admit: a Page Program carries 1..256 data bytes
(spec/30_encoding.md R67), and a reserved request is one that R77 does not give to another row. -/

namespace Sys2Proof

/-- `op` is one of the four request opcodes (R72 to R75). -/
def isRequestOp (op : Nibble) : Bool :=
  op == 0x1 || op == 0x2 || op == 0x3 || op == 0x4

/-- A request word R77 answers with ERR_BAD_OP: `rsv != 0`, or `op` not in {1, 2, 3, 4}. -/
def isReserved (op rsv : Nibble) : Bool :=
  rsv != 0 || !isRequestOp op

/-- The operands are ones the spec's encoding of the instruction admits. -/
def Instr.wellFormed : Instr → Bool
  | .wren => true
  | .rdsr _ => true
  | .pp _ data => 1 ≤ data.length && data.length ≤ 256
  | .wrsr _ => true
  | .read _ _ => true
  | .se _ => true
  | .ce => true
  | .rdid _ _ _ => true
  | .write _ _ => true
  | .waitReady _ _ => true
  | .readStatus _ _ => true
  | .writeEnable _ _ => true
  | .reservedRequest op rsv _ _ => isReserved op rsv

end Sys2Proof
end

