-- ==== Sys2Proof/Decode.lean ====
section
/-! DEFINITION. The decoder, total on any word and any bytes and rejecting by name (spec/30_encoding.md R68, R69, R77),
the bus opcodes of R64, and after it the encoder, written from the same tables. -/

namespace Sys2Proof

/-! ### Bus opcodes (R64) -/

def opWren : Byte := 0x06
def opRdsr : Byte := 0x05
def opWrsr : Byte := 0x01
def opRead : Byte := 0x03
def opPp : Byte := 0x02
def opSe : Byte := 0x20
def opCe : Byte := 0xC7
def opRdid : Byte := 0x9F

/-! ### Address bytes (R49, R70) -/

/-- `a[23:16]`. -/
def addrHigh (a : FlashAddr) : Byte := a.extractLsb' 16 8

/-- `a[15:8]`. -/
def addrMid (a : FlashAddr) : Byte := a.extractLsb' 8 8

/-- `a[7:0]`. -/
def addrLow (a : FlashAddr) : Byte := a.extractLsb' 0 8

/-- The address three big-endian bytes give (R49). -/
def addrOfBytes (h m l : Byte) : FlashAddr := h ++ m ++ l

/-! ### Request word fields (R71) -/

/-- `w[63:60]`. -/
def wordOp (w : RequestWord) : Nibble := w.extractLsb' 60 4

/-- `w[59:56]`. -/
def wordRsv (w : RequestWord) : Nibble := w.extractLsb' 56 4

/-- `w[55:32]`. -/
def wordAddr (w : RequestWord) : FlashAddr := w.extractLsb' 32 24

/-- `w[31:0]`. -/
def wordLen (w : RequestWord) : Count := w.extractLsb' 0 32

/-- The request word with the given fields, `{op, rsv, addr, len}` (R71, R82). -/
def requestWord (op rsv : Nibble) (addr : FlashAddr) (len : Count) : RequestWord :=
  op ++ rsv ++ addr ++ len

/-! ### The decoder -/

/-- Why bytes are no frame of R64. -/
inductive Reject where
  /-- `CS(0)` then `CS(1)` with no byte between: R63's item 2 is missing. -/
  | emptyFrame
  /-- The opcode byte is none of R64's (R69). -/
  | unknownOpcode (b : Byte)
  /-- The frame's length is not one R64 gives its opcode. -/
  | wrongLength (b : Byte)
  deriving DecidableEq, Repr

/-- A request word always decodes (R77). -/
def decodeRequest (w : RequestWord) : Instr :=
  if wordRsv w ≠ 0 then .reservedRequest (wordOp w) (wordRsv w) (wordAddr w) (wordLen w)
  else if wordOp w = 0x1 then .write (wordAddr w) (wordLen w)
  else if wordOp w = 0x2 then .waitReady (wordAddr w) (wordLen w)
  else if wordOp w = 0x3 then .readStatus (wordAddr w) (wordLen w)
  else if wordOp w = 0x4 then .writeEnable (wordAddr w) (wordLen w)
  else .reservedRequest (wordOp w) (wordRsv w) (wordAddr w) (wordLen w)

/-- The bytes of one frame, opcode first (R63, R68). A Page Program with more than 256 data bytes decodes although
R67 does not form it: R56 gives its effect (log 22). -/
def decodeFrame : List Byte → Except Reject Instr
  | [] => .error .emptyFrame
  | b :: args =>
    if b = opWren then
      match args with
      | [] => .ok .wren
      | _ => .error (.wrongLength b)
    else if b = opRdsr then
      match args with
      | [tx] => .ok (.rdsr tx)
      | _ => .error (.wrongLength b)
    else if b = opPp then
      match args with
      | h :: m :: l :: d :: ds => .ok (.pp (addrOfBytes h m l) (d :: ds))
      | _ => .error (.wrongLength b)
    else if b = opWrsr then
      match args with
      | [v] => .ok (.wrsr v)
      | _ => .error (.wrongLength b)
    else if b = opRead then
      match args with
      | h :: m :: l :: tx => .ok (.read (addrOfBytes h m l) tx)
      | _ => .error (.wrongLength b)
    else if b = opSe then
      match args with
      | [h, m, l] => .ok (.se (addrOfBytes h m l))
      | _ => .error (.wrongLength b)
    else if b = opCe then
      match args with
      | [] => .ok .ce
      | _ => .error (.wrongLength b)
    else if b = opRdid then
      match args with
      | [x, y, z] => .ok (.rdid x y z)
      | _ => .error (.wrongLength b)
    else .error (.unknownOpcode b)

/-- The instruction that stands on the request port or in a frame. -/
def decode : Code → Except Reject Instr
  | .request w => .ok (decodeRequest w)
  | .frame bytes => decodeFrame bytes

/-! ### The encoder -/

/-- The opcode byte, then the address most significant byte first, then the data (R63, R49). -/
def addressedFrame (b : Byte) (a : FlashAddr) (data : List Byte) : List Byte :=
  b :: addrHigh a :: addrMid a :: addrLow a :: data

/-- The frame (R65 to R67, R132 to R136) or request word (R71 to R75, R77) of an instruction. -/
def encode : Instr → Code
  | .wren => .frame [opWren]
  | .rdsr tx => .frame [opRdsr, tx]
  | .pp addr data => .frame (addressedFrame opPp addr data)
  | .wrsr value => .frame [opWrsr, value]
  | .read addr tx => .frame (addressedFrame opRead addr tx)
  | .se addr => .frame (addressedFrame opSe addr [])
  | .ce => .frame [opCe]
  | .rdid x y z => .frame [opRdid, x, y, z]
  | .write addr len => .request (requestWord 0x1 0x0 addr len)
  | .waitReady addr len => .request (requestWord 0x2 0x0 addr len)
  | .readStatus addr len => .request (requestWord 0x3 0x0 addr len)
  | .writeEnable addr len => .request (requestWord 0x4 0x0 addr len)
  | .reservedRequest op rsv addr len => .request (requestWord op rsv addr len)

/-! ### The numbering of spec/opcode_table.json -/

/-- The `n` lowest bytes of `w`, bits 7..0 first. -/
def bytesOfNat : Nat → Nat → List Byte
  | 0, _ => []
  | n + 1, w => BitVec.ofNat 8 w :: bytesOfNat n (w / 256)

/-- The shortest frame with at least one data byte where R64 gives the opcode data: the opcode byte counted in. -/
def shortestFrame (b : Byte) : Nat :=
  if b = opRdsr then 2
  else if b = opPp then 5
  else if b = opWrsr then 2
  else if b = opRead then 5
  else if b = opSe then 4
  else if b = opRdid then 4
  else 1

/-- The code whose bits are `w`: 64 bits are a request word; fewer are the first bytes of a frame, filled up with zero
bytes to the shortest frame of its opcode (log 18). -/
def codeOfTableWord (nbits w : Nat) : Code :=
  if nbits = 64 then .request (BitVec.ofNat 64 w)
  else
    .frame (bytesOfNat (max (nbits / 8) (shortestFrame (BitVec.ofNat 8 w))) (w % 2 ^ nbits))

/-- The instruction the decoder reads from an opcode-table word. -/
def decodeTableWord (nbits w : Nat) : Option Instr :=
  match decode (codeOfTableWord nbits w) with
  | .ok i => some i
  | .error _ => none

end Sys2Proof
end

