-- ==== Sys2Proof/Machine/State.lean ====
section
/-! DEFINITION. The state: the block's registers (spec/10_state.md R19 to R29), its output strobes (R32), its event
trace (spec/00_scope.md R16), the chip the rules depend on (R40), the inputs (R33) and the parameters; why a step stops;
and the state right after reset (R42). -/

namespace Sys2Proof.Machine

/-! ### Points of the pseudocode (R20)

A point names the event that comes next; the locals the pseudocode holds there are its arguments. -/

/-- READ_SR (R85). `cs1 s`: the status byte `s` is received, `CS(1)` comes next. -/
inductive SrPoint where
  | cs0
  | opcode
  | data
  | cs1 (s : Byte)
  deriving DecidableEq, Repr

/-- GATE (R87): inside its READ_SR, at `NOW()`, or at `LOG(s)` with the sample `t`. -/
inductive GatePoint where
  | poll (p : SrPoint)
  | now
  | log (t : Time)
  deriving DecidableEq, Repr

/-- WREN_TXN (R100). -/
inductive WrenPoint where
  | cs0
  | opcode
  | cs1
  deriving DecidableEq, Repr

/-- PP_TXN (R111): the loop index `j` and, between `BufRead` and `XFER`, the byte `d`. -/
inductive PpPoint where
  | cs0
  | opcode
  | addrHigh
  | addrMid
  | addrLow
  | bufRead (j : Nat)
  | data (j : Nat) (d : Byte)
  | cs1
  deriving DecidableEq, Repr

/-- The point reached in a request's procedure (R20). -/
inductive Point where
  /-- READ_STATUS (R95). -/
  | readStatus (p : SrPoint)
  /-- WAIT_READY (R96). -/
  | waitReady (p : GatePoint)
  /-- WRITE_ENABLE: its WREN_TXN (R101, R103). -/
  | enableWren (p : WrenPoint)
  /-- WRITE_ENABLE: its GATE (R101, R103). -/
  | enableGate (p : GatePoint)
  /-- A chunk of a WRITE: the WREN_TXN of WRITE_ENABLE_SEQ (R110). -/
  | chunkWren (p : WrenPoint)
  /-- A chunk: the GATE of WRITE_ENABLE_SEQ (R110). -/
  | chunkGate1 (p : GatePoint)
  /-- A chunk: the second GATE (R110). -/
  | chunkGate2 (p : GatePoint)
  /-- A chunk: PP_TXN (R111). -/
  | chunkPp (p : PpPoint)
  /-- A chunk: the third GATE (R110). -/
  | chunkGate3 (p : GatePoint)
  /-- `RESPOND(OK, sr_latch)` comes next. -/
  | respondOk
  /-- After the `CS(1)` of an abort: `RESPOND(ERR_ABORTED, sr_latch)` comes next (R141). -/
  | respondAborted
  deriving DecidableEq, Repr

/-- The sequencer position (R20). -/
inductive Phase where
  | idle
  | busy (p : Point)
  deriving DecidableEq, Repr

/-! ### Events and responses -/

/-- The response codes (R80). Code 3 is reserved and never produced, so it has no constructor. -/
inductive RspCode where
  | ok
  | errAborted
  | errBadOp
  deriving DecidableEq, Repr

/-- The event primitives (R16). `cs level` drives `cs_n` to `level`. -/
inductive Event where
  | cs (level : Bool)
  | xfer (tx rx : Byte)
  | bufRead (i : Count) (v : Byte)
  | log (v : Byte)
  | now (t : Time)
  | respond (code : RspCode) (sr : Byte)
  deriving DecidableEq, Repr

/-- The output ports with a strobe (R32): `none` is strobe 0, and then the port's data is any value (I12). -/
structure Ports where
  xfer : Option Byte
  buf : Option Count
  log : Option Byte
  rsp : Option (RspCode × Byte)
  deriving DecidableEq, Repr

/-- Every strobe 0 (R42). -/
def Ports.quiet : Ports := { xfer := none, buf := none, log := none, rsp := none }

/-! ### The chip (R40) -/

/-- What a byte the memory does not list reads as: erased, or chip-defined since draw `n` (log 25). -/
inductive Background where
  | erased
  | chipDefined (n : Nat)
  deriving DecidableEq, Repr

/-- The flash array: listed cells over a background. -/
structure Memory where
  cells : List Host.Cell
  base : Background
  deriving DecidableEq, Repr

/-- The write-enable latch; `unknown` where the spec does not say what the chip did with it (R57, I4, R143). -/
inductive Latch where
  | clear
  | set
  | unknown
  deriving DecidableEq, Repr

/-- The flash chip as R40, R56 and R57 give it. -/
structure Chip where
  /-- A command sent to it is, or may still be, executing (WIP). Every command passes over the bus, so none executes that
  the model has not seen. -/
  wip : Bool
  /-- What the chip last said of its WIP since it last took a command: bit 0 of the status it answered. It is what is known
  of the chip, not a part of it (log 8). -/
  told : Option Bool
  /-- The write-enable latch (WEL). -/
  wel : Latch
  /-- The value of the last Write Status Register sent: from then on the block protection is chip-defined (R132, R151). -/
  prot : Option Byte
  /-- The bytes received since chip-select fell; `none` while the chip is not selected (R68). -/
  frame : Option (List Byte)
  /-- The flash array. -/
  flash : Memory
  deriving DecidableEq, Repr

/-! ### The inputs (R33) -/

/-- The levels of `rst_n` and `abort`. -/
structure Pins where
  rstN : Bool
  abort : Bool
  deriving DecidableEq, Repr

/-- What the outside gives the block. A step reads; it never invents an entry. -/
structure Env where
  /-- The levels now. -/
  pins : Pins
  /-- The levels at the coming steps, one a step; when it is empty the levels stay. -/
  plan : List Pins
  /-- What will be offered, in order: request words and frames of the surrounding software (R34, R131). -/
  offers : List Code
  /-- The buffer of the current WRITE from index 0; `none` for a byte that is not held stable (R45, R51). -/
  buf : List (Option Byte)
  /-- The buffers of the WRITEs to come, one a WRITE, in the order in which they are taken (R45, R79, log 16). -/
  bufs : List (List (Option Byte))
  /-- The status bytes the chip will answer, in poll order (R17). -/
  statuses : List Byte
  /-- The values `now` will have, in sample order (R62). -/
  nows : List Time
  deriving DecidableEq, Repr

/-! ### The machine -/

/-- The machine: every piece of state the spec gives it, as plain data. -/
structure State where
  phase : Phase
  op : Nibble
  curAddr : FlashAddr
  bufOff : Count
  remaining : Count
  chunkLen : BitVec 9
  srLatch : Byte
  lastLogTs : Time
  csN : Bool
  ports : Ports
  trace : List Event
  swTrace : List Event
  chip : Chip
  env : Env
  draws : Nat
  params : Params
  deriving DecidableEq, Repr

/-- Why the machine stops with a fault. -/
inductive Fault where
  /-- The assertion of PP_TXN fails (R111, R147). Raised by the Page Program's first step. Safe: no state a request
  reaches raises it (R121). -/
  | boundaryViolation
  deriving DecidableEq, Repr

/-- Why a step has no meaning. -/
inductive Refusal where
  /-- An instruction that has no meaning yet, raised by its arm of `exec`. Safe: the machine stops. -/
  | notModelled (mnemonic : String)
  /-- A frame driven onto the bus while `bus_lock = 1` (R55, I13: refuse). Raised by the bus commands. Safe. -/
  | busLocked
  /-- Bytes on the bus that are no frame of R64 (R69). Raised by the step that meets them. Safe. -/
  | notAFrame (r : Reject)
  deriving DecidableEq, Repr

/-- What a step answers. -/
abbrev Result := Host.Outcome State Fault Refusal

/-- The chip of the spec's start state: erased, idle, WEL clear (log 7). -/
def Chip.fresh : Chip :=
  { wip := false, told := none, wel := .clear, prot := none, frame := none, flash := { cells := [], base := .erased } }

/-- No input scripted; reset released, no abort (log 6). -/
def Env.fresh : Env :=
  { pins := { rstN := true, abort := false }, plan := [], offers := [], buf := [], bufs := [], statuses := [], nows := [] }

/-- The machine right after reset (R42). The six registers the spec leaves unspecified hold 0 (log 4). -/
def State.reset : State :=
  { phase := .idle
    op := 0
    curAddr := 0
    bufOff := 0
    remaining := 0
    chunkLen := 0
    srLatch := 0
    lastLogTs := 0
    csN := true
    ports := Ports.quiet
    trace := []
    swTrace := []
    chip := Chip.fresh
    env := Env.fresh
    draws := 0
    params := Params.conforming }

end Sys2Proof.Machine
end

