-- ==== Sys2Proof/Machine/Operands.lean ====
section
/-! DEFINITION. Operand forms: page arithmetic on addresses (spec/00_scope.md R5, spec/20_memory.md R47, R48, R56),
the chunk length (spec/42_page_write_splitter.md R109) and the codes of the ports (spec/30_encoding.md R80). -/

namespace Sys2Proof.Machine

/-- The size of the flash address space, 2^24 bytes (R45). -/
def flashSize : Nat := 16777216

/-- What an erased flash byte reads as in the reference chip model (spec/95_test_vectors.md, section 3). -/
def erasedByte : Byte := 0xFF

/-- `a[7:0]` (R5). -/
def pageOffset (a : FlashAddr) : BitVec 8 := a.extractLsb' 0 8

/-- `a[23:8]`, the page an address lies in (R48). -/
def pageIndex (a : FlashAddr) : BitVec 16 := a.extractLsb' 8 16

/-- `{a[23:8], (a[7:0] + j) mod 256}`, where data byte `j` of a Page Program at `a` lands (R56). -/
def pageTarget (a : FlashAddr) (j : Nat) : FlashAddr :=
  pageIndex a ++ (pageOffset a + BitVec.ofNat 8 j)

/-- `256 - zext_9(a[7:0])`, at 9 bits, in 1..256 (R109). -/
def room (a : FlashAddr) : BitVec 9 := 256#9 - (pageOffset a).setWidth 9

/-- `min(remaining, room)` (R109), compared after zero-extension (R14). -/
def chunkLenFor (remaining : Count) (a : FlashAddr) : BitVec 9 :=
  if remaining ≤ (room a).setWidth 32 then remaining.setWidth 9 else room a

/-- The assertion of PP_TXN: `1 <= chunk_len <= 256` and `zext_9(cur_addr[7:0]) + chunk_len <= 256` (R111). -/
def chunkFits (a : FlashAddr) (n : BitVec 9) : Bool :=
  1 ≤ n.toNat && n.toNat ≤ 256 && (pageOffset a).toNat + n.toNat ≤ 256

/-- The number of data bytes a Page Program sends: `chunk_len`, one more with LEGACY_INCLUSIVE_XFER (R112, R113). -/
def dataCount (params : Params) (n : BitVec 9) : Nat :=
  n.toNat + (if params.legacyXfer then 1 else 0)

/-- The two bits on `rsp_code` (R80). -/
def RspCode.bits : RspCode → BitVec 2
  | .ok => 0
  | .errAborted => 1
  | .errBadOp => 2

/-- The address `a + j` as a number, not wrapped: what a Read asks for at its data byte `j` (R133). -/
def readTarget (a : FlashAddr) (j : Nat) : Nat := a.toNat + j

/-- The start of the erase block an address lies in; the granularity is chip-defined (R134, I21). -/
def eraseBase (a : FlashAddr) : Nat := a.toNat - a.toNat % (Config.eraseSpan + 1)

end Sys2Proof.Machine
end

