-- ==== Sys2Proof/Machine/Flags.lean ====
section
/-! DEFINITION. The conditions the rules test. The block has no flags register (spec/10_state.md R30): the only
status bit read is WIP, and the only other tests are the log throttle (spec/40_ready_gate.md R91) and the port
handshakes (R34, R35). -/

namespace Sys2Proof.Machine

/-- Bit 0 of a status byte, WIP: `(s & 0x01) != 0` (R13, R90). -/
def isBusyStatus (v : Byte) : Bool := v.getLsbD 0

/-- `(t - last_log_ts) mod 2^32` (R91). -/
def elapsed (t last : Time) : Time := t - last

/-- The log throttle: elapsed time strictly above LOG_INTERVAL (R91). -/
def logDue (params : Params) (t last : Time) : Bool := params.logInterval < (elapsed t last).toNat

/-- `busy`: 1 exactly when `phase != IDLE` (R35). -/
def State.busy (s : State) : Bool := s.phase != .idle

/-- `bus_lock` equals `busy` (R35). -/
def State.busLock (s : State) : Bool := s.busy

/-- `req_ready`: 1 exactly when `phase = IDLE` and `rst_n = 1` (R34). -/
def State.reqReady (s : State) : Bool := !s.busy && s.env.pins.rstN

/-- The abort check's sample (R141). -/
def State.abortSeen (s : State) : Bool := s.env.pins.abort

/-- `rsp_valid` (R36). -/
def State.rspValid (s : State) : Bool := s.ports.rsp.isSome

end Sys2Proof.Machine
end

