-- ==== Sys2Proof/Machine/Ops.lean ====
section
/-! DEFINITION. The named operations every meaning is built from: the flash memory, the inputs and free values, the
chip's answers and reactions (spec/20_memory.md R56, R57), the event primitives (spec/00_scope.md R16), acceptance and
response (spec/10_state.md R34, R36), the abort (spec/60_exceptions.md R141) and reset (spec/70_reset_and_hazards.md
R158). -/

namespace Sys2Proof.Machine

/-! ### The flash memory -/

/-- What an address that no cell lists reads as (log 25). -/
def Memory.unlisted (base : Background) (a : Nat) : Byte :=
  match base with
  | .erased => erasedByte
  | .chipDefined n => Config.freeFlash n a

/-- The byte listed at `a`, if any. -/
def cellsGet (a : Nat) : List Host.Cell → Option Byte
  | [] => none
  | (k, v) :: rest => if k = a then some v else cellsGet a rest

/-- List `v` at `a`, or nothing, in a list with rising addresses. -/
def cellsPut (a : Nat) (v : Option Byte) : List Host.Cell → List Host.Cell
  | [] =>
    match v with
    | none => []
    | some b => [(a, b)]
  | (k, w) :: rest =>
    if a < k then
      match v with
      | none => (k, w) :: rest
      | some b => (a, b) :: (k, w) :: rest
    else if a = k then
      match v with
      | none => rest
      | some b => (a, b) :: rest
    else (k, w) :: cellsPut a v rest

/-- The flash byte at `a`. -/
def Memory.read (m : Memory) (a : FlashAddr) : Byte :=
  (cellsGet a.toNat m.cells).getD (Memory.unlisted m.base a.toNat)

/-- Put `v` at `a`; no cell is listed for a value the address would read as anyway. -/
def Memory.write (m : Memory) (a : FlashAddr) (v : Byte) : Memory :=
  { m with
    cells := cellsPut a.toNat (if v = Memory.unlisted m.base a.toNat then none else some v) m.cells }

/-- Every cell lies at or above `lo` and inside the address space, addresses rise strictly, and no cell holds what its
address reads as unlisted. -/
def cellsWf (base : Background) : Nat → List Host.Cell → Bool
  | _, [] => true
  | lo, (k, v) :: rest =>
    lo ≤ k && k < flashSize && v != Memory.unlisted base k && cellsWf base (k + 1) rest

/-- The canonical form. -/
def Memory.wf (m : Memory) : Bool := cellsWf m.base 0 m.cells

/-- The whole array erased (R135). -/
def Memory.blank : Memory := { cells := [], base := .erased }

/-- Any value everywhere. -/
def Memory.anything (n : Nat) : Memory := { cells := [], base := .chipDefined n }

/-- Programming one byte: the new byte on an erased one, PROGRAM_COMBINE otherwise (R56, I2). DESIGN CHOICE (log 30): a
byte that reads as the erased value counts as erased, whatever was programmed there before. -/
def programByte (old new : Byte) : Byte :=
  if old = erasedByte then new else Config.programCombine old new

/-- Program the data bytes of one Page Program at `a`, counting from `j`, in order: `d_j` lands in the page of `a` and
the offset wraps there (R56). -/
def programBytes (a : FlashAddr) : Nat → List Byte → Memory → Memory
  | _, [], m => m
  | j, d :: ds, m =>
    programBytes a (j + 1) ds (m.write (pageTarget a j) (programByte (m.read (pageTarget a j)) d))

/-- The first `k` bytes from offset 0 of the page of `a` get any value (I1, I3, I5). -/
def scrambleBytes (a : FlashAddr) (n : Nat) : Nat → Memory → Memory
  | 0, m => m
  | k + 1, m =>
    let t : FlashAddr := pageIndex a ++ BitVec.ofNat 8 k
    scrambleBytes a n k (m.write t (Config.freeFlash n t.toNat))

/-- Every byte of the page of `a` gets any value. -/
@[irreducible] def scramblePage (a : FlashAddr) (n : Nat) (m : Memory) : Memory := scrambleBytes a n 256 m

/-- Erase the `k` bytes from `lo` that lie in the address space. -/
def eraseRange (lo : Nat) : Nat → Memory → Memory
  | 0, m => m
  | k + 1, m =>
    eraseRange lo k (if lo + k < flashSize then m.write (BitVec.ofNat 24 (lo + k)) erasedByte else m)

/-- Erase the block `a` lies in (R134). -/
def eraseBlock (a : FlashAddr) (m : Memory) : Memory := eraseRange (eraseBase a) (Config.eraseSpan + 1) m

/-! ### Small updates -/

/-- Go to a point. -/
def State.goto (s : State) (p : Point) : State := { s with phase := .busy p }

/-- Append an event to the block's trace (R16). -/
def State.emit (s : State) (e : Event) : State := { s with trace := s.trace ++ [e] }

/-- Append an event of the surrounding software (log 14). -/
def State.emitSw (s : State) (e : Event) : State := { s with swTrace := s.swTrace ++ [e] }

/-! ### Draws (R17)

A draw is a value function and what is left of the inputs: a scripted value is used up, a free value counts (log 6). -/

/-- The next status byte: the scripted one, else any value (R17, I9). -/
def statusValue (e : Env) (n : Nat) : Byte :=
  match e.statuses with
  | v :: _ => v
  | [] => Config.freeRx n

/-- The counter after a draw from a script. -/
def drawsAfter {α : Type} (script : List α) (n : Nat) : Nat :=
  match script with
  | _ :: _ => n
  | [] => n + 1

/-- The inputs with the next status byte used up. -/
def Env.afterStatus (e : Env) : Env := { e with statuses := e.statuses.tail }

/-- The next time sample: the scripted one, else any value (R62, I10). -/
def nowValue (s : State) : Time :=
  match s.env.nows with
  | t :: _ => t
  | [] => Config.freeNow s.draws

/-- The requester presents the buffer of the WRITE that is taken now (R45, R79). Where none is scripted no byte of it is
known (log 16). -/
def Env.takeBuffer (e : Env) : Env := { e with buf := e.bufs.headD [], bufs := e.bufs.tail }

/-- The request length L: `buf_off + remaining` at all times of a WRITE (R114, R122). -/
def State.bufLimit (s : State) : Nat := s.bufOff.toNat + s.remaining.toNat

/-- The buffer byte the requester holds stable at index `i < L`. -/
def State.bufByte? (s : State) (i : Count) : Option Byte :=
  if i.toNat < s.bufLimit then (s.env.buf[i.toNat]?).join else none

/-- Buffer byte `i` of the current WRITE: what the requester holds there, else any value (R50, R51, I7, I8, log 16). -/
def bufValue (i : Count) (s : State) : Byte := (s.bufByte? i).getD (Config.freeBuf s.draws)

/-! ### What the chip answers (R40, R59) -/

/-- An answered byte, and the chip, the inputs and the draw counter after it. -/
structure Answer where
  rx : Byte
  chip : Chip
  env : Env
  draws : Nat

/-- WIP, as far as it is known: what the chip last said, else whether a command was sent (R40). -/
def Chip.busy (c : Chip) : Bool := c.told.getD c.wip

/-- The chip says a status byte. A Read Status changes nothing in the chip, not WIP, not WEL, not the array (R86): only
what is known of it. -/
def Chip.tell (c : Chip) (v : Byte) : Chip := { c with told := some (isBusyStatus v) }

/-- The chip's own move as chip-select rises: a command that it has said to be no longer executing has completed, and its
completion cleared WEL (R40, R57, R59). It is no effect of the Read Status that told so (R86), and with no command executing
nothing completes, whatever the chip said (log 8). -/
def Chip.settle (c : Chip) : Chip :=
  if c.wip && c.told == some false then
    { c with wip := false, wel := if c.wel = .unknown then .unknown else .clear }
  else c

/-- A received byte no rule fixes (R59, I9). -/
def answerFree (s : State) : Answer :=
  { rx := Config.freeRx s.draws, chip := s.chip, env := s.env, draws := s.draws + 1 }

/-- A byte the chip's state fixes. -/
def answerFixed (v : Byte) (s : State) : Answer :=
  { rx := v, chip := s.chip, env := s.env, draws := s.draws }

/-- The data phase of a Read Status: the chip's status, an oracle (R59). -/
def answerStatus (s : State) : Answer :=
  let v := statusValue s.env s.draws
  { rx := v
    chip := s.chip.tell v
    env := s.env.afterStatus
    draws := drawsAfter s.env.statuses s.draws }

/-- Data byte `j` of a Read at `a`: the flash byte, or any value at or above the capacity (I1) and while a command may be
executing (R133, I6). -/
def answerRead (a : FlashAddr) (j : Nat) (s : State) : Answer :=
  if !s.chip.busy && readTarget a j < s.params.capacity && readTarget a j < flashSize then
    answerFixed (s.chip.flash.read (BitVec.ofNat 24 (readTarget a j))) s
  else answerFree s

/-- What the chip answers to the next byte, by the bytes of the open frame (R64, R68). -/
def chipAnswer (s : State) : Answer :=
  match s.chip.frame with
  | some (b :: args) =>
    if b = opRdsr then
      match args with
      | [] => answerStatus s
      | _ => answerFree s
    else if b = opRead then
      match args with
      | h :: m :: l :: ds => answerRead (addrOfBytes h m l) ds.length s
      | _ => answerFree s
    else if b = opRdid then
      if args.length < 3 then answerFixed (Config.idByte args.length) s else answerFree s
    else answerFree s
  | _ => answerFree s

/-! ### What the chip does with a frame (R40, R56, R57) -/

/-- The chip and the draw counter after a reaction. -/
structure Effect where
  chip : Chip
  draws : Nat

/-- The chip receives a byte. -/
def Chip.take (c : Chip) (tx : Byte) : Chip := { c with frame := c.frame.map (· ++ [tx]) }

/-- Chip-select falls at the chip. -/
def Chip.select (c : Chip) : Chip := { c with frame := some [] }

/-- Chip-select rises at the chip. -/
def Chip.deselect (c : Chip) : Chip := { c with frame := none }

/-- A command whose effect the spec gives starts executing: WIP is 1 until a status says otherwise (R40). -/
def Chip.execute (c : Chip) (m : Memory) : Chip := { c with flash := m, wip := true, told := none }

/-- A command whose effect the spec leaves to the chip (I1, I3, I4, I5): it may be executing, WEL is unknown. -/
def Chip.surprise (c : Chip) (m : Memory) : Chip :=
  { c with flash := m, wip := true, told := none, wel := .unknown }

/-- Whether the spec gives the effect of a program or erase sent now: no command executing, WEL set, and no Write Status
Register that may have protected the target (R57, I3, I4, R151). -/
def Chip.accepts (c : Chip) : Bool := !c.busy && c.wel == .set && c.prot.isNone

/-- Write Enable sets WEL (R40); sent while a command may be executing its effect is chip-defined (R104, I4). -/
def Chip.writeEnable (c : Chip) : Chip := { c with wel := if c.busy then .unknown else .set }

/-- A Write Status Register (R132): a command that executes and whose protection bits are chip-specific (log 12). -/
def Chip.writeStatus (c : Chip) (v : Byte) : Chip :=
  { c with
    prot := some v
    wel := if !c.busy && c.wel == .set then .set else .unknown
    wip := true
    told := none }

/-- Every target byte of a Page Program of `n` data bytes at `a` lies below the capacity. -/
def belowCapacity (params : Params) (a : FlashAddr) (n : Nat) : Bool :=
  (List.range n).all fun j => (pageTarget a j).toNat < params.capacity

/-- No reaction. -/
def reactNone (s : State) : Effect := { chip := s.chip, draws := s.draws }

/-- A Page Program of `ds` at `a`, complete (R56), or with any value in the target page where the spec gives no effect
(I1, I3, I4). -/
def reactProgram (a : FlashAddr) (ds : List Byte) (s : State) : Effect :=
  if s.chip.accepts && belowCapacity s.params a ds.length then
    { chip := s.chip.execute (programBytes a 0 ds s.chip.flash), draws := s.draws }
  else
    { chip := s.chip.surprise (scramblePage a s.draws s.chip.flash), draws := s.draws + 1 }

/-- A Sector/Block Erase (R134), with any value in the array where the spec gives no effect (log 11). -/
def reactErase (a : FlashAddr) (s : State) : Effect :=
  if s.chip.accepts && a.toNat < s.params.capacity then
    { chip := s.chip.execute (eraseBlock a s.chip.flash), draws := s.draws }
  else
    { chip := s.chip.surprise (Memory.anything s.draws), draws := s.draws + 1 }

/-- A Chip Erase (R135), with any value in the array where the spec gives no effect (log 11). -/
def reactEraseAll (s : State) : Effect :=
  if s.chip.accepts then
    { chip := s.chip.execute Memory.blank, draws := s.draws }
  else
    { chip := s.chip.surprise (Memory.anything s.draws), draws := s.draws + 1 }

/-- What the chip does with a frame that ends (R64, R68). A Read Status, a Read and a Read Identification change
nothing (R86, R133, R136). -/
def chipReact (f : List Byte) (s : State) : Effect :=
  match f with
  | [] => reactNone s
  | b :: args =>
    if b = opWren then
      match args with
      | [] => { chip := s.chip.writeEnable, draws := s.draws }
      | _ => reactNone s
    else if b = opPp then
      match args with
      | h :: m :: l :: d :: ds => reactProgram (addrOfBytes h m l) (d :: ds) s
      | _ => reactNone s
    else if b = opWrsr then
      match args with
      | [v] => { chip := s.chip.writeStatus v, draws := s.draws }
      | _ => reactNone s
    else if b = opSe then
      match args with
      | [h, m, l] => reactErase (addrOfBytes h m l) s
      | _ => reactNone s
    else if b = opCe then
      match args with
      | [] => reactEraseAll s
      | _ => reactNone s
    else reactNone s

/-- The reaction to the frame that is open, by the chip as it has settled (log 8). -/
def frameEffect (s : State) : Effect := chipReact (s.chip.frame.getD []) { s with chip := s.chip.settle }

/-- A Page Program at `cur_addr` cut off: any value for every byte of its page, and WEL unknown (R143, I5). -/
def cutEffect (s : State) : Effect :=
  { chip := s.chip.surprise (scramblePage s.curAddr s.draws s.chip.flash), draws := s.draws + 1 }

/-- One byte each way (R16, R54): the chip's answer, then the chip has the byte. -/
def exchange (tx : Byte) (s : State) : State :=
  { s with
    chip := (chipAnswer s).chip.take tx
    env := (chipAnswer s).env
    draws := (chipAnswer s).draws }

/-- The byte received in the next exchange. -/
def xferRx (s : State) : Byte := (chipAnswer s).rx

/-- Chip-select rises at the end of a frame: the chip takes the command. -/
def chipCommit (s : State) : State :=
  { s with chip := (frameEffect s).chip.deselect, draws := (frameEffect s).draws }

/-- Chip-select rises in a Page Program that still has bytes to send. -/
def chipCut (s : State) : State :=
  { s with chip := (cutEffect s).chip.deselect, draws := (cutEffect s).draws }

/-! ### The block's event primitives (R16) -/

/-- `CS(0)`. -/
def csLow (s : State) : State :=
  { s with csN := false, chip := s.chip.select }.emit (.cs false)

/-- `CS(1)`. -/
def csHigh (s : State) : State := { chipCommit s with csN := true }.emit (.cs true)

/-- The `CS(1)` that cuts a Page Program off (R141, R143). -/
def csHighCut (s : State) : State := { chipCut s with csN := true }.emit (.cs true)

/-- `XFER(tx)` (R37). The byte received is `xferRx` of the state before. -/
def xfer (tx : Byte) (s : State) : State :=
  { exchange tx s with ports := { s.ports with xfer := some tx } }.emit (.xfer tx (xferRx s))

/-- `BufRead(i)` (R38). The byte read is `bufValue i` of the state before. -/
def bufRead (i : Count) (s : State) : State :=
  { s with
    ports := { s.ports with buf := some i }
    draws := if (s.bufByte? i).isSome then s.draws else s.draws + 1 }.emit (.bufRead i (bufValue i s))

/-- `LOG(v)` (R39). -/
def logEvent (v : Byte) (s : State) : State :=
  { s with ports := { s.ports with log := some v } }.emit (.log v)

/-- `NOW()` (R62). The sample is `nowValue` of the state before. -/
def sampleNow (s : State) : State :=
  { s with
    env := { s.env with nows := s.env.nows.tail }
    draws := drawsAfter s.env.nows s.draws }.emit (.now (nowValue s))

/-- `RESPOND(code, sr_latch)`: the response, and IDLE in the same step (R36, R81). -/
def respond (code : RspCode) (s : State) : State :=
  { s with phase := .idle, ports := { s.ports with rsp := some (code, s.srLatch) } }.emit
    (.respond code s.srLatch)

/-! ### Acceptance (R34) -/

/-- The writes of acceptance: `op` from the word, `sr_latch <- 0x00` (R27, R34). -/
def accept (op : Nibble) (s : State) : State := { s with op := op, srLatch := 0x00 }

/-- A request is taken only while `req_ready = 1`; otherwise it is not taken and nothing changes (R34, log 20). -/
def whenReady (s : State) (taken : State → State) : Result :=
  .next (if s.reqReady then taken s else s)

/-! ### The abort: the one exception entry (R141, R143, R146) -/

/-- The Page Program of this point still has a data byte to send: `CS(1)` here cuts it off (R143). -/
def Point.ppUnfinished : Point → Bool
  | .chunkPp .cs1 => false
  | .chunkPp _ => true
  | _ => false

/-- Taking the abort at point `p`: `CS(1)` if `cs_n = 0`, else the response at once. After the `CS(1)` the response is
the next step, checked by nothing (R141, R146). There is no return from it. -/
def takeAbort (p : Point) (s : State) : State :=
  if s.csN then respond .errAborted s
  else (if p.ppUnfinished then csHighCut s else csHigh s).goto .respondAborted

/-- The abort check before an event, then the event (R141, R145). -/
def checked (p : Point) (s : State) (event : State → State) : State :=
  if s.abortSeen then takeAbort p s else event s

/-! ### Reset (R157 to R160) -/

/-- What the chip sees when the line goes high with a reset: a Page Program is cut off (R159, I5), a Write Enable may or
may not have been taken, since an exchange may have been abandoned (R158, log 10). -/
def dropEffect (s : State) : Effect :=
  if s.csN then reactNone s
  else
    match s.phase with
    | .busy (.chunkPp _) => cutEffect s
    | .busy (.chunkWren _) => { chip := { s.chip with wel := .unknown }, draws := s.draws }
    | .busy (.enableWren _) => { chip := { s.chip with wel := .unknown }, draws := s.draws }
    | _ => reactNone s

/-- Reset: IDLE, `cs_n = 1`, `last_log_ts = 0`, strobes 0, no event; the other registers hold no defined value (R42,
R158, R160, log 5). -/
def resetBlock (s : State) : State :=
  let n := (dropEffect s).draws
  { s with
    phase := .idle
    op := Config.freeOp n
    curAddr := Config.freeAddr n
    bufOff := Config.freeOffset n
    remaining := Config.freeRemaining n
    chunkLen := Config.freeChunk n
    srLatch := Config.freeLatch n
    lastLogTs := 0
    csN := true
    ports := Ports.quiet
    chip := (dropEffect s).chip.deselect
    draws := n + 1 }

end Sys2Proof.Machine
end

