-- ==== Sys2Proof/Machine/Gate.lean ====
section
/-! DEFINITION. The status/ready gate (spec/40_ready_gate.md): READ_SR, GATE, and the requests READ_STATUS and
WAIT_READY. A procedure step performs the event at its point and goes on to the next one; `at'` says how the caller names
the procedure's points, `done` what the caller does when it returns. -/

namespace Sys2Proof.Machine

/-- One step of READ_SR (R85). `sr_latch` is written after `CS(1)`; `done` gets the status byte. -/
def readSrStep (at' : SrPoint → Point) (done : Byte → State → State) (p : SrPoint) (s : State) : State :=
  checked (at' p) s fun s =>
    match p with
    | .cs0 => (csLow s).goto (at' .opcode)
    | .opcode => (xfer opRdsr s).goto (at' .data)
    | .data => (xfer s.params.dummyTx s).goto (at' (.cs1 (xferRx s)))
    | .cs1 v => done v { csHigh s with srLatch := v }

/-- The start of GATE: its first poll comes unconditionally (R89). -/
def GatePoint.start : GatePoint := .poll .cs0

/-- One step of GATE (R87): poll, test bit 0, and on a busy poll the time check and perhaps a log, then poll again. The
byte logged is the status just read, which `sr_latch` holds (R92, R94). -/
def gateStep (at' : GatePoint → Point) (done : State → State) (p : GatePoint) (s : State) : State :=
  match p with
  | .poll q =>
    readSrStep (fun q => at' (.poll q))
      (fun v t => if isBusyStatus v then t.goto (at' .now) else done t) q s
  | .now =>
    checked (at' p) s fun s =>
      if logDue s.params (nowValue s) s.lastLogTs then (sampleNow s).goto (at' (.log (nowValue s)))
      else (sampleNow s).goto (at' GatePoint.start)
  | .log t =>
    checked (at' p) s fun s =>
      { logEvent s.srLatch s with lastLogTs := t }.goto (at' GatePoint.start)

/-- READ_STATUS is taken (R34, R95). `addr` and `len` are ignored (R76). -/
def execReadStatus (_addr : FlashAddr) (_len : Count) (s : State) : Result :=
  whenReady s fun s => (accept 0x3 s).goto (.readStatus .cs0)

/-- WAIT_READY is taken (R34, R96). `addr` and `len` are ignored (R76). -/
def execWaitReady (_addr : FlashAddr) (_len : Count) (s : State) : Result :=
  whenReady s fun s => (accept 0x2 s).goto (.waitReady GatePoint.start)

end Sys2Proof.Machine
end

