-- ==== Sys2Proof/Machine/Enable.lean ====
section
/-! DEFINITION. Write-enable (spec/41_write_enable.md): WREN_TXN and the request WRITE_ENABLE. -/

namespace Sys2Proof.Machine

/-- One step of WREN_TXN (R100). It writes no register. -/
def wrenStep (at' : WrenPoint → Point) (done : State → State) (p : WrenPoint) (s : State) : State :=
  checked (at' p) s fun s =>
    match p with
    | .cs0 => (csLow s).goto (at' .opcode)
    | .opcode => (xfer opWren s).goto (at' .cs1)
    | .cs1 => done (csHigh s)

/-- WRITE_ENABLE is taken (R34, R103). Its Write Enable comes first, with no gate before it (R101, R104). `addr` and
`len` are ignored (R76). -/
def execWriteEnable (_addr : FlashAddr) (_len : Count) (s : State) : Result :=
  whenReady s fun s => (accept 0x4 s).goto (.enableWren .cs0)

end Sys2Proof.Machine
end

