-- ==== Sys2Proof/Machine/Splitter.lean ====
section
/-! DEFINITION. The page-write splitter (spec/42_page_write_splitter.md): the chunk loop of WRITE, PP_TXN, and the
request WRITE. -/

namespace Sys2Proof.Machine

/-- The head of the chunk loop (R107, R115): with nothing left the response comes next; else the chunk's length (R109)
and its Write Enable (R110). -/
def chunkHead (s : State) : State :=
  if s.remaining = 0 then s.goto .respondOk
  else { s with chunkLen := chunkLenFor s.remaining s.curAddr }.goto (.chunkWren .cs0)

/-- The advance after a chunk's third gate (R114). -/
def chunkAdvance (s : State) : State :=
  { s with
    curAddr := s.curAddr + s.chunkLen.setWidth 24
    bufOff := s.bufOff + s.chunkLen.setWidth 32
    remaining := s.remaining - s.chunkLen.setWidth 32 }

/-- What follows data byte `j`: the next `BufRead`, or `CS(1)` (R112, R113). -/
def ppAfter (params : Params) (n : BitVec 9) (j : Nat) : PpPoint :=
  if j < dataCount params n then .bufRead j else .cs1

/-- The buffer index of data byte `j` of the chunk, `buf_off + j` (R50, R111). -/
def ppIndex (s : State) (j : Nat) : Count := s.bufOff + BitVec.ofNat 32 j

/-- One step of PP_TXN (R111), its assertion first: where it fails the step is the fault BOUNDARY_VIOLATION (R121,
R147). -/
def ppStep (p : PpPoint) (s : State) : Result :=
  match p with
  | .cs0 =>
    if chunkFits s.curAddr s.chunkLen then
      .next (checked (.chunkPp .cs0) s fun s => (csLow s).goto (.chunkPp .opcode))
    else .fault .boundaryViolation
  | .opcode => .next (checked (.chunkPp .opcode) s fun s => (xfer opPp s).goto (.chunkPp .addrHigh))
  | .addrHigh =>
    .next (checked (.chunkPp .addrHigh) s fun s => (xfer (addrHigh s.curAddr) s).goto (.chunkPp .addrMid))
  | .addrMid =>
    .next (checked (.chunkPp .addrMid) s fun s => (xfer (addrMid s.curAddr) s).goto (.chunkPp .addrLow))
  | .addrLow =>
    .next (checked (.chunkPp .addrLow) s fun s =>
      (xfer (addrLow s.curAddr) s).goto (.chunkPp (ppAfter s.params s.chunkLen 0)))
  | .bufRead j =>
    .next (checked (.chunkPp (.bufRead j)) s fun s =>
      (bufRead (ppIndex s j) s).goto (.chunkPp (.data j (bufValue (ppIndex s j) s))))
  | .data j d =>
    .next (checked (.chunkPp (.data j d)) s fun s =>
      (xfer d s).goto (.chunkPp (ppAfter s.params s.chunkLen (j + 1))))
  | .cs1 =>
    .next (checked (.chunkPp .cs1) s fun s => (csHigh s).goto (.chunkGate3 GatePoint.start))

/-- WRITE is taken (R34, R106, R108): the registers are set, its buffer is presented (R45), no event comes first, and the
loop head follows. -/
def execWrite (addr : FlashAddr) (len : Count) (s : State) : Result :=
  whenReady s fun s =>
    chunkHead { accept 0x1 s with curAddr := addr, bufOff := 0, remaining := len, env := s.env.takeBuffer }

end Sys2Proof.Machine
end

