-- ==== Sys2Proof/Machine/Procedures.lean ====
section
/-! DEFINITION. One event of the request being executed (spec/10_state.md R20, R21): which procedure stands at which
point, and what comes after it; and the request word R77 refuses with a response. -/

namespace Sys2Proof.Machine

/-- The next event of a busy block at point `p`. -/
def advance (p : Point) (s : State) : Result :=
  match p with
  | .readStatus q => .next (readSrStep .readStatus (fun _ t => t.goto .respondOk) q s)
  | .waitReady q => .next (gateStep .waitReady (fun t => t.goto .respondOk) q s)
  | .enableWren q => .next (wrenStep .enableWren (fun t => t.goto (.enableGate GatePoint.start)) q s)
  | .enableGate q => .next (gateStep .enableGate (fun t => t.goto .respondOk) q s)
  | .chunkWren q => .next (wrenStep .chunkWren (fun t => t.goto (.chunkGate1 GatePoint.start)) q s)
  | .chunkGate1 q => .next (gateStep .chunkGate1 (fun t => t.goto (.chunkGate2 GatePoint.start)) q s)
  | .chunkGate2 q => .next (gateStep .chunkGate2 (fun t => t.goto (.chunkPp .cs0)) q s)
  | .chunkPp q => ppStep q s
  | .chunkGate3 q => .next (gateStep .chunkGate3 (fun t => chunkHead (chunkAdvance t)) q s)
  | .respondOk => .next (respond .ok s)
  | .respondAborted => .next (respond .errAborted s)

/-- A reserved request word is taken and answered in the decode step: `op` and `sr_latch` are written,
`RESPOND(ERR_BAD_OP, 0x00)`, no other event (R77, R78, R140). -/
def execReservedRequest (op _rsv : Nibble) (_addr : FlashAddr) (_len : Count) (s : State) : Result :=
  whenReady s fun s => respond .errBadOp (accept op s)

end Sys2Proof.Machine
end

