-- ==== Sys2Proof/Machine/BusCommands.lean ====
section
/-! DEFINITION. The bus commands as frames of the surrounding software (spec/30_encoding.md R63 to R67,
spec/43_other_bus_commands.md R131 to R136): each is one whole transaction (R55), with the chip's answers and reaction.
The block's registers, ports and trace take no part in it. The block's own WREN, RDSR and PP frames are the procedures of
Gate.lean, Enable.lean and Splitter.lean, over the same chip. -/

namespace Sys2Proof.Machine

/-- The software's `CS(0)`. -/
def swSelect (s : State) : State := { s with chip := s.chip.select }.emitSw (.cs false)

/-- One exchange of the software. -/
def swXfer (s : State) (tx : Byte) : State :=
  (exchange tx s).emitSw (.xfer tx (xferRx s))

/-- The software's `CS(1)`. -/
def swDeselect (s : State) : State := (chipCommit s).emitSw (.cs true)

/-- A whole transaction: `CS(0)`, one exchange per byte, `CS(1)` (R63). -/
def swTransaction (bytes : List Byte) (s : State) : State :=
  swDeselect (bytes.foldl swXfer (swSelect s))

/-- A frame goes onto the bus only while `bus_lock = 0` (R131, R165); otherwise the model refuses (I13). -/
def onBus (bytes : List Byte) (s : State) : Result :=
  if s.busLock then .refused .busLocked else .next (swTransaction bytes s)

/-- Write Enable (R65). -/
def execWren (s : State) : Result := onBus [opWren] s

/-- Read Status (R66). -/
def execRdsr (tx : Byte) (s : State) : Result := onBus [opRdsr, tx] s

/-- Page Program (R67). -/
def execPp (addr : FlashAddr) (data : List Byte) (s : State) : Result :=
  onBus (addressedFrame opPp addr data) s

/-- Write Status Register (R132). -/
def execWrsr (value : Byte) (s : State) : Result := onBus [opWrsr, value] s

/-- Read (R133). -/
def execRead (addr : FlashAddr) (tx : List Byte) (s : State) : Result :=
  onBus (addressedFrame opRead addr tx) s

/-- Sector/Block Erase (R134). -/
def execSe (addr : FlashAddr) (s : State) : Result := onBus (addressedFrame opSe addr []) s

/-- Chip Erase (R135). -/
def execCe (s : State) : Result := onBus [opCe] s

/-- Read Identification (R136). -/
def execRdid (tx0 tx1 tx2 : Byte) (s : State) : Result := onBus [opRdid, tx0, tx1, tx2] s

end Sys2Proof.Machine
end

