-- ==== Sys2Proof/Machine/Dispatch.lean ====
section
/-! DEFINITION. One arm per instruction. -/

namespace Sys2Proof.Machine

def exec (i : Instr) (s : State) : Host.Outcome State Fault Refusal :=
  match i with
  | .wren => Sys2Proof.Machine.execWren s
  | .rdsr tx => Sys2Proof.Machine.execRdsr tx s
  | .pp addr data => Sys2Proof.Machine.execPp addr data s
  | .wrsr value => Sys2Proof.Machine.execWrsr value s
  | .read addr tx => Sys2Proof.Machine.execRead addr tx s
  | .se addr => Sys2Proof.Machine.execSe addr s
  | .ce => Sys2Proof.Machine.execCe s
  | .rdid tx0 tx1 tx2 => Sys2Proof.Machine.execRdid tx0 tx1 tx2 s
  | .write addr len => Sys2Proof.Machine.execWrite addr len s
  | .waitReady addr len => Sys2Proof.Machine.execWaitReady addr len s
  | .readStatus addr len => Sys2Proof.Machine.execReadStatus addr len s
  | .writeEnable addr len => Sys2Proof.Machine.execWriteEnable addr len s
  | .reservedRequest op rsv addr len => Sys2Proof.Machine.execReservedRequest op rsv addr len s

end Sys2Proof.Machine
end

