-- ==== Sys2Proof/Machine/Fetch.lean ====
section
/-! DEFINITION. What a step does around an instruction: the pins of the step, the strobes of the last one, and the offer
it takes (spec/10_state.md R33, R34, R36). The block fetches from no memory (R21, R60). -/

namespace Sys2Proof.Machine

/-- The levels of this step: the next of the plan, else those of the last step. -/
def Env.tick (e : Env) : Env :=
  match e.plan with
  | [] => e
  | p :: ps => { e with pins := p, plan := ps }

/-- A step begins: this step's levels, and every strobe back to 0 (R36 to R39). -/
def State.tick (s : State) : State := { s with env := s.env.tick, ports := Ports.quiet }

/-- The first offer leaves the list: it is taken. -/
def State.takeOffer (s : State) : State := { s with env := { s.env with offers := s.env.offers.tail } }

/-- An idle block takes the next offer, decoded in the same step (R34, R77); with none it stays quiet (R155). The level of
`abort` in this step is not looked at: what counts is its level in the step of the request's first event (R141, log 31). -/
def idleStep (s : State) : Result :=
  match s.env.offers with
  | [] => .next s
  | c :: _ =>
    match decode c with
    | .ok i => exec i s.takeOffer
    | .error r => .refused (.notAFrame r)

/-- One step at this step's levels: reset first, then the request in flight, then the next offer (R145). -/
def stepNow (s : State) : Result :=
  if s.env.pins.rstN then
    match s.phase with
    | .idle => idleStep s
    | .busy p => advance p s
  else .next (resetBlock s)

/-- The state in which the next step takes the code `c` and nothing else. -/
def State.offering (s : State) (c : Code) : State :=
  { s with
    phase := .idle
    env := { s.env with pins := { s.env.pins with rstN := true }, plan := [], offers := [c] } }

end Sys2Proof.Machine
end

