-- ==== Sys2Proof/Machine/Step.lean ====
section
/-! DEFINITION. One step of the machine: one event, one acceptance, one software frame, one reset, or a quiet step
(spec/00_scope.md R4). -/

namespace Sys2Proof.Machine

/-- One step. -/
def step (s : State) : Host.Outcome State Fault Refusal := stepNow s.tick

/-- `s` with the opcode-table word offered so that the very next step takes it (log 19). -/
def State.withFetchWord (s : State) (nbits w : Nat) : State := s.offering (codeOfTableWord nbits w)

end Sys2Proof.Machine
end

