-- ==== Sys2Proof/Safety.lean ====
section
/-! DEFINITION. What the rules promise of every state the machine reaches (spec/10_state.md R43,
spec/42_page_write_splitter.md R121, R122, spec/40_ready_gate.md R94), as one invariant, and the words in which claims
about runs are said. -/

namespace Sys2Proof.Machine

/-! ### Where chip-select is low (R43 a, b) -/

/-- READ_SR is between its `CS(0)` and its `CS(1)` (R85). -/
def SrPoint.selected : SrPoint → Bool
  | .cs0 => false
  | .opcode => true
  | .data => true
  | .cs1 _ => true

/-- GATE is inside a READ_SR that is (R87). -/
def GatePoint.selected : GatePoint → Bool
  | .poll p => p.selected
  | .now => false
  | .log _ => false

/-- WREN_TXN is between its `CS(0)` and its `CS(1)` (R100). -/
def WrenPoint.selected : WrenPoint → Bool
  | .cs0 => false
  | .opcode => true
  | .cs1 => true

/-- PP_TXN is between its `CS(0)` and its `CS(1)` (R111). -/
def PpPoint.selected : PpPoint → Bool
  | .cs0 => false
  | .opcode => true
  | .addrHigh => true
  | .addrMid => true
  | .addrLow => true
  | .bufRead _ => true
  | .data _ _ => true
  | .cs1 => true

/-- The point lies inside a transaction. -/
def Point.selected : Point → Bool
  | .readStatus p => p.selected
  | .waitReady p => p.selected
  | .enableWren p => p.selected
  | .enableGate p => p.selected
  | .chunkWren p => p.selected
  | .chunkGate1 p => p.selected
  | .chunkGate2 p => p.selected
  | .chunkPp p => p.selected
  | .chunkGate3 p => p.selected
  | .respondOk => false
  | .respondAborted => false

/-- A transaction is open. -/
def Phase.selected : Phase → Bool
  | .idle => false
  | .busy p => p.selected

/-! ### What the chip has received of the open frame (R65 to R67) -/

/-- The bytes READ_SR has sent. -/
def SrPoint.sent (dummy : Byte) : SrPoint → List Byte
  | .cs0 => []
  | .opcode => []
  | .data => [opRdsr]
  | .cs1 _ => [opRdsr, dummy]

/-- The bytes GATE has sent in its open frame. -/
def GatePoint.sent (dummy : Byte) : GatePoint → List Byte
  | .poll p => p.sent dummy
  | .now => []
  | .log _ => []

/-- The bytes WREN_TXN has sent. -/
def WrenPoint.sent : WrenPoint → List Byte
  | .cs0 => []
  | .opcode => []
  | .cs1 => [opWren]

/-- `f` is what PP_TXN has sent for a chunk at `a`; `n` is the number of data bytes it sends in all. -/
def PpPoint.sentIs (a : FlashAddr) (n : Nat) (f : List Byte) : PpPoint → Prop
  | .cs0 => f = []
  | .opcode => f = []
  | .addrHigh => f = [opPp]
  | .addrMid => f = [opPp, Sys2Proof.addrHigh a]
  | .addrLow => f = [opPp, Sys2Proof.addrHigh a, Sys2Proof.addrMid a]
  | .bufRead j => j < n ∧ ∃ ds, ds.length = j ∧ f = addressedFrame opPp a ds
  | .data j _ => j < n ∧ ∃ ds, ds.length = j ∧ f = addressedFrame opPp a ds
  | .cs1 => ∃ ds, ds.length = n ∧ f = addressedFrame opPp a ds

/-- `f` is what the procedure at this point has sent in the open frame. -/
def Point.sentIs (s : State) (f : List Byte) : Point → Prop
  | .readStatus p => f = p.sent s.params.dummyTx
  | .waitReady p => f = p.sent s.params.dummyTx
  | .enableWren p => f = p.sent
  | .enableGate p => f = p.sent s.params.dummyTx
  | .chunkWren p => f = p.sent
  | .chunkGate1 p => f = p.sent s.params.dummyTx
  | .chunkGate2 p => f = p.sent s.params.dummyTx
  | .chunkPp p => p.sentIs s.curAddr (dataCount s.params s.chunkLen) f
  | .chunkGate3 p => f = p.sent s.params.dummyTx
  | .respondOk => f = []
  | .respondAborted => f = []

/-! ### The registers at each point -/

/-- A chunk of a WRITE is being sent. -/
def Point.inChunk : Point → Bool
  | .chunkWren _ => true
  | .chunkGate1 _ => true
  | .chunkGate2 _ => true
  | .chunkPp _ => true
  | .chunkGate3 _ => true
  | _ => false

/-- The chunk's length is the one R109 gives, something remains (R115), and `buf_off + remaining` does not wrap (R114). -/
def chunkOk (s : State) : Prop :=
  s.remaining ≠ 0 ∧ s.chunkLen = chunkLenFor s.remaining s.curAddr ∧ s.bufOff.toNat + s.remaining.toNat < 2 ^ 32

/-- The opcode in `op` is that of the procedure at this point (R22). -/
def Point.opIs (op : Nibble) : Point → Prop
  | .readStatus _ => op = 0x3
  | .waitReady _ => op = 0x2
  | .enableWren _ => op = 0x4
  | .enableGate _ => op = 0x4
  | .chunkWren _ => op = 0x1
  | .chunkGate1 _ => op = 0x1
  | .chunkGate2 _ => op = 0x1
  | .chunkPp _ => op = 0x1
  | .chunkGate3 _ => op = 0x1
  | .respondOk => isRequestOp op = true
  | .respondAborted => isRequestOp op = true

/-- A GATE past a poll has read a busy status (R88, R91). -/
def GatePoint.latchOk (latch : Byte) : GatePoint → Prop
  | .poll _ => True
  | .now => isBusyStatus latch = true
  | .log _ => isBusyStatus latch = true

/-- The status latch at each point: busy past a busy poll, ready once a GATE has returned (R88, R94). READ_STATUS
responds whatever it read (R95). -/
def Point.latchOk (s : State) : Point → Prop
  | .readStatus _ => True
  | .waitReady p => p.latchOk s.srLatch
  | .enableWren _ => True
  | .enableGate p => p.latchOk s.srLatch
  | .chunkWren _ => True
  | .chunkGate1 p => p.latchOk s.srLatch
  | .chunkGate2 p => p.latchOk s.srLatch
  | .chunkPp _ => isBusyStatus s.srLatch = false
  | .chunkGate3 p => p.latchOk s.srLatch
  | .respondOk => s.op = 0x3 ∨ isBusyStatus s.srLatch = false
  | .respondAborted => True

/-- The registers at a point. -/
def Point.regsOk (s : State) (p : Point) : Prop :=
  p.opIs s.op ∧ p.latchOk s ∧ (p.inChunk = true → chunkOk s) ∧
    (p = .respondOk → s.op = 0x1 → s.remaining = 0)

/-- The invariant: `cs_n` is 0 exactly inside a transaction (R43 a, b), the chip has received exactly what the
procedure has sent, the registers fit the point (R43 c, R94, R121), and the flash keeps its canonical form. -/
structure State.Inv (s : State) : Prop where
  cs : s.csN = !s.phase.selected
  unselected : s.csN = true → s.chip.frame = none
  sent : ∀ p, s.phase = .busy p → s.csN = false → ∃ f, s.chip.frame = some f ∧ p.sentIs s f
  regs : ∀ p, s.phase = .busy p → p.regsOk s
  flash : s.chip.flash.wf = true

/-! ### Words for claims about runs -/

/-- Reset is released, no abort is raised, and neither changes. -/
def State.calm (s : State) : Prop :=
  s.env.pins.rstN = true ∧ s.env.pins.abort = false ∧ s.env.plan = []

/-- `abort` is 1 at the coming step, and `rst_n` is 1. -/
def State.abortAt (s : State) : Prop := s.env.tick.pins.rstN = true ∧ s.env.tick.pins.abort = true

/-- `k` steps from `s` answer `t`. -/
def Reaches (k : Nat) (s t : State) : Prop :=
  Host.Core.run Sys2Proof.core k s = Host.Outcome.next t

/-- `s` with other offers. -/
def State.setOffers (s : State) (l : List Code) : State := { s with env := { s.env with offers := l } }

/-- `s` with another `last_log_ts` and other times to come. -/
def State.setTimes (s : State) (last : Time) (l : List Time) : State :=
  { s with lastLogTs := last, env := { s.env with nows := l } }

/-- The machine is idle and its first offer is the request `i`. -/
def State.offersRequest (s : State) (i : Instr) : Prop :=
  s.phase = .idle ∧ ∃ w rest, s.env.offers = .request w :: rest ∧ decodeRequest w = i

/-- The next `n` status bytes are scripted, have bit 0 clear, and `rest` comes after them. -/
def State.readyFor (s : State) (n : Nat) (rest : List Byte) : Prop :=
  ∃ vs, s.env.statuses = vs ++ rest ∧ vs.length = n ∧ ∀ v ∈ vs, isBusyStatus v = false

/-- The chip would carry out a command now: idle, and no Write Status Register sent. -/
def State.chipIdle (s : State) : Prop := s.chip.busy = false ∧ s.chip.prot = none

/-- Everything of the block is as before: its registers, its strobes, its trace, its parameters. -/
def SameBlock (s t : State) : Prop :=
  t.phase = s.phase ∧ t.op = s.op ∧ t.curAddr = s.curAddr ∧ t.bufOff = s.bufOff ∧ t.remaining = s.remaining ∧
    t.chunkLen = s.chunkLen ∧ t.srLatch = s.srLatch ∧ t.lastLogTs = s.lastLogTs ∧ t.csN = s.csN ∧
    t.ports = s.ports ∧ t.trace = s.trace ∧ t.params = s.params

/-- The inputs are as before but for the status bytes used up. -/
def SameInputs (s t : State) : Prop :=
  t.env.pins = s.env.pins ∧ t.env.plan = s.env.plan ∧ t.env.offers = s.env.offers ∧ t.env.buf = s.env.buf ∧
    t.env.bufs = s.env.bufs ∧ t.env.nows = s.env.nows

/-- The registers of a WRITE are as before. -/
def SameChunk (s t : State) : Prop :=
  t.curAddr = s.curAddr ∧ t.bufOff = s.bufOff ∧ t.remaining = s.remaining ∧ t.chunkLen = s.chunkLen

/-! ### Where the procedures are called -/

/-- The places that call GATE (R87): WAIT_READY, WRITE_ENABLE, and three in each chunk of a WRITE (R110). -/
inductive GateSite where
  | waitReady
  | enable
  | chunk1
  | chunk2
  | chunk3
  deriving DecidableEq, Repr

/-- A point of the gate at this place. -/
def GateSite.point : GateSite → GatePoint → Point
  | .waitReady, p => .waitReady p
  | .enable, p => .enableGate p
  | .chunk1, p => .chunkGate1 p
  | .chunk2, p => .chunkGate2 p
  | .chunk3, p => .chunkGate3 p

/-- What comes after the gate at this place returns (R96, R103, R110): the response, the next gate, the Page Program, or
the next chunk. -/
def GateSite.after : GateSite → State → State
  | .waitReady, t => t.goto .respondOk
  | .enable, t => t.goto .respondOk
  | .chunk1, t => t.goto (.chunkGate2 GatePoint.start)
  | .chunk2, t => t.goto (.chunkPp .cs0)
  | .chunk3, t => chunkHead (chunkAdvance t)

/-- The places that call WREN_TXN (R101): WRITE_ENABLE and each chunk of a WRITE. -/
inductive WrenSite where
  | enable
  | chunk
  deriving DecidableEq, Repr

/-- A point of the Write Enable at this place. -/
def WrenSite.point : WrenSite → WrenPoint → Point
  | .enable, p => .enableWren p
  | .chunk, p => .chunkWren p

/-- The first point of the gate that follows it (R101). -/
def WrenSite.gate : WrenSite → Point
  | .enable => .enableGate GatePoint.start
  | .chunk => .chunkGate1 GatePoint.start

/-! ### Traces without the received bytes no rule reads

Traces in the spec write `·` for them (R16). -/

/-- An event with the received byte of an exchange left out. -/
def Event.outline : Event → Event
  | .xfer tx _ => .xfer tx 0x00
  | .cs b => .cs b
  | .bufRead i v => .bufRead i v
  | .log v => .log v
  | .now t => .now t
  | .respond c v => .respond c v

/-- WREN_TXN's events (R100). -/
def wrenEvents : List Event := [.cs false, .xfer opWren 0x00, .cs true]

/-- READ_SR's events (R85). -/
def pollEvents (dummy : Byte) : List Event := [.cs false, .xfer opRdsr 0x00, .xfer dummy 0x00, .cs true]

/-- The data phase of PP_TXN from buffer index `i`: each byte read, then sent (R112). -/
def dataEvents : Count → List Byte → List Event
  | _, [] => []
  | i, d :: ds => .bufRead i d :: .xfer d 0x00 :: dataEvents (i + 1) ds

/-- PP_TXN's events (R111). -/
def ppEvents (a : FlashAddr) (i : Count) (ds : List Byte) : List Event :=
  [.cs false, .xfer opPp 0x00, .xfer (addrHigh a) 0x00, .xfer (addrMid a) 0x00, .xfer (addrLow a) 0x00] ++
    dataEvents i ds ++ [.cs true]

/-- The events of one frame the surrounding software sends: the bytes and what came back. -/
def frameEvents (sent : List (Byte × Byte)) : List Event :=
  .cs false :: sent.map (fun x => .xfer x.1 x.2) ++ [.cs true]

/-- The buffer indices a trace reads, in order. -/
def bufIndices (es : List Event) : List Nat :=
  es.filterMap fun
    | .bufRead i _ => some i.toNat
    | _ => none

/-- A trace without its NOW and LOG events (R93). -/
def busEvents (es : List Event) : List Event :=
  es.filter fun
    | .now _ => false
    | .log _ => false
    | _ => true

/-! ### The chunk list in closed form (R118) -/

/-- `n0 = min(L, 256 - f)`, `f = A[7:0]`. -/
def firstLen (a : FlashAddr) (len : Count) : Nat := min len.toNat (256 - (pageOffset a).toNat)

/-- `N = ceil((f + L) / 256)`. -/
def chunkCount (a : FlashAddr) (len : Count) : Nat := ((pageOffset a).toNat + len.toNat + 255) / 256

/-- The address of chunk `k`. -/
def chunkAddr (a : FlashAddr) (k : Nat) : FlashAddr :=
  if k = 0 then a else BitVec.ofNat 24 (a.toNat - (pageOffset a).toNat + 256 * k)

/-- The buffer offset of chunk `k`. -/
def chunkOff (a : FlashAddr) (len : Count) (k : Nat) : Nat :=
  if k = 0 then 0 else firstLen a len + 256 * (k - 1)

/-- The length of chunk `k`. -/
def chunkSize (a : FlashAddr) (len : Count) (k : Nat) : Nat :=
  if k = 0 then firstLen a len else min 256 (len.toNat - firstLen a len - 256 * (k - 1))

/-! ### What a Page Program does to one flash byte (R56) -/

/-- The data bytes of a Page Program at `a` that land on `b`, in order. -/
def landing (a b : FlashAddr) (ds : List Byte) : List Byte :=
  ((List.range ds.length).filter (fun j => pageTarget a j = b)).filterMap (fun j => ds[j]?)

end Sys2Proof.Machine
end

