-- ==== Sys2Proof/Certificates/Slice0/Obligations.lean ====
section
/-! DEFINITION. What the model is claimed to satisfy, one Prop a statement, from the numbered rules of spec/. A statement
about a free value (a received byte, a time sample, a buffer byte nothing scripted) holds for every value of it. -/

open Sys2Proof Sys2Proof.Machine

/-! ### Reset -/

/-- R42: what the spec gives the machine after reset, and `req_ready` once `rst_n` is 1. -/
def Obligations.ResetStateAsSpecified : Prop :=
  State.reset.phase = .idle ∧ State.reset.csN = true ∧ State.reset.lastLogTs = 0 ∧
    State.reset.ports = Ports.quiet ∧ State.reset.busy = false ∧ State.reset.busLock = false ∧
    State.reset.reqReady = true

/-- R158, R34: a step with `rst_n = 0`, from any state, drops the request without a response or an event and leaves the
reset values; what is offered stays offered, and `req_ready` is 0. That a software frame at the head of the offers waits too
(log 24), and that no status or time of the scripts is used up (log 6), is the model's choice. -/
def Obligations.ResetFromAnyState : Prop :=
  ∀ s : State, s.env.tick.pins.rstN = false →
    ∃ t, step s = .next t ∧ t.phase = .idle ∧ t.csN = true ∧ t.lastLogTs = 0 ∧ t.ports = Ports.quiet ∧
      t.trace = s.trace ∧ t.swTrace = s.swTrace ∧ t.reqReady = false ∧ t.busy = false ∧
      t.env.offers = s.env.offers ∧ t.env.statuses = s.env.statuses ∧ t.env.nows = s.env.nows

/-- R159: the block's reset does not reset the chip. Between transactions nothing of it changes; inside one, only the page
of the Page Program that was cut off may. -/
def Obligations.ResetSparesTheChip : Prop :=
  ∀ s t : State, s.Inv → s.env.tick.pins.rstN = false → step s = .next t →
    (s.csN = true → t.chip = s.chip) ∧
      t.chip.frame = none ∧ t.chip.prot = s.chip.prot ∧
      ((∀ q, s.phase ≠ .busy (.chunkPp q)) → t.chip.flash = s.chip.flash ∧ t.chip.wip = s.chip.wip) ∧
      (∀ b, pageIndex b ≠ pageIndex s.curAddr → t.chip.flash.read b = s.chip.flash.read b)

/-! ### Encoding and the step -/

/-- R64, R71, R77 and the vectors L2-D1 to L2-D11: words written out from the spec's encodings. -/
def Obligations.TableWordsDecode : Prop :=
  decodeFrame [0x06] = .ok .wren ∧
    decodeFrame [0x05, 0x00] = .ok (.rdsr 0x00) ∧
    decodeFrame [0x02, 0x00, 0x01, 0x2C, 0xDE, 0xAD] = .ok (.pp 0x00012C [0xDE, 0xAD]) ∧
    decodeFrame [0x01, 0x9C] = .ok (.wrsr 0x9C) ∧
    decodeFrame [0x03, 0x12, 0x34, 0x56, 0x00] = .ok (.read 0x123456 [0x00]) ∧
    decodeFrame [0x20, 0x01, 0x00, 0x00] = .ok (.se 0x010000) ∧
    decodeFrame [0xC7] = .ok .ce ∧
    decodeFrame [0x9F, 0x00, 0x00, 0x00] = .ok (.rdid 0x00 0x00 0x00) ∧
    decodeRequest 0x1000012C00000190 = .write 0x00012C 400 ∧
    decodeRequest 0x10FFFFF000000020 = .write 0xFFFFF0 32 ∧
    decodeRequest 0x20FFFFFFFFFFFFFF = .waitReady 0xFFFFFF 0xFFFFFFFF ∧
    decodeRequest 0x3000000000000000 = .readStatus 0 0 ∧
    decodeRequest 0x4000000000000000 = .writeEnable 0 0 ∧
    decodeRequest 0x0000000000000000 = .reservedRequest 0x0 0x0 0 0 ∧
    decodeRequest 0x5000000000000000 = .reservedRequest 0x5 0x0 0 0 ∧
    decodeRequest 0xF000000000000000 = .reservedRequest 0xF 0x0 0 0 ∧
    decodeRequest 0x1100000000000001 = .reservedRequest 0x1 0x1 0 1 ∧
    decodeRequest 0x2800000000000000 = .reservedRequest 0x2 0x8 0 0

/-- Decoding an encoded well-formed instruction gives it back, every operand at every value. -/
def Obligations.DecodeOfEncode : Prop :=
  ∀ i : Instr, i.wellFormed = true → decode (encode i) = .ok i

/-- Every code has one meaning: what decodes encodes to itself, and it is well-formed but for a Page Program longer than
R67's 256 data bytes (log 22). -/
def Obligations.EncodeOfDecode : Prop :=
  ∀ (c : Code) (i : Instr), decode c = .ok i →
    encode i = c ∧ (i.wellFormed = true ∨ ∃ a ds, i = .pp a ds ∧ 256 < ds.length)

/-- R77, R78: which request words are answered as bad, for every 64-bit word. -/
def Obligations.RequestWordClasses : Prop :=
  ∀ w : RequestWord,
    ((wordRsv w ≠ 0 ∨ wordOp w ∉ [0x1, 0x2, 0x3, 0x4]) →
        decodeRequest w = .reservedRequest (wordOp w) (wordRsv w) (wordAddr w) (wordLen w)) ∧
      (wordRsv w = 0 → wordOp w = 0x1 → decodeRequest w = .write (wordAddr w) (wordLen w)) ∧
      (wordRsv w = 0 → wordOp w = 0x2 → decodeRequest w = .waitReady (wordAddr w) (wordLen w)) ∧
      (wordRsv w = 0 → wordOp w = 0x3 → decodeRequest w = .readStatus (wordAddr w) (wordLen w)) ∧
      (wordRsv w = 0 → wordOp w = 0x4 → decodeRequest w = .writeEnable (wordAddr w) (wordLen w))

/-- A step of an idle machine takes its first offer and runs exactly the instruction it decodes to, after the step's pins
are sampled and the strobes fall back; with no offer nothing happens (R34, R77, R155). One ordered list of requests and
frames (log 14, 15), and the refusal of an offer that is no frame, which R69 leaves open (log 23), are the model's choice. -/
def Obligations.StepRunsTheOfferedInstruction : Prop :=
  ∀ s : State, s.env.tick.pins.rstN = true → s.phase = .idle →
    (∀ c rest i, s.env.offers = c :: rest → decode c = .ok i →
        step s = exec i (s.tick.setOffers rest)) ∧
      (∀ c rest r, s.env.offers = c :: rest → decode c = .error r → step s = .refused (.notAFrame r)) ∧
      (s.env.offers = [] → step s = .next s.tick)

/-- R34: the handshake. An idle block takes the offered word whole, sets `op` from it and `sr_latch` to 0x00, and enters
its procedure or, for a bad word, answers at once; a busy block, and one in reset, leaves what is offered offered. -/
def Obligations.RequestHandshake : Prop :=
  ∀ (s : State) (w : RequestWord) (rest : List Code), s.env.offers = .request w :: rest →
    (s.env.tick.pins.rstN = true → s.phase = .idle →
        ∃ t, step s = .next t ∧ t.op = wordOp w ∧ t.srLatch = 0x00 ∧ t.env.offers = rest ∧
          (t.phase = .idle ↔ isReserved (wordOp w) (wordRsv w) = true)) ∧
      (∀ t, (s.env.tick.pins.rstN = false ∨ s.phase ≠ .idle) → step s = .next t →
        t.env.offers = s.env.offers)

/-- R76: two words that differ only below bit 56 are the same WAIT_READY, READ_STATUS or WRITE_ENABLE: the step from them
is the same. -/
def Obligations.IgnoredFieldsHaveNoEffect : Prop :=
  ∀ (s : State) (w w' : RequestWord) (rest : List Code),
    w.extractLsb' 56 8 = w'.extractLsb' 56 8 → wordOp w ∈ [0x2, 0x3, 0x4] → wordRsv w = 0 → s.phase = .idle →
      s.env.tick.pins.rstN = true →
      step (s.setOffers (.request w :: rest)) = step (s.setOffers (.request w' :: rest))

/-! ### Requests are taken: completion and frame of each -/

/-- R108: WRITE's first step. With nothing to write the response is due (R115); else the first chunk's length is computed
(R109) and its Write Enable comes next. No event; and nothing else changes but the buffer presented. -/
def Obligations.WriteIsTaken : Prop :=
  ∀ (s : State) (a : FlashAddr) (len : Count), s.reqReady = true →
    ∃ t, exec (.write a len) s = .next t ∧
      t.op = 0x1 ∧ t.srLatch = 0x00 ∧ t.curAddr = a ∧ t.bufOff = 0 ∧ t.remaining = len ∧
      (len = 0 → t.phase = .busy .respondOk ∧ t.chunkLen = s.chunkLen) ∧
      (len ≠ 0 → t.phase = .busy (.chunkWren .cs0) ∧
        t.chunkLen.toNat = min len.toNat (256 - (pageOffset a).toNat)) ∧
      t.lastLogTs = s.lastLogTs ∧ t.csN = s.csN ∧ t.ports = s.ports ∧ t.trace = s.trace ∧
      t.swTrace = s.swTrace ∧ t.chip = s.chip ∧ t.env = { s.env with buf := t.env.buf, bufs := t.env.bufs } ∧
      t.draws = s.draws ∧ t.params = s.params

/-- R34 with R95, R96, R103: the other three requests are taken, each at the first event of its procedure: a poll, a
poll, a Write Enable. Only `op`, `sr_latch` and `phase` are written. -/
def Obligations.PollRequestsAreTaken : Prop :=
  ∀ (s : State) (a : FlashAddr) (len : Count), s.reqReady = true →
    exec (.waitReady a len) s =
        .next { s with op := 0x2, srLatch := 0x00, phase := .busy (.waitReady (.poll .cs0)) } ∧
      exec (.readStatus a len) s = .next { s with op := 0x3, srLatch := 0x00, phase := .busy (.readStatus .cs0) } ∧
      exec (.writeEnable a len) s = .next { s with op := 0x4, srLatch := 0x00, phase := .busy (.enableWren .cs0) }

/-- R140: a bad word is answered in the decode step, `RESPOND(ERR_BAD_OP, 0x00)`, with no other event, and no register
but `op` and `sr_latch` changes. -/
def Obligations.BadWordIsAnswered : Prop :=
  ∀ (s : State) (op rsv : Nibble) (a : FlashAddr) (len : Count),
    s.reqReady = true → isReserved op rsv = true →
    ∃ t, exec (.reservedRequest op rsv a len) s = .next t ∧
      t.trace = s.trace ++ [.respond .errBadOp 0x00] ∧ t.ports = { s.ports with rsp := some (.errBadOp, 0x00) } ∧
      t.op = op ∧ t.srLatch = 0x00 ∧ t.phase = .idle ∧ SameChunk s t ∧ t.lastLogTs = s.lastLogTs ∧
      t.csN = s.csN ∧ t.swTrace = s.swTrace ∧ t.chip = s.chip ∧ t.env = s.env ∧ t.draws = s.draws ∧
      t.params = s.params

/-- R34: a request offered while `req_ready = 0` is not taken: nothing changes. -/
def Obligations.RequestWaitsUntilReady : Prop :=
  ∀ (s : State) (a : FlashAddr) (len : Count) (op rsv : Nibble), s.reqReady = false →
    exec (.write a len) s = .next s ∧ exec (.waitReady a len) s = .next s ∧ exec (.readStatus a len) s = .next s ∧
      exec (.writeEnable a len) s = .next s ∧ exec (.reservedRequest op rsv a len) s = .next s

/-! ### READ_SR and GATE -/

/-- R85: READ_SR, at each place that calls it, makes exactly four events, puts the status byte in `sr_latch` and changes
no other register, nor a byte of the flash (R86), before the caller goes on. -/
def Obligations.ReadSrMakesFourEvents : Prop :=
  ∀ (s : State) (at' : SrPoint → Point) (v : Byte) (vs : List Byte),
    (at' = .readStatus ∨ ∃ g : GateSite, at' = fun q => g.point (.poll q)) →
    s.calm → s.phase = .busy (at' .cs0) → s.env.statuses = v :: vs →
    ∃ t rx, Reaches 3 s t ∧ t.phase = .busy (at' (.cs1 v)) ∧
      t.trace = s.trace ++ [.cs false, .xfer opRdsr rx, .xfer s.params.dummyTx v] ∧
      t.srLatch = s.srLatch ∧ t.env.statuses = vs ∧ t.csN = false ∧
      ∃ u, step t = .next u ∧ u.trace = t.trace ++ [.cs true] ∧ u.srLatch = v ∧ u.csN = true ∧
        u.env.statuses = vs ∧ u.lastLogTs = s.lastLogTs ∧ u.op = s.op ∧ u.chip.flash = s.chip.flash ∧
        (at' = (fun q => GateSite.chunk3.point (.poll q)) ∨ SameChunk s u)

/-- R88, R90: GATE ends exactly at a poll with bit 0 clear, right after that poll's `CS(1)`, and at no other event. -/
def Obligations.GateEndsExactlyWhenReady : Prop :=
  ∀ (s : State) (g : GateSite) (q : GatePoint), s.calm → s.phase = .busy (g.point q) →
    ∃ t, step s = .next t ∧
      ((∃ v : Byte, q = .poll (.cs1 v) ∧ v.getLsbD 0 = false ∧ t = g.after { csHigh s.tick with srLatch := v }) ∨
        ((∀ v : Byte, q = .poll (.cs1 v) → v.getLsbD 0 = true) ∧ ∃ q', t.phase = .busy (g.point q')))

/-- R89: GATE on an idle chip makes exactly one READ_SR, four events, and returns. -/
def Obligations.GateOnIdleChipPollsOnce : Prop :=
  ∀ (s : State) (g : GateSite) (v : Byte) (vs : List Byte), s.calm → s.phase = .busy (g.point GatePoint.start) →
    s.env.statuses = v :: vs → isBusyStatus v = false →
    ∃ t, Reaches 4 s t ∧ t.phase = (g.after { s with srLatch := v }).phase ∧
      t.trace.map Event.outline = s.trace.map Event.outline ++ pollEvents s.params.dummyTx ∧
      t.srLatch = v ∧ t.env.statuses = vs ∧ t.lastLogTs = s.lastLogTs

/-- R91, R92: after a busy poll one time sample; if it lies more than LOG_INTERVAL after the last log, modulo 2^32, the
status just read is logged and the same sample becomes `last_log_ts`; then the next poll. -/
def Obligations.BusyPollSamplesTimeAndLogs : Prop :=
  ∀ (s : State) (g : GateSite) (v : Byte) (τ : Time) (τs : List Time), s.calm →
    s.phase = .busy (g.point (.poll (.cs1 v))) → isBusyStatus v = true → s.env.nows = τ :: τs →
    (s.params.logInterval < (τ - s.lastLogTs).toNat →
        ∃ t, Reaches 3 s t ∧ t.trace = s.trace ++ [.cs true, .now τ, .log v] ∧ t.lastLogTs = τ ∧
          t.ports.log = some v ∧ t.phase = .busy (g.point GatePoint.start) ∧ t.srLatch = v ∧ t.env.nows = τs) ∧
      (¬ s.params.logInterval < (τ - s.lastLogTs).toNat →
        ∃ t, Reaches 2 s t ∧ t.trace = s.trace ++ [.cs true, .now τ] ∧ t.lastLogTs = s.lastLogTs ∧
          t.phase = .busy (g.point GatePoint.start) ∧ t.srLatch = v ∧ t.env.nows = τs)

/-- R91, R28: the time is sampled only past a busy poll, and `last_log_ts` changes only at a log or a reset. -/
def Obligations.TimeIsReadOnlyInTheGate : Prop :=
  ∀ s t : State, step s = .next t →
    (∀ τ, t.trace = s.trace ++ [.now τ] → ∃ g : GateSite, s.phase = .busy (g.point .now)) ∧
      (t.lastLogTs ≠ s.lastLogTs →
        (s.env.tick.pins.rstN = false ∧ t.lastLogTs = 0) ∨
          ∃ (g : GateSite) (τ : Time), s.phase = .busy (g.point (.log τ)) ∧ t.lastLogTs = τ ∧
            t.trace = s.trace ++ [.log s.srLatch])

/-- R93: from the same point, with other times and another `last_log_ts`, a gate that ends sends the same bus events and
leaves the same registers, chip and inputs; only the NOW and LOG events and `last_log_ts` differ. Both runs take their times
from the script (log 6). -/
def Obligations.LogHasNoEffectOnTheProtocol : Prop :=
  ∀ (s s' : State) (g : GateSite) (bs : List Byte) (v : Byte) (rest : List Byte) (last : Time) (times : List Time),
    s.calm → s.phase = .busy (g.point GatePoint.start) →
    s' = s.setTimes last times →
    s.env.statuses = bs ++ v :: rest → (∀ b ∈ bs, isBusyStatus b = true) → isBusyStatus v = false →
    bs.length ≤ s.env.nows.length → bs.length ≤ times.length →
    ∃ n n' t t', Reaches n s t ∧ Reaches n' s' t' ∧ t.phase = (g.after { s with srLatch := v }).phase ∧
      busEvents t.trace = busEvents t'.trace ∧
      t' = { t.setTimes t'.lastLogTs t'.env.nows with trace := t'.trace }

/-- R98: while the chip answers busy, a gate does not end: every state of the run is still in it. -/
def Obligations.GateHangsWhileBusy : Prop :=
  ∀ (s : State) (g : GateSite) (n : Nat), s.calm → s.phase = .busy (g.point GatePoint.start) →
    n ≤ 5 * s.env.statuses.length → (∀ b ∈ s.env.statuses, isBusyStatus b = true) →
    ∃ t q, Reaches n s t ∧ t.phase = .busy (g.point q)

/-- R95: READ_STATUS, whole: taken, one Read Status, and the response with the byte read, busy or not. -/
def Obligations.ReadStatusRunsToItsResponse : Prop :=
  ∀ (s : State) (a : FlashAddr) (len : Count) (v : Byte) (vs : List Byte), s.calm →
    s.offersRequest (.readStatus a len) → s.env.statuses = v :: vs →
    ∃ t rx, Reaches 6 s t ∧ t.phase = .idle ∧
      t.trace = s.trace ++
        [.cs false, .xfer 0x05 rx, .xfer s.params.dummyTx v, .cs true, .respond .ok v] ∧
      t.ports.rsp = some (.ok, v) ∧ t.srLatch = v ∧ t.csN = true ∧ SameChunk s t ∧ t.lastLogTs = s.lastLogTs ∧
      t.env.statuses = vs ∧ t.chip.flash = s.chip.flash

/-- R96: WAIT_READY, whole: it answers at the first poll with bit 0 clear, not one poll early, with that status. However
many polls it makes, the chip ends as after the one that answers ready (R86): the command that was executing has completed
and cleared the latch (R40, R59), and else nothing has changed (log 8). -/
def Obligations.WaitReadyRunsToItsResponse : Prop :=
  ∀ (s : State) (a : FlashAddr) (len : Count) (bs : List Byte) (v : Byte) (rest : List Byte), s.calm →
    s.offersRequest (.waitReady a len) → s.env.statuses = bs ++ v :: rest →
    (∀ b ∈ bs, isBusyStatus b = true) → isBusyStatus v = false →
    ∃ n t es, Reaches n s t ∧ t.phase = .idle ∧ t.trace = s.trace ++ es ++ [.respond .ok v] ∧
      es.count (.cs false) = bs.length + 1 ∧ es.count (.cs true) = bs.length + 1 ∧
      t.ports.rsp = some (.ok, v) ∧ t.srLatch = v ∧ t.csN = true ∧ SameChunk s t ∧
      t.env.statuses = rest ∧ t.chip = { { s.chip with told := some false }.settle with frame := none } ∧
      t.chip.wip = false ∧ t.chip.flash = s.chip.flash ∧ (s.chip.wip = false → t.chip.wel = s.chip.wel) ∧
      (s.chip.wip = true → s.chip.wel ≠ .unknown → t.chip.wel = .clear)

/-! ### Write Enable -/

/-- R100: WREN_TXN, at each place that calls it, makes exactly three events and writes no register; the gate of
WRITE_ENABLE_SEQ comes next (R101), and the latch of a chip known to be idle (log 8) is set (R40). -/
def Obligations.WriteEnableTransaction : Prop :=
  ∀ (s : State) (g : WrenSite), s.calm → s.phase = .busy (g.point .cs0) →
    ∃ t rx, Reaches 3 s t ∧ t.trace = s.trace ++ [.cs false, .xfer 0x06 rx, .cs true] ∧
      t.phase = .busy g.gate ∧ t.csN = true ∧ SameChunk s t ∧ t.op = s.op ∧ t.srLatch = s.srLatch ∧
      t.lastLogTs = s.lastLogTs ∧ t.chip.flash = s.chip.flash ∧ (s.chip.busy = false → t.chip.wel = .set)

/-- R103: WRITE_ENABLE, whole, on a chip that answers ready; the latch of one known to be idle (log 8) is set. -/
def Obligations.WriteEnableRunsToItsResponse : Prop :=
  ∀ (s : State) (a : FlashAddr) (len : Count) (v : Byte) (vs : List Byte), s.calm →
    s.offersRequest (.writeEnable a len) → s.env.statuses = v :: vs → isBusyStatus v = false →
    ∃ t, Reaches 9 s t ∧ t.phase = .idle ∧
      t.trace.map Event.outline =
        s.trace.map Event.outline ++ wrenEvents ++ pollEvents s.params.dummyTx ++ [.respond .ok v] ∧
      t.ports.rsp = some (.ok, v) ∧ t.srLatch = v ∧ t.env.statuses = vs ∧ t.chip.flash = s.chip.flash ∧
      (s.chip.busy = false → t.chip.wel = .set)

/-! ### The page-write splitter -/

/-- R109: `room` is in 1..256, and at the head of the chunk loop, with something left, the chunk length becomes the unsigned
minimum of it and what remains: at least 1, and never past the page's end. -/
def Obligations.ChunkLengthRule : Prop :=
  (∀ a : FlashAddr, (room a).toNat = 256 - a.toNat % 256 ∧ 1 ≤ (room a).toNat ∧ (room a).toNat ≤ 256) ∧
    ∀ s : State, s.remaining ≠ 0 →
      (chunkHead s).chunkLen.toNat = min s.remaining.toNat (256 - s.curAddr.toNat % 256) ∧
        1 ≤ (chunkHead s).chunkLen.toNat ∧ chunkFits s.curAddr (chunkHead s).chunkLen = true ∧
        (chunkHead s).phase = .busy (.chunkWren .cs0)

/-- R111: PP_TXN, whole, for every start address, offset and length the assertion admits: opcode, address most
significant byte first, then each buffer byte read and sent in ascending order, one byte more with
LEGACY_INCLUSIVE_XFER (R113), then `CS(1)`; no register written. -/
def Obligations.PageProgramTransaction : Prop :=
  ∀ s : State, s.calm → s.phase = .busy (.chunkPp .cs0) → chunkFits s.curAddr s.chunkLen = true →
    ∃ t ds, Reaches (6 + 2 * ds.length) s t ∧
      ds.length = s.chunkLen.toNat + (if s.params.legacyXfer then 1 else 0) ∧
      (∀ j v, j < ds.length → s.bufByte? (s.bufOff + BitVec.ofNat 32 j) = some v → ds[j]? = some v) ∧
      t.trace.map Event.outline = s.trace.map Event.outline ++ ppEvents s.curAddr s.bufOff ds ∧
      t.phase = .busy (.chunkGate3 GatePoint.start) ∧ SameChunk s t ∧ t.srLatch = s.srLatch ∧ t.op = s.op ∧
      t.lastLogTs = s.lastLogTs ∧ t.csN = true

/-- R56, R57: what the chip does with the frame PP_TXN sends is its reaction to a Page Program at `cur_addr` of exactly the
data bytes sent. It rests on the model's chip (log 8, 9). -/
def Obligations.PageProgramReachesTheChip : Prop :=
  ∀ s : State, s.calm → s.phase = .busy (.chunkPp .cs0) → chunkFits s.curAddr s.chunkLen = true →
    ∃ t ds u, Reaches (6 + 2 * ds.length) s t ∧
      t.trace.map Event.outline = s.trace.map Event.outline ++ ppEvents s.curAddr s.bufOff ds ∧
      u.chip = { s.chip.settle with frame := u.chip.frame } ∧ u.params = s.params ∧
      t.chip = (reactProgram s.curAddr ds u).chip.deselect

/-- R114, R115: the advance after a chunk's third gate, the sum `buf_off + remaining` kept, and the loop's test. -/
def Obligations.ChunkAdvance : Prop :=
  ∀ (s : State) (v : Byte), s.calm → s.phase = .busy (.chunkGate3 (.poll (.cs1 v))) → isBusyStatus v = false →
    chunkOk s →
    ∃ t, step s = .next t ∧
      t.curAddr.toNat = (s.curAddr.toNat + s.chunkLen.toNat) % 2 ^ 24 ∧
      t.bufOff.toNat = s.bufOff.toNat + s.chunkLen.toNat ∧
      t.remaining.toNat = s.remaining.toNat - s.chunkLen.toNat ∧
      t.bufOff.toNat + t.remaining.toNat = s.bufOff.toNat + s.remaining.toNat ∧
      t.remaining.toNat < s.remaining.toNat ∧
      (t.remaining = 0 → t.phase = .busy .respondOk ∧ t.srLatch = v) ∧
      (t.remaining ≠ 0 → t.phase = .busy (.chunkWren .cs0) ∧ pageOffset t.curAddr = 0 ∧ chunkOk t)

/-- R116: a WRITE of length 0: taken, and `RESPOND(OK, 0x00)`; no other event. -/
def Obligations.ZeroLengthWrite : Prop :=
  ∀ (s : State) (a : FlashAddr), s.calm → s.offersRequest (.write a 0) →
    ∃ t, Reaches 2 s t ∧ t.phase = .idle ∧ t.trace = s.trace ++ [.respond .ok 0x00] ∧
      t.ports.rsp = some (.ok, 0x00) ∧ t.chip = s.chip ∧ t.csN = s.csN ∧ t.lastLogTs = s.lastLogTs

/-- R110: a chunk, whole, on a chip that answers ready: Write Enable, gate, gate, Page Program, gate, and `21 + 2n`
events (R127) for the `n` data bytes sent, the extra one of R113 counted. -/
def Obligations.ChunkSequence : Prop :=
  ∀ (s : State) (v1 v2 v3 : Byte) (rest : List Byte), s.calm → s.phase = .busy (.chunkWren .cs0) → chunkOk s →
    s.env.statuses = v1 :: v2 :: v3 :: rest → isBusyStatus v1 = false → isBusyStatus v2 = false →
    isBusyStatus v3 = false →
    ∃ t ds, Reaches (21 + 2 * ds.length) s t ∧
      ds.length = s.chunkLen.toNat + (if s.params.legacyXfer then 1 else 0) ∧
      t.trace.map Event.outline = s.trace.map Event.outline ++ wrenEvents ++ pollEvents s.params.dummyTx ++
        pollEvents s.params.dummyTx ++ ppEvents s.curAddr s.bufOff ds ++ pollEvents s.params.dummyTx ∧
      t.env.statuses = rest ∧ t.srLatch = v3 ∧ t.lastLogTs = s.lastLogTs ∧
      t.curAddr = s.curAddr + s.chunkLen.setWidth 24 ∧
      (t.phase = .busy .respondOk ∨ t.phase = .busy (.chunkWren .cs0))

/-- R118: the chunks of a WRITE are those of the closed form, in order, and there is no other: chunk `k`'s Page Program
begins after exactly the events of the chunks before it, with the address, offset and length of the table, and after `N`
chunks the response is due; at no other step of the run does a Page Program begin. The chip answers ready; a chunk has two
events more with LEGACY_INCLUSIVE_XFER (R113). -/
def Obligations.ChunkListInClosedForm : Prop :=
  ∀ (s : State) (a : FlashAddr) (len : Count) (rest : List Byte) (extra : Nat), s.calm →
    s.offersRequest (.write a len) → len ≠ 0 → extra = (if s.params.legacyXfer then 1 else 0) →
    s.readyFor (3 * chunkCount a len) rest →
    (∀ k, k < chunkCount a len →
        ∃ t, Reaches (1 + (21 + 2 * extra) * k + 2 * chunkOff a len k + 11) s t ∧ t.phase = .busy (.chunkPp .cs0) ∧
          t.curAddr = chunkAddr a k ∧ t.bufOff.toNat = chunkOff a len k ∧ t.chunkLen.toNat = chunkSize a len k) ∧
      (∃ t, Reaches (1 + (21 + 2 * extra) * chunkCount a len + 2 * len.toNat) s t ∧ t.phase = .busy .respondOk) ∧
      ∀ n t, n ≤ 1 + (21 + 2 * extra) * chunkCount a len + 2 * len.toNat → Reaches n s t →
        t.phase = .busy (.chunkPp .cs0) →
        ∃ k, k < chunkCount a len ∧ n = 1 + (21 + 2 * extra) * k + 2 * chunkOff a len k + 11

/-- R127, R122: a WRITE, whole, on a chip that answers ready: `21 N + 2 L` events before its response, every buffer index
of 0..L-1 read exactly once and in order, `OK` with the last status, and the registers where they end. With
LEGACY_INCLUSIVE_XFER each chunk has two events more (R113), and the last one goes on past index L with a free byte, which is
the model's choice (log 16). -/
def Obligations.WriteRunsToItsResponse : Prop :=
  ∀ (s : State) (a : FlashAddr) (len : Count) (rest : List Byte) (extra : Nat), s.calm →
    s.offersRequest (.write a len) → len ≠ 0 → extra = (if s.params.legacyXfer then 1 else 0) →
    s.readyFor (3 * chunkCount a len) rest →
    ∃ t es v, Reaches (2 + (21 + 2 * extra) * chunkCount a len + 2 * len.toNat) s t ∧ t.phase = .idle ∧
      t.trace = s.trace ++ es ++ [.respond .ok v] ∧
      es.length = (21 + 2 * extra) * chunkCount a len + 2 * len.toNat ∧
      (s.params.legacyXfer = false → bufIndices es = List.range len.toNat) ∧ isBusyStatus v = false ∧
      t.ports.rsp = some (.ok, v) ∧ t.curAddr = a + len.setWidth 24 ∧ t.bufOff = len ∧ t.remaining = 0 ∧
      t.env.statuses = rest ∧ t.lastLogTs = s.lastLogTs ∧ t.csN = true

/-- The round trip (spec/95_test_vectors.md L1-4 under R56): written to an erased region of an idle chip that answers
ready, byte `i` of this WRITE's own buffer reads back at `A + i`, and every other flash byte is as before, for whatever
buffers the WRITEs after it have. It rests on the model's chip (log 7, 8, 9, 30) and inputs (log 16). -/
def Obligations.WriteRoundTrip : Prop :=
  ∀ (s : State) (a : FlashAddr) (len : Count) (rest : List Byte) (buf : List (Option Byte))
      (bufs : List (List (Option Byte))), s.calm → s.offersRequest (.write a len) → s.env.bufs = buf :: bufs →
    s.params.legacyXfer = false → s.readyFor (3 * chunkCount a len) rest → s.chipIdle → s.chip.flash.wf = true →
    a.toNat + len.toNat ≤ flashSize → a.toNat + len.toNat ≤ s.params.capacity →
    (∀ i, i < len.toNat → ∃ v, buf[i]? = some (some v)) →
    (∀ i, i < len.toNat → s.chip.flash.read (a + BitVec.ofNat 24 i) = erasedByte) →
    ∃ n t v, Reaches n s t ∧ t.phase = .idle ∧ t.ports.rsp = some (.ok, v) ∧
      t.env.bufs = bufs ∧
      (∀ i, i < len.toNat → buf[i]? = some (some (t.chip.flash.read (a + BitVec.ofNat 24 i)))) ∧
      (∀ b : FlashAddr, (b.toNat < a.toNat ∨ a.toNat + len.toNat ≤ b.toNat) →
        t.chip.flash.read b = s.chip.flash.read b)

/-! ### Faults -/

/-- R147: where the assertion of PP_TXN fails the step is the fault, whatever the abort, and no value results. -/
def Obligations.BoundaryViolationIsAFault : Prop :=
  ∀ s : State, s.env.tick.pins.rstN = true → s.phase = .busy (.chunkPp .cs0) →
    chunkFits s.curAddr s.chunkLen = false → step s = .fault .boundaryViolation

/-- R121: in every state of the invariant inside a Page Program `1 <= chunk_len` and `cur_addr[7:0] + chunk_len <= 256`, and
no step faults. On a conforming block the data bytes it sends are as many and stay in the page; with LEGACY_INCLUSIVE_XFER
they are one more (R113 c). -/
def Obligations.NoPageProgramCrossesAPage : Prop :=
  ∀ s : State, s.Inv →
    (∀ q, s.phase = .busy (.chunkPp q) →
        1 ≤ s.chunkLen.toNat ∧ (pageOffset s.curAddr).toNat + s.chunkLen.toNat ≤ 256 ∧
          (s.params.legacyXfer = false → 1 ≤ dataCount s.params s.chunkLen ∧
            (pageOffset s.curAddr).toNat + dataCount s.params s.chunkLen ≤ 256) ∧
          (s.params.legacyXfer = true → dataCount s.params s.chunkLen = s.chunkLen.toNat + 1)) ∧
      (∀ r, step s ≠ .fault r)

/-- R17, R98: a busy block always has a next step, whatever the chip, the buffer and the time give. -/
def Obligations.BusyBlockAlwaysSteps : Prop :=
  ∀ (s : State) (p : Point), s.Inv → s.phase = .busy p → ∃ t, step s = .next t

/-! ### Abort -/

/-- R141: before every event but RESPOND the abort is seen: with `cs_n = 1` the response ERR_ABORTED at once, else `CS(1)`
and then the response, checked by nothing; before RESPOND it is not. -/
def Obligations.AbortEndsTheRequest : Prop :=
  ∀ (s : State) (p : Point), s.abortAt → s.phase = .busy p →
    (p = .chunkPp .cs0 → chunkFits s.curAddr s.chunkLen = true) →
    (p = .respondOk → ∃ t, step s = .next t ∧ t.phase = .idle ∧ t.trace = s.trace ++ [.respond .ok s.srLatch]) ∧
      (p ≠ .respondOk → p ≠ .respondAborted → s.csN = true →
        ∃ t, step s = .next t ∧ t.phase = .idle ∧ t.csN = true ∧
          t.trace = s.trace ++ [.respond .errAborted s.srLatch] ∧ t.ports.rsp = some (.errAborted, s.srLatch) ∧
          t.srLatch = s.srLatch ∧ t.lastLogTs = s.lastLogTs ∧ t.chip = s.chip) ∧
      (p ≠ .respondOk → p ≠ .respondAborted → s.csN = false →
        ∃ t, step s = .next t ∧ t.phase = .busy .respondAborted ∧ t.csN = true ∧
          t.trace = s.trace ++ [.cs true] ∧ t.srLatch = s.srLatch ∧ t.lastLogTs = s.lastLogTs ∧
          (t.env.tick.pins.rstN = true →
            ∃ u, step t = .next u ∧ u.phase = .idle ∧ u.csN = true ∧
              u.trace = t.trace ++ [.respond .errAborted s.srLatch] ∧
              u.ports.rsp = some (.errAborted, s.srLatch) ∧ u.srLatch = s.srLatch ∧
              u.lastLogTs = s.lastLogTs ∧ u.chip = t.chip))

/-- R143: what an abort leaves in the flash: only the page of a Page Program being sent can change. -/
def Obligations.AbortSparesOtherPages : Prop :=
  ∀ (s t : State) (p : Point), s.Inv → s.abortAt → s.phase = .busy p → step s = .next t →
    ((∀ q, p ≠ .chunkPp q) → t.chip.flash = s.chip.flash) ∧
      (∀ b, pageIndex b ≠ pageIndex s.curAddr → t.chip.flash.read b = s.chip.flash.read b)

/-- R144: in IDLE the abort has no effect; held high when a request is taken it ends the request before its first event,
with 0x00, but for a WRITE of length 0 and a bad word, which respond as usual. A level of 1 that falls before the first
event's step is log 31. -/
def Obligations.AbortHeldAtAcceptance : Prop :=
  ∀ s : State, s.env.pins.rstN = true → s.env.pins.abort = true → s.env.plan = [] → s.phase = .idle → s.csN = true →
    (s.env.offers = [] → ∃ t, step s = .next t ∧ t.trace = s.trace ∧ t.phase = .idle ∧ t.chip = s.chip) ∧
      (∀ i, s.offersRequest i → (∀ a, i ≠ .write a 0) → (∀ o r a l, i ≠ .reservedRequest o r a l) →
        ∃ t, Reaches 2 s t ∧ t.phase = .idle ∧ t.trace = s.trace ++ [.respond .errAborted 0x00]) ∧
      (∀ a, s.offersRequest (.write a 0) →
        ∃ t, Reaches 2 s t ∧ t.phase = .idle ∧ t.trace = s.trace ++ [.respond .ok 0x00]) ∧
      (∀ o r a l, s.offersRequest (.reservedRequest o r a l) →
        ∃ t, step s = .next t ∧ t.phase = .idle ∧ t.trace = s.trace ++ [.respond .errBadOp 0x00])

/-- R145: a request whose last event is performed responds OK even if `abort` rises before its RESPOND; and reset comes
before both. -/
def Obligations.RespondIsNotChecked : Prop :=
  ∀ s : State, s.phase = .busy .respondOk →
    (s.env.tick.pins.rstN = true →
        ∃ t, step s = .next t ∧ t.trace = s.trace ++ [.respond .ok s.srLatch] ∧ t.phase = .idle) ∧
      (s.env.tick.pins.rstN = false → ∃ t, step s = .next t ∧ t.trace = s.trace ∧ t.phase = .idle)

/-! ### Rules about every step -/

/-- R43, R121, R94: every step keeps the invariant. -/
def Obligations.EveryStepKeepsTheInvariant : Prop :=
  ∀ s t : State, s.Inv → step s = .next t → t.Inv

/-- The invariant holds right after reset. -/
def Obligations.InvariantHoldsAtReset : Prop := State.reset.Inv

/-- R122(d), R43(d): every step of a WRITE's chunks keeps `buf_off + remaining`. -/
def Obligations.BufferBytesAreConserved : Prop :=
  ∀ (s t : State) (p : Point), s.Inv → s.phase = .busy p → p.inChunk = true → s.env.tick.pins.rstN = true →
    step s = .next t → t.bufOff.toNat + t.remaining.toNat = s.bufOff.toNat + s.remaining.toNat

/-- R29: only `CS(0)` and `CS(1)` write `cs_n`, each to its level, and reset sets it to 1. -/
def Obligations.OnlyCsEventsMoveChipSelect : Prop :=
  ∀ s t : State, step s = .next t → t.csN ≠ s.csN →
    t.trace = s.trace ++ [.cs t.csN] ∨ (s.env.tick.pins.rstN = false ∧ t.csN = true)

/-- R16, R32, R36 to R39: a step adds at most one event to the block's trace, and each strobe is 1 exactly in the step of
its event, with that event's data. -/
def Obligations.StrobesShowTheEvent : Prop :=
  ∀ s t : State, step s = .next t →
    (t.trace = s.trace ∨ ∃ e, t.trace = s.trace ++ [e]) ∧
      (∀ b, t.ports.xfer = some b ↔ ∃ rx, t.trace = s.trace ++ [.xfer b rx]) ∧
      (∀ i, t.ports.buf = some i ↔ ∃ v, t.trace = s.trace ++ [.bufRead i v]) ∧
      (∀ v, t.ports.log = some v ↔ t.trace = s.trace ++ [.log v]) ∧
      (∀ c v, t.ports.rsp = some (c, v) ↔ t.trace = s.trace ++ [.respond c v])

/-- R36, R81, R139: a response goes to IDLE in the same step and carries `sr_latch`; ERR_ABORTED comes only from an
abort, ERR_BAD_OP only from a bad word with 0x00, and OK only from a request that ran to its end. -/
def Obligations.ResponsesCarryTheStatus : Prop :=
  ∀ (s t : State) (c : RspCode) (v : Byte), step s = .next t → t.ports.rsp = some (c, v) →
    t.phase = .idle ∧ t.srLatch = v ∧
      (c = .ok → s.phase = .busy .respondOk ∧ v = s.srLatch) ∧
      (c = .errAborted → v = s.srLatch ∧ (s.phase = .busy .respondAborted ∨ (s.abortAt ∧ ∃ p, s.phase = .busy p))) ∧
      (c = .errBadOp → v = 0x00 ∧ s.phase = .idle ∧
        ∃ w rest, s.env.offers = .request w :: rest ∧ isReserved (wordOp w) (wordRsv w) = true)

/-- R131: the byte the block sends first in a frame is 0x06, 0x05 or 0x02. -/
def Obligations.BlockSendsThreeOpcodes : Prop :=
  ∀ (s t : State) (tx rx : Byte), s.Inv → step s = .next t → t.trace = s.trace ++ [.xfer tx rx] →
    s.chip.frame = some [] → tx = 0x06 ∨ tx = 0x05 ∨ tx = 0x02

/-- R19, R45, R50, R58: no step changes a parameter; no step changes a buffer, but the one that takes a WRITE presents that
WRITE's own (log 16); and no step takes back an event. -/
def Obligations.StepKeepsParametersAndBuffer : Prop :=
  ∀ s t : State, step s = .next t →
    t.params = s.params ∧ s.trace <+: t.trace ∧ s.swTrace <+: t.swTrace ∧
      ((∀ a len, s.offersRequest (.write a len) → s.env.tick.pins.rstN = true →
          t.env.buf = s.env.bufs.headD [] ∧ t.env.bufs = s.env.bufs.tail) ∧
        (((∀ a len, ¬ s.offersRequest (.write a len)) ∨ s.env.tick.pins.rstN = false) →
          t.env.buf = s.env.buf ∧ t.env.bufs = s.env.bufs))

/-! ### The flash -/

/-- A flash byte reads as last written and no other byte changes; a write keeps the canonical form. -/
def Obligations.FlashReadAfterWrite : Prop :=
  ∀ (m : Memory) (a b : FlashAddr) (v : Byte), m.wf = true →
    (m.write a v).wf = true ∧ (m.write a v).read b = if b = a then v else m.read b

/-- R56: an accepted Page Program, for any number of data bytes: each lands in the page of `a` with the offset wrapping
there, on an erased byte as itself and else by PROGRAM_COMBINE, the later byte's effect last; every other byte of the
array is as before. That a byte which reads as erased counts as erased is the model's choice (log 30). -/
def Obligations.PageProgramEffect : Prop :=
  ∀ (m : Memory) (a b : FlashAddr) (ds : List Byte), m.wf = true →
    (programBytes a 0 ds m).read b = (landing a b ds).foldl programByte (m.read b) ∧
      (∀ old new, programByte erasedByte new = new ∧ (old ≠ erasedByte → programByte old new = Config.programCombine old new)) ∧
      (∀ j, pageIndex (pageTarget a j) = pageIndex a ∧
        (pageOffset (pageTarget a j)).toNat = ((pageOffset a).toNat + j) % 256)

/-! ### Bus commands of the surrounding software: completion and frame of each -/

/-- R65 with R40: Write Enable on a free bus: one byte, the latch set (unknown while a command may be executing, I4), and
nothing else, once the chip has settled (log 8). -/
def Obligations.WrenCommand : Prop :=
  ∀ s : State, s.phase = .idle →
    ∃ t rx, exec .wren s = .next t ∧ t.swTrace = s.swTrace ++ frameEvents [(0x06, rx)] ∧
      t.chip = { s.chip.settle with wel := if s.chip.busy then .unknown else .set, frame := none } ∧ SameBlock s t ∧
      t.env = s.env

/-- R66, R86: Read Status on a free bus, whatever byte the chip answers, the scripted one or, with none scripted, any: it
comes back, and it changes nothing in the chip, not WIP, not WEL, not the array, but what is known of it (log 8). When it
answers ready, the command that was executing has completed and cleared the latch (R40, R59): the chip has settled. -/
def Obligations.RdsrCommand : Prop :=
  ∀ (s : State) (tx : Byte), s.phase = .idle →
    ∃ t rx v, exec (.rdsr tx) s = .next t ∧ t.swTrace = s.swTrace ++ frameEvents [(0x05, rx), (tx, v)] ∧
      (∀ v' vs, s.env.statuses = v' :: vs → v = v') ∧
      t.chip = { { s.chip with told := some (v.getLsbD 0) }.settle with frame := none } ∧ t.chip.flash = s.chip.flash ∧
      (v.getLsbD 0 = true → t.chip.wip = s.chip.wip ∧ t.chip.wel = s.chip.wel) ∧
      (v.getLsbD 0 = false → t.chip.wip = false ∧ (s.chip.wip = false → t.chip.wel = s.chip.wel) ∧
        (s.chip.wip = true → s.chip.wel ≠ .unknown → t.chip.wel = .clear)) ∧
      t.env = { s.env with statuses := s.env.statuses.tail } ∧ SameBlock s t

/-- R67 with R56, R57: Page Program on a free bus, for every number of data bytes a frame can carry. Accepted, it programs
exactly the addresses its bytes land on; else (WIP, WEL, capacity: I1, I3) only its page can change. The chip has settled
first (log 8). -/
def Obligations.PpCommand : Prop :=
  ∀ (s : State) (a : FlashAddr) (ds : List Byte), s.phase = .idle → ds ≠ [] → s.chip.flash.wf = true →
    ∃ t rxs, exec (.pp a ds) s = .next t ∧
      t.swTrace = s.swTrace ++ frameEvents ((addressedFrame opPp a ds).zip rxs) ∧ rxs.length = 4 + ds.length ∧
      t.chip.wip = true ∧ t.chip.prot = s.chip.prot ∧ t.chip.frame = none ∧
      (s.chip.settle.accepts = true → (∀ j, j < ds.length → (pageTarget a j).toNat < s.params.capacity) →
        t.chip.wel = s.chip.settle.wel ∧
          ∀ b, t.chip.flash.read b = (landing a b ds).foldl programByte (s.chip.flash.read b)) ∧
      (∀ b, pageIndex b ≠ pageIndex a → t.chip.flash.read b = s.chip.flash.read b) ∧
      t.chip.flash.wf = true ∧ t.env = s.env ∧ SameBlock s t

/-- R132: Write Status Register on a free bus: its value is the chip's to interpret; it executes, and no flash byte
changes. -/
def Obligations.WrsrCommand : Prop :=
  ∀ (s : State) (v : Byte), s.phase = .idle →
    ∃ t rx rx', exec (.wrsr v) s = .next t ∧ t.swTrace = s.swTrace ++ frameEvents [(0x01, rx), (v, rx')] ∧
      t.chip.prot = some v ∧ t.chip.wip = true ∧ t.chip.flash = s.chip.flash ∧ t.chip.frame = none ∧
      t.env = s.env ∧ SameBlock s t

/-- R133: Read on a free bus returns the flash bytes in ascending address order, below the capacity and while no command
executes (log 8); nothing of the chip, once settled, changes. -/
def Obligations.ReadCommand : Prop :=
  ∀ (s : State) (a : FlashAddr) (tx : List Byte), s.phase = .idle →
    ∃ t rxs ds, exec (.read a tx) s = .next t ∧ rxs.length = 4 ∧ ds.length = tx.length ∧
      t.swTrace = s.swTrace ++ frameEvents ((addressedFrame opRead a tx).zip (rxs ++ ds)) ∧
      (s.chip.busy = false →
        ∀ j, j < tx.length → a.toNat + j < s.params.capacity → a.toNat + j < flashSize →
          ds[j]? = some (s.chip.flash.read (a + BitVec.ofNat 24 j))) ∧
      t.chip = { s.chip.settle with frame := none } ∧ t.env = s.env ∧ SameBlock s t

/-- R134: Sector/Block Erase on a free bus. Accepted, it erases the block of the chip's granularity the address lies in,
and no byte outside; the granularity is the chip's (I21), and the block is aligned to it (R134, log 11); log 8 says
when the chip has settled. -/
def Obligations.SeCommand : Prop :=
  ∀ (s : State) (a : FlashAddr), s.phase = .idle → s.chip.flash.wf = true →
    ∃ t rxs, exec (.se a) s = .next t ∧ rxs.length = 4 ∧
      t.swTrace = s.swTrace ++ frameEvents ((addressedFrame opSe a []).zip rxs) ∧ t.chip.wip = true ∧
      (Config.eraseSpan + 1) ∣ eraseBase a ∧ eraseBase a ≤ a.toNat ∧ a.toNat < eraseBase a + (Config.eraseSpan + 1) ∧
      (s.chip.settle.accepts = true → a.toNat < s.params.capacity →
        t.chip.wel = s.chip.settle.wel ∧ t.chip.flash.read a = erasedByte ∧
          ∀ b : FlashAddr,
            (eraseBase a ≤ b.toNat ∧ b.toNat < eraseBase a + (Config.eraseSpan + 1) →
              t.chip.flash.read b = erasedByte) ∧
            (b.toNat < eraseBase a ∨ eraseBase a + (Config.eraseSpan + 1) ≤ b.toNat →
              t.chip.flash.read b = s.chip.flash.read b)) ∧
      t.chip.prot = s.chip.prot ∧ t.chip.frame = none ∧ t.chip.flash.wf = true ∧ t.env = s.env ∧ SameBlock s t

/-- R135: Chip Erase on a free bus. Accepted (log 8), every flash byte reads as erased (log 11). -/
def Obligations.CeCommand : Prop :=
  ∀ s : State, s.phase = .idle →
    ∃ t rx, exec .ce s = .next t ∧ t.swTrace = s.swTrace ++ frameEvents [(0xC7, rx)] ∧ t.chip.wip = true ∧
      (s.chip.settle.accepts = true → t.chip.wel = s.chip.settle.wel ∧ ∀ b, t.chip.flash.read b = erasedByte) ∧
      t.chip.prot = s.chip.prot ∧ t.chip.frame = none ∧ t.chip.flash.wf = true ∧ t.env = s.env ∧ SameBlock s t

/-- R136: Read Identification on a free bus: three bytes, the same for every run of one chip (log 13), and
nothing changes, once the chip has settled (log 8). -/
def Obligations.RdidCommand : Prop :=
  ∀ (s : State) (x y z : Byte), s.phase = .idle →
    ∃ t rx, exec (.rdid x y z) s = .next t ∧
      t.swTrace = s.swTrace ++
        frameEvents [(0x9F, rx), (x, Config.idByte 0), (y, Config.idByte 1), (z, Config.idByte 2)] ∧
      t.chip = { s.chip.settle with frame := none } ∧ t.env = s.env ∧ SameBlock s t

/-- R55, R131 (I13: refuse): a frame driven onto the bus while `bus_lock = 1` is refused, whichever it is; and a busy
block's step never takes one. -/
def Obligations.NoFrameWhileTheBusIsLocked : Prop :=
  ∀ (s : State) (i : Instr) (f : List Byte), s.phase ≠ .idle → encode i = .frame f →
    exec i s = .refused .busLocked ∧ (∀ t, step s = .next t → t.swTrace = s.swTrace) ∧
      (∀ r, step s ≠ .refused r)
end

