-- ==== Sys2Proof/Laws/State.lean ====
section
/-! SUPPORT. What each named update of State leaves in each field: one lemma a field and update, true by rfl, so that no
proof unfolds an update. -/

namespace Sys2Proof.Machine

/-! ### goto -/

@[simp] theorem State.goto_phase (s : State) (p : Point) : (s.goto p).phase = .busy p := rfl
@[simp] theorem State.goto_op (s : State) (p : Point) : (s.goto p).op = s.op := rfl
@[simp] theorem State.goto_curAddr (s : State) (p : Point) : (s.goto p).curAddr = s.curAddr := rfl
@[simp] theorem State.goto_bufOff (s : State) (p : Point) : (s.goto p).bufOff = s.bufOff := rfl
@[simp] theorem State.goto_remaining (s : State) (p : Point) : (s.goto p).remaining = s.remaining := rfl
@[simp] theorem State.goto_chunkLen (s : State) (p : Point) : (s.goto p).chunkLen = s.chunkLen := rfl
@[simp] theorem State.goto_srLatch (s : State) (p : Point) : (s.goto p).srLatch = s.srLatch := rfl
@[simp] theorem State.goto_lastLogTs (s : State) (p : Point) : (s.goto p).lastLogTs = s.lastLogTs := rfl
@[simp] theorem State.goto_csN (s : State) (p : Point) : (s.goto p).csN = s.csN := rfl
@[simp] theorem State.goto_ports (s : State) (p : Point) : (s.goto p).ports = s.ports := rfl
@[simp] theorem State.goto_trace (s : State) (p : Point) : (s.goto p).trace = s.trace := rfl
@[simp] theorem State.goto_swTrace (s : State) (p : Point) : (s.goto p).swTrace = s.swTrace := rfl
@[simp] theorem State.goto_chip (s : State) (p : Point) : (s.goto p).chip = s.chip := rfl
@[simp] theorem State.goto_env (s : State) (p : Point) : (s.goto p).env = s.env := rfl
@[simp] theorem State.goto_draws (s : State) (p : Point) : (s.goto p).draws = s.draws := rfl
@[simp] theorem State.goto_params (s : State) (p : Point) : (s.goto p).params = s.params := rfl

/-! ### emit -/

@[simp] theorem State.emit_phase (s : State) (e : Event) : (s.emit e).phase = s.phase := rfl
@[simp] theorem State.emit_op (s : State) (e : Event) : (s.emit e).op = s.op := rfl
@[simp] theorem State.emit_curAddr (s : State) (e : Event) : (s.emit e).curAddr = s.curAddr := rfl
@[simp] theorem State.emit_bufOff (s : State) (e : Event) : (s.emit e).bufOff = s.bufOff := rfl
@[simp] theorem State.emit_remaining (s : State) (e : Event) : (s.emit e).remaining = s.remaining := rfl
@[simp] theorem State.emit_chunkLen (s : State) (e : Event) : (s.emit e).chunkLen = s.chunkLen := rfl
@[simp] theorem State.emit_srLatch (s : State) (e : Event) : (s.emit e).srLatch = s.srLatch := rfl
@[simp] theorem State.emit_lastLogTs (s : State) (e : Event) : (s.emit e).lastLogTs = s.lastLogTs := rfl
@[simp] theorem State.emit_csN (s : State) (e : Event) : (s.emit e).csN = s.csN := rfl
@[simp] theorem State.emit_ports (s : State) (e : Event) : (s.emit e).ports = s.ports := rfl
@[simp] theorem State.emit_trace (s : State) (e : Event) : (s.emit e).trace = s.trace ++ [e] := rfl
@[simp] theorem State.emit_swTrace (s : State) (e : Event) : (s.emit e).swTrace = s.swTrace := rfl
@[simp] theorem State.emit_chip (s : State) (e : Event) : (s.emit e).chip = s.chip := rfl
@[simp] theorem State.emit_env (s : State) (e : Event) : (s.emit e).env = s.env := rfl
@[simp] theorem State.emit_draws (s : State) (e : Event) : (s.emit e).draws = s.draws := rfl
@[simp] theorem State.emit_params (s : State) (e : Event) : (s.emit e).params = s.params := rfl

/-! ### emitSw -/

@[simp] theorem State.emitSw_phase (s : State) (e : Event) : (s.emitSw e).phase = s.phase := rfl
@[simp] theorem State.emitSw_op (s : State) (e : Event) : (s.emitSw e).op = s.op := rfl
@[simp] theorem State.emitSw_curAddr (s : State) (e : Event) : (s.emitSw e).curAddr = s.curAddr := rfl
@[simp] theorem State.emitSw_bufOff (s : State) (e : Event) : (s.emitSw e).bufOff = s.bufOff := rfl
@[simp] theorem State.emitSw_remaining (s : State) (e : Event) : (s.emitSw e).remaining = s.remaining := rfl
@[simp] theorem State.emitSw_chunkLen (s : State) (e : Event) : (s.emitSw e).chunkLen = s.chunkLen := rfl
@[simp] theorem State.emitSw_srLatch (s : State) (e : Event) : (s.emitSw e).srLatch = s.srLatch := rfl
@[simp] theorem State.emitSw_lastLogTs (s : State) (e : Event) : (s.emitSw e).lastLogTs = s.lastLogTs := rfl
@[simp] theorem State.emitSw_csN (s : State) (e : Event) : (s.emitSw e).csN = s.csN := rfl
@[simp] theorem State.emitSw_ports (s : State) (e : Event) : (s.emitSw e).ports = s.ports := rfl
@[simp] theorem State.emitSw_trace (s : State) (e : Event) : (s.emitSw e).trace = s.trace := rfl
@[simp] theorem State.emitSw_swTrace (s : State) (e : Event) : (s.emitSw e).swTrace = s.swTrace ++ [e] := rfl
@[simp] theorem State.emitSw_chip (s : State) (e : Event) : (s.emitSw e).chip = s.chip := rfl
@[simp] theorem State.emitSw_env (s : State) (e : Event) : (s.emitSw e).env = s.env := rfl
@[simp] theorem State.emitSw_draws (s : State) (e : Event) : (s.emitSw e).draws = s.draws := rfl
@[simp] theorem State.emitSw_params (s : State) (e : Event) : (s.emitSw e).params = s.params := rfl

/-! ### tick -/

@[simp] theorem State.tick_phase (s : State) : (s.tick).phase = s.phase := rfl
@[simp] theorem State.tick_op (s : State) : (s.tick).op = s.op := rfl
@[simp] theorem State.tick_curAddr (s : State) : (s.tick).curAddr = s.curAddr := rfl
@[simp] theorem State.tick_bufOff (s : State) : (s.tick).bufOff = s.bufOff := rfl
@[simp] theorem State.tick_remaining (s : State) : (s.tick).remaining = s.remaining := rfl
@[simp] theorem State.tick_chunkLen (s : State) : (s.tick).chunkLen = s.chunkLen := rfl
@[simp] theorem State.tick_srLatch (s : State) : (s.tick).srLatch = s.srLatch := rfl
@[simp] theorem State.tick_lastLogTs (s : State) : (s.tick).lastLogTs = s.lastLogTs := rfl
@[simp] theorem State.tick_csN (s : State) : (s.tick).csN = s.csN := rfl
@[simp] theorem State.tick_ports (s : State) : (s.tick).ports = Ports.quiet := rfl
@[simp] theorem State.tick_trace (s : State) : (s.tick).trace = s.trace := rfl
@[simp] theorem State.tick_swTrace (s : State) : (s.tick).swTrace = s.swTrace := rfl
@[simp] theorem State.tick_chip (s : State) : (s.tick).chip = s.chip := rfl
@[simp] theorem State.tick_env (s : State) : (s.tick).env = s.env.tick := rfl
@[simp] theorem State.tick_draws (s : State) : (s.tick).draws = s.draws := rfl
@[simp] theorem State.tick_params (s : State) : (s.tick).params = s.params := rfl

/-! ### takeOffer -/

@[simp] theorem State.takeOffer_phase (s : State) : (s.takeOffer).phase = s.phase := rfl
@[simp] theorem State.takeOffer_op (s : State) : (s.takeOffer).op = s.op := rfl
@[simp] theorem State.takeOffer_curAddr (s : State) : (s.takeOffer).curAddr = s.curAddr := rfl
@[simp] theorem State.takeOffer_bufOff (s : State) : (s.takeOffer).bufOff = s.bufOff := rfl
@[simp] theorem State.takeOffer_remaining (s : State) : (s.takeOffer).remaining = s.remaining := rfl
@[simp] theorem State.takeOffer_chunkLen (s : State) : (s.takeOffer).chunkLen = s.chunkLen := rfl
@[simp] theorem State.takeOffer_srLatch (s : State) : (s.takeOffer).srLatch = s.srLatch := rfl
@[simp] theorem State.takeOffer_lastLogTs (s : State) : (s.takeOffer).lastLogTs = s.lastLogTs := rfl
@[simp] theorem State.takeOffer_csN (s : State) : (s.takeOffer).csN = s.csN := rfl
@[simp] theorem State.takeOffer_ports (s : State) : (s.takeOffer).ports = s.ports := rfl
@[simp] theorem State.takeOffer_trace (s : State) : (s.takeOffer).trace = s.trace := rfl
@[simp] theorem State.takeOffer_swTrace (s : State) : (s.takeOffer).swTrace = s.swTrace := rfl
@[simp] theorem State.takeOffer_chip (s : State) : (s.takeOffer).chip = s.chip := rfl
@[simp] theorem State.takeOffer_env (s : State) : (s.takeOffer).env = { s.env with offers := s.env.offers.tail } := rfl
@[simp] theorem State.takeOffer_draws (s : State) : (s.takeOffer).draws = s.draws := rfl
@[simp] theorem State.takeOffer_params (s : State) : (s.takeOffer).params = s.params := rfl

/-! ### setOffers -/

@[simp] theorem State.setOffers_phase (s : State) (l : List Code) : (s.setOffers l).phase = s.phase := rfl
@[simp] theorem State.setOffers_op (s : State) (l : List Code) : (s.setOffers l).op = s.op := rfl
@[simp] theorem State.setOffers_curAddr (s : State) (l : List Code) : (s.setOffers l).curAddr = s.curAddr := rfl
@[simp] theorem State.setOffers_bufOff (s : State) (l : List Code) : (s.setOffers l).bufOff = s.bufOff := rfl
@[simp] theorem State.setOffers_remaining (s : State) (l : List Code) : (s.setOffers l).remaining = s.remaining := rfl
@[simp] theorem State.setOffers_chunkLen (s : State) (l : List Code) : (s.setOffers l).chunkLen = s.chunkLen := rfl
@[simp] theorem State.setOffers_srLatch (s : State) (l : List Code) : (s.setOffers l).srLatch = s.srLatch := rfl
@[simp] theorem State.setOffers_lastLogTs (s : State) (l : List Code) : (s.setOffers l).lastLogTs = s.lastLogTs := rfl
@[simp] theorem State.setOffers_csN (s : State) (l : List Code) : (s.setOffers l).csN = s.csN := rfl
@[simp] theorem State.setOffers_ports (s : State) (l : List Code) : (s.setOffers l).ports = s.ports := rfl
@[simp] theorem State.setOffers_trace (s : State) (l : List Code) : (s.setOffers l).trace = s.trace := rfl
@[simp] theorem State.setOffers_swTrace (s : State) (l : List Code) : (s.setOffers l).swTrace = s.swTrace := rfl
@[simp] theorem State.setOffers_chip (s : State) (l : List Code) : (s.setOffers l).chip = s.chip := rfl
@[simp] theorem State.setOffers_env (s : State) (l : List Code) : (s.setOffers l).env = { s.env with offers := l } := rfl
@[simp] theorem State.setOffers_draws (s : State) (l : List Code) : (s.setOffers l).draws = s.draws := rfl
@[simp] theorem State.setOffers_params (s : State) (l : List Code) : (s.setOffers l).params = s.params := rfl

/-! ### setTimes -/

@[simp] theorem State.setTimes_phase (s : State) (last : Time) (l : List Time) : (s.setTimes last l).phase = s.phase := rfl
@[simp] theorem State.setTimes_op (s : State) (last : Time) (l : List Time) : (s.setTimes last l).op = s.op := rfl
@[simp] theorem State.setTimes_curAddr (s : State) (last : Time) (l : List Time) : (s.setTimes last l).curAddr = s.curAddr := rfl
@[simp] theorem State.setTimes_bufOff (s : State) (last : Time) (l : List Time) : (s.setTimes last l).bufOff = s.bufOff := rfl
@[simp] theorem State.setTimes_remaining (s : State) (last : Time) (l : List Time) : (s.setTimes last l).remaining = s.remaining := rfl
@[simp] theorem State.setTimes_chunkLen (s : State) (last : Time) (l : List Time) : (s.setTimes last l).chunkLen = s.chunkLen := rfl
@[simp] theorem State.setTimes_srLatch (s : State) (last : Time) (l : List Time) : (s.setTimes last l).srLatch = s.srLatch := rfl
@[simp] theorem State.setTimes_lastLogTs (s : State) (last : Time) (l : List Time) : (s.setTimes last l).lastLogTs = last := rfl
@[simp] theorem State.setTimes_csN (s : State) (last : Time) (l : List Time) : (s.setTimes last l).csN = s.csN := rfl
@[simp] theorem State.setTimes_ports (s : State) (last : Time) (l : List Time) : (s.setTimes last l).ports = s.ports := rfl
@[simp] theorem State.setTimes_trace (s : State) (last : Time) (l : List Time) : (s.setTimes last l).trace = s.trace := rfl
@[simp] theorem State.setTimes_swTrace (s : State) (last : Time) (l : List Time) : (s.setTimes last l).swTrace = s.swTrace := rfl
@[simp] theorem State.setTimes_chip (s : State) (last : Time) (l : List Time) : (s.setTimes last l).chip = s.chip := rfl
@[simp] theorem State.setTimes_env (s : State) (last : Time) (l : List Time) : (s.setTimes last l).env = { s.env with nows := l } := rfl
@[simp] theorem State.setTimes_draws (s : State) (last : Time) (l : List Time) : (s.setTimes last l).draws = s.draws := rfl
@[simp] theorem State.setTimes_params (s : State) (last : Time) (l : List Time) : (s.setTimes last l).params = s.params := rfl

/-! ### offering -/

@[simp] theorem State.offering_phase (s : State) (c : Code) : (s.offering c).phase = .idle := rfl
@[simp] theorem State.offering_op (s : State) (c : Code) : (s.offering c).op = s.op := rfl
@[simp] theorem State.offering_curAddr (s : State) (c : Code) : (s.offering c).curAddr = s.curAddr := rfl
@[simp] theorem State.offering_bufOff (s : State) (c : Code) : (s.offering c).bufOff = s.bufOff := rfl
@[simp] theorem State.offering_remaining (s : State) (c : Code) : (s.offering c).remaining = s.remaining := rfl
@[simp] theorem State.offering_chunkLen (s : State) (c : Code) : (s.offering c).chunkLen = s.chunkLen := rfl
@[simp] theorem State.offering_srLatch (s : State) (c : Code) : (s.offering c).srLatch = s.srLatch := rfl
@[simp] theorem State.offering_lastLogTs (s : State) (c : Code) : (s.offering c).lastLogTs = s.lastLogTs := rfl
@[simp] theorem State.offering_csN (s : State) (c : Code) : (s.offering c).csN = s.csN := rfl
@[simp] theorem State.offering_ports (s : State) (c : Code) : (s.offering c).ports = s.ports := rfl
@[simp] theorem State.offering_trace (s : State) (c : Code) : (s.offering c).trace = s.trace := rfl
@[simp] theorem State.offering_swTrace (s : State) (c : Code) : (s.offering c).swTrace = s.swTrace := rfl
@[simp] theorem State.offering_chip (s : State) (c : Code) : (s.offering c).chip = s.chip := rfl
@[simp] theorem State.offering_env (s : State) (c : Code) : (s.offering c).env = { s.env with pins := { s.env.pins with rstN := true }, plan := [], offers := [c] } := rfl
@[simp] theorem State.offering_draws (s : State) (c : Code) : (s.offering c).draws = s.draws := rfl
@[simp] theorem State.offering_params (s : State) (c : Code) : (s.offering c).params = s.params := rfl

/-! ### takeBuffer -/

@[simp] theorem Env.takeBuffer_pins (e : Env) : e.takeBuffer.pins = e.pins := rfl
@[simp] theorem Env.takeBuffer_plan (e : Env) : e.takeBuffer.plan = e.plan := rfl
@[simp] theorem Env.takeBuffer_offers (e : Env) : e.takeBuffer.offers = e.offers := rfl
@[simp] theorem Env.takeBuffer_buf (e : Env) : e.takeBuffer.buf = e.bufs.headD [] := rfl
@[simp] theorem Env.takeBuffer_bufs (e : Env) : e.takeBuffer.bufs = e.bufs.tail := rfl
@[simp] theorem Env.takeBuffer_statuses (e : Env) : e.takeBuffer.statuses = e.statuses := rfl
@[simp] theorem Env.takeBuffer_nows (e : Env) : e.takeBuffer.nows = e.nows := rfl

/-! ### accept -/

@[simp] theorem accept_phase (op : Nibble) (s : State) : (accept op s).phase = s.phase := rfl
@[simp] theorem accept_op (op : Nibble) (s : State) : (accept op s).op = op := rfl
@[simp] theorem accept_curAddr (op : Nibble) (s : State) : (accept op s).curAddr = s.curAddr := rfl
@[simp] theorem accept_bufOff (op : Nibble) (s : State) : (accept op s).bufOff = s.bufOff := rfl
@[simp] theorem accept_remaining (op : Nibble) (s : State) : (accept op s).remaining = s.remaining := rfl
@[simp] theorem accept_chunkLen (op : Nibble) (s : State) : (accept op s).chunkLen = s.chunkLen := rfl
@[simp] theorem accept_srLatch (op : Nibble) (s : State) : (accept op s).srLatch = 0x00 := rfl
@[simp] theorem accept_lastLogTs (op : Nibble) (s : State) : (accept op s).lastLogTs = s.lastLogTs := rfl
@[simp] theorem accept_csN (op : Nibble) (s : State) : (accept op s).csN = s.csN := rfl
@[simp] theorem accept_ports (op : Nibble) (s : State) : (accept op s).ports = s.ports := rfl
@[simp] theorem accept_trace (op : Nibble) (s : State) : (accept op s).trace = s.trace := rfl
@[simp] theorem accept_swTrace (op : Nibble) (s : State) : (accept op s).swTrace = s.swTrace := rfl
@[simp] theorem accept_chip (op : Nibble) (s : State) : (accept op s).chip = s.chip := rfl
@[simp] theorem accept_env (op : Nibble) (s : State) : (accept op s).env = s.env := rfl
@[simp] theorem accept_draws (op : Nibble) (s : State) : (accept op s).draws = s.draws := rfl
@[simp] theorem accept_params (op : Nibble) (s : State) : (accept op s).params = s.params := rfl

/-! ### chunkAdvance -/

@[simp] theorem chunkAdvance_phase (s : State) : (chunkAdvance s).phase = s.phase := rfl
@[simp] theorem chunkAdvance_op (s : State) : (chunkAdvance s).op = s.op := rfl
@[simp] theorem chunkAdvance_curAddr (s : State) : (chunkAdvance s).curAddr = s.curAddr + s.chunkLen.setWidth 24 := rfl
@[simp] theorem chunkAdvance_bufOff (s : State) : (chunkAdvance s).bufOff = s.bufOff + s.chunkLen.setWidth 32 := rfl
@[simp] theorem chunkAdvance_remaining (s : State) : (chunkAdvance s).remaining = s.remaining - s.chunkLen.setWidth 32 := rfl
@[simp] theorem chunkAdvance_chunkLen (s : State) : (chunkAdvance s).chunkLen = s.chunkLen := rfl
@[simp] theorem chunkAdvance_srLatch (s : State) : (chunkAdvance s).srLatch = s.srLatch := rfl
@[simp] theorem chunkAdvance_lastLogTs (s : State) : (chunkAdvance s).lastLogTs = s.lastLogTs := rfl
@[simp] theorem chunkAdvance_csN (s : State) : (chunkAdvance s).csN = s.csN := rfl
@[simp] theorem chunkAdvance_ports (s : State) : (chunkAdvance s).ports = s.ports := rfl
@[simp] theorem chunkAdvance_trace (s : State) : (chunkAdvance s).trace = s.trace := rfl
@[simp] theorem chunkAdvance_swTrace (s : State) : (chunkAdvance s).swTrace = s.swTrace := rfl
@[simp] theorem chunkAdvance_chip (s : State) : (chunkAdvance s).chip = s.chip := rfl
@[simp] theorem chunkAdvance_env (s : State) : (chunkAdvance s).env = s.env := rfl
@[simp] theorem chunkAdvance_draws (s : State) : (chunkAdvance s).draws = s.draws := rfl
@[simp] theorem chunkAdvance_params (s : State) : (chunkAdvance s).params = s.params := rfl

/-! ### exchange -/

@[simp] theorem exchange_phase (tx : Byte) (s : State) : (exchange tx s).phase = s.phase := rfl
@[simp] theorem exchange_op (tx : Byte) (s : State) : (exchange tx s).op = s.op := rfl
@[simp] theorem exchange_curAddr (tx : Byte) (s : State) : (exchange tx s).curAddr = s.curAddr := rfl
@[simp] theorem exchange_bufOff (tx : Byte) (s : State) : (exchange tx s).bufOff = s.bufOff := rfl
@[simp] theorem exchange_remaining (tx : Byte) (s : State) : (exchange tx s).remaining = s.remaining := rfl
@[simp] theorem exchange_chunkLen (tx : Byte) (s : State) : (exchange tx s).chunkLen = s.chunkLen := rfl
@[simp] theorem exchange_srLatch (tx : Byte) (s : State) : (exchange tx s).srLatch = s.srLatch := rfl
@[simp] theorem exchange_lastLogTs (tx : Byte) (s : State) : (exchange tx s).lastLogTs = s.lastLogTs := rfl
@[simp] theorem exchange_csN (tx : Byte) (s : State) : (exchange tx s).csN = s.csN := rfl
@[simp] theorem exchange_ports (tx : Byte) (s : State) : (exchange tx s).ports = s.ports := rfl
@[simp] theorem exchange_trace (tx : Byte) (s : State) : (exchange tx s).trace = s.trace := rfl
@[simp] theorem exchange_swTrace (tx : Byte) (s : State) : (exchange tx s).swTrace = s.swTrace := rfl
@[simp] theorem exchange_chip (tx : Byte) (s : State) : (exchange tx s).chip = (chipAnswer s).chip.take tx := rfl
@[simp] theorem exchange_env (tx : Byte) (s : State) : (exchange tx s).env = (chipAnswer s).env := rfl
@[simp] theorem exchange_draws (tx : Byte) (s : State) : (exchange tx s).draws = (chipAnswer s).draws := rfl
@[simp] theorem exchange_params (tx : Byte) (s : State) : (exchange tx s).params = s.params := rfl

/-! ### chipCommit -/

@[simp] theorem chipCommit_phase (s : State) : (chipCommit s).phase = s.phase := rfl
@[simp] theorem chipCommit_op (s : State) : (chipCommit s).op = s.op := rfl
@[simp] theorem chipCommit_curAddr (s : State) : (chipCommit s).curAddr = s.curAddr := rfl
@[simp] theorem chipCommit_bufOff (s : State) : (chipCommit s).bufOff = s.bufOff := rfl
@[simp] theorem chipCommit_remaining (s : State) : (chipCommit s).remaining = s.remaining := rfl
@[simp] theorem chipCommit_chunkLen (s : State) : (chipCommit s).chunkLen = s.chunkLen := rfl
@[simp] theorem chipCommit_srLatch (s : State) : (chipCommit s).srLatch = s.srLatch := rfl
@[simp] theorem chipCommit_lastLogTs (s : State) : (chipCommit s).lastLogTs = s.lastLogTs := rfl
@[simp] theorem chipCommit_csN (s : State) : (chipCommit s).csN = s.csN := rfl
@[simp] theorem chipCommit_ports (s : State) : (chipCommit s).ports = s.ports := rfl
@[simp] theorem chipCommit_trace (s : State) : (chipCommit s).trace = s.trace := rfl
@[simp] theorem chipCommit_swTrace (s : State) : (chipCommit s).swTrace = s.swTrace := rfl
@[simp] theorem chipCommit_chip (s : State) : (chipCommit s).chip = (frameEffect s).chip.deselect := rfl
@[simp] theorem chipCommit_env (s : State) : (chipCommit s).env = s.env := rfl
@[simp] theorem chipCommit_draws (s : State) : (chipCommit s).draws = (frameEffect s).draws := rfl
@[simp] theorem chipCommit_params (s : State) : (chipCommit s).params = s.params := rfl

/-! ### chipCut -/

@[simp] theorem chipCut_phase (s : State) : (chipCut s).phase = s.phase := rfl
@[simp] theorem chipCut_op (s : State) : (chipCut s).op = s.op := rfl
@[simp] theorem chipCut_curAddr (s : State) : (chipCut s).curAddr = s.curAddr := rfl
@[simp] theorem chipCut_bufOff (s : State) : (chipCut s).bufOff = s.bufOff := rfl
@[simp] theorem chipCut_remaining (s : State) : (chipCut s).remaining = s.remaining := rfl
@[simp] theorem chipCut_chunkLen (s : State) : (chipCut s).chunkLen = s.chunkLen := rfl
@[simp] theorem chipCut_srLatch (s : State) : (chipCut s).srLatch = s.srLatch := rfl
@[simp] theorem chipCut_lastLogTs (s : State) : (chipCut s).lastLogTs = s.lastLogTs := rfl
@[simp] theorem chipCut_csN (s : State) : (chipCut s).csN = s.csN := rfl
@[simp] theorem chipCut_ports (s : State) : (chipCut s).ports = s.ports := rfl
@[simp] theorem chipCut_trace (s : State) : (chipCut s).trace = s.trace := rfl
@[simp] theorem chipCut_swTrace (s : State) : (chipCut s).swTrace = s.swTrace := rfl
@[simp] theorem chipCut_chip (s : State) : (chipCut s).chip = (cutEffect s).chip.deselect := rfl
@[simp] theorem chipCut_env (s : State) : (chipCut s).env = s.env := rfl
@[simp] theorem chipCut_draws (s : State) : (chipCut s).draws = (cutEffect s).draws := rfl
@[simp] theorem chipCut_params (s : State) : (chipCut s).params = s.params := rfl

/-! ### csLow -/

@[simp] theorem csLow_phase (s : State) : (csLow s).phase = s.phase := rfl
@[simp] theorem csLow_op (s : State) : (csLow s).op = s.op := rfl
@[simp] theorem csLow_curAddr (s : State) : (csLow s).curAddr = s.curAddr := rfl
@[simp] theorem csLow_bufOff (s : State) : (csLow s).bufOff = s.bufOff := rfl
@[simp] theorem csLow_remaining (s : State) : (csLow s).remaining = s.remaining := rfl
@[simp] theorem csLow_chunkLen (s : State) : (csLow s).chunkLen = s.chunkLen := rfl
@[simp] theorem csLow_srLatch (s : State) : (csLow s).srLatch = s.srLatch := rfl
@[simp] theorem csLow_lastLogTs (s : State) : (csLow s).lastLogTs = s.lastLogTs := rfl
@[simp] theorem csLow_csN (s : State) : (csLow s).csN = false := rfl
@[simp] theorem csLow_ports (s : State) : (csLow s).ports = s.ports := rfl
@[simp] theorem csLow_trace (s : State) : (csLow s).trace = s.trace ++ [.cs false] := rfl
@[simp] theorem csLow_swTrace (s : State) : (csLow s).swTrace = s.swTrace := rfl
@[simp] theorem csLow_chip (s : State) : (csLow s).chip = s.chip.select := rfl
@[simp] theorem csLow_env (s : State) : (csLow s).env = s.env := rfl
@[simp] theorem csLow_draws (s : State) : (csLow s).draws = s.draws := rfl
@[simp] theorem csLow_params (s : State) : (csLow s).params = s.params := rfl

/-! ### csHigh -/

@[simp] theorem csHigh_phase (s : State) : (csHigh s).phase = s.phase := rfl
@[simp] theorem csHigh_op (s : State) : (csHigh s).op = s.op := rfl
@[simp] theorem csHigh_curAddr (s : State) : (csHigh s).curAddr = s.curAddr := rfl
@[simp] theorem csHigh_bufOff (s : State) : (csHigh s).bufOff = s.bufOff := rfl
@[simp] theorem csHigh_remaining (s : State) : (csHigh s).remaining = s.remaining := rfl
@[simp] theorem csHigh_chunkLen (s : State) : (csHigh s).chunkLen = s.chunkLen := rfl
@[simp] theorem csHigh_srLatch (s : State) : (csHigh s).srLatch = s.srLatch := rfl
@[simp] theorem csHigh_lastLogTs (s : State) : (csHigh s).lastLogTs = s.lastLogTs := rfl
@[simp] theorem csHigh_csN (s : State) : (csHigh s).csN = true := rfl
@[simp] theorem csHigh_ports (s : State) : (csHigh s).ports = s.ports := rfl
@[simp] theorem csHigh_trace (s : State) : (csHigh s).trace = s.trace ++ [.cs true] := rfl
@[simp] theorem csHigh_swTrace (s : State) : (csHigh s).swTrace = s.swTrace := rfl
@[simp] theorem csHigh_chip (s : State) : (csHigh s).chip = (frameEffect s).chip.deselect := rfl
@[simp] theorem csHigh_env (s : State) : (csHigh s).env = s.env := rfl
@[simp] theorem csHigh_draws (s : State) : (csHigh s).draws = (frameEffect s).draws := rfl
@[simp] theorem csHigh_params (s : State) : (csHigh s).params = s.params := rfl

/-! ### csHighCut -/

@[simp] theorem csHighCut_phase (s : State) : (csHighCut s).phase = s.phase := rfl
@[simp] theorem csHighCut_op (s : State) : (csHighCut s).op = s.op := rfl
@[simp] theorem csHighCut_curAddr (s : State) : (csHighCut s).curAddr = s.curAddr := rfl
@[simp] theorem csHighCut_bufOff (s : State) : (csHighCut s).bufOff = s.bufOff := rfl
@[simp] theorem csHighCut_remaining (s : State) : (csHighCut s).remaining = s.remaining := rfl
@[simp] theorem csHighCut_chunkLen (s : State) : (csHighCut s).chunkLen = s.chunkLen := rfl
@[simp] theorem csHighCut_srLatch (s : State) : (csHighCut s).srLatch = s.srLatch := rfl
@[simp] theorem csHighCut_lastLogTs (s : State) : (csHighCut s).lastLogTs = s.lastLogTs := rfl
@[simp] theorem csHighCut_csN (s : State) : (csHighCut s).csN = true := rfl
@[simp] theorem csHighCut_ports (s : State) : (csHighCut s).ports = s.ports := rfl
@[simp] theorem csHighCut_trace (s : State) : (csHighCut s).trace = s.trace ++ [.cs true] := rfl
@[simp] theorem csHighCut_swTrace (s : State) : (csHighCut s).swTrace = s.swTrace := rfl
@[simp] theorem csHighCut_chip (s : State) : (csHighCut s).chip = (cutEffect s).chip.deselect := rfl
@[simp] theorem csHighCut_env (s : State) : (csHighCut s).env = s.env := rfl
@[simp] theorem csHighCut_draws (s : State) : (csHighCut s).draws = (cutEffect s).draws := rfl
@[simp] theorem csHighCut_params (s : State) : (csHighCut s).params = s.params := rfl

/-! ### xfer -/

@[simp] theorem xfer_phase (tx : Byte) (s : State) : (xfer tx s).phase = s.phase := rfl
@[simp] theorem xfer_op (tx : Byte) (s : State) : (xfer tx s).op = s.op := rfl
@[simp] theorem xfer_curAddr (tx : Byte) (s : State) : (xfer tx s).curAddr = s.curAddr := rfl
@[simp] theorem xfer_bufOff (tx : Byte) (s : State) : (xfer tx s).bufOff = s.bufOff := rfl
@[simp] theorem xfer_remaining (tx : Byte) (s : State) : (xfer tx s).remaining = s.remaining := rfl
@[simp] theorem xfer_chunkLen (tx : Byte) (s : State) : (xfer tx s).chunkLen = s.chunkLen := rfl
@[simp] theorem xfer_srLatch (tx : Byte) (s : State) : (xfer tx s).srLatch = s.srLatch := rfl
@[simp] theorem xfer_lastLogTs (tx : Byte) (s : State) : (xfer tx s).lastLogTs = s.lastLogTs := rfl
@[simp] theorem xfer_csN (tx : Byte) (s : State) : (xfer tx s).csN = s.csN := rfl
@[simp] theorem xfer_ports (tx : Byte) (s : State) : (xfer tx s).ports = { s.ports with xfer := some tx } := rfl
@[simp] theorem xfer_trace (tx : Byte) (s : State) : (xfer tx s).trace = s.trace ++ [.xfer tx (xferRx s)] := rfl
@[simp] theorem xfer_swTrace (tx : Byte) (s : State) : (xfer tx s).swTrace = s.swTrace := rfl
@[simp] theorem xfer_chip (tx : Byte) (s : State) : (xfer tx s).chip = (chipAnswer s).chip.take tx := rfl
@[simp] theorem xfer_env (tx : Byte) (s : State) : (xfer tx s).env = (chipAnswer s).env := rfl
@[simp] theorem xfer_draws (tx : Byte) (s : State) : (xfer tx s).draws = (chipAnswer s).draws := rfl
@[simp] theorem xfer_params (tx : Byte) (s : State) : (xfer tx s).params = s.params := rfl

/-! ### bufRead -/

@[simp] theorem bufRead_phase (i : Count) (s : State) : (bufRead i s).phase = s.phase := rfl
@[simp] theorem bufRead_op (i : Count) (s : State) : (bufRead i s).op = s.op := rfl
@[simp] theorem bufRead_curAddr (i : Count) (s : State) : (bufRead i s).curAddr = s.curAddr := rfl
@[simp] theorem bufRead_bufOff (i : Count) (s : State) : (bufRead i s).bufOff = s.bufOff := rfl
@[simp] theorem bufRead_remaining (i : Count) (s : State) : (bufRead i s).remaining = s.remaining := rfl
@[simp] theorem bufRead_chunkLen (i : Count) (s : State) : (bufRead i s).chunkLen = s.chunkLen := rfl
@[simp] theorem bufRead_srLatch (i : Count) (s : State) : (bufRead i s).srLatch = s.srLatch := rfl
@[simp] theorem bufRead_lastLogTs (i : Count) (s : State) : (bufRead i s).lastLogTs = s.lastLogTs := rfl
@[simp] theorem bufRead_csN (i : Count) (s : State) : (bufRead i s).csN = s.csN := rfl
@[simp] theorem bufRead_ports (i : Count) (s : State) : (bufRead i s).ports = { s.ports with buf := some i } := rfl
@[simp] theorem bufRead_trace (i : Count) (s : State) : (bufRead i s).trace = s.trace ++ [.bufRead i (bufValue i s)] := rfl
@[simp] theorem bufRead_swTrace (i : Count) (s : State) : (bufRead i s).swTrace = s.swTrace := rfl
@[simp] theorem bufRead_chip (i : Count) (s : State) : (bufRead i s).chip = s.chip := rfl
@[simp] theorem bufRead_env (i : Count) (s : State) : (bufRead i s).env = s.env := rfl
@[simp] theorem bufRead_draws (i : Count) (s : State) : (bufRead i s).draws = if (s.bufByte? i).isSome then s.draws else s.draws + 1 := rfl
@[simp] theorem bufRead_params (i : Count) (s : State) : (bufRead i s).params = s.params := rfl

/-! ### logEvent -/

@[simp] theorem logEvent_phase (v : Byte) (s : State) : (logEvent v s).phase = s.phase := rfl
@[simp] theorem logEvent_op (v : Byte) (s : State) : (logEvent v s).op = s.op := rfl
@[simp] theorem logEvent_curAddr (v : Byte) (s : State) : (logEvent v s).curAddr = s.curAddr := rfl
@[simp] theorem logEvent_bufOff (v : Byte) (s : State) : (logEvent v s).bufOff = s.bufOff := rfl
@[simp] theorem logEvent_remaining (v : Byte) (s : State) : (logEvent v s).remaining = s.remaining := rfl
@[simp] theorem logEvent_chunkLen (v : Byte) (s : State) : (logEvent v s).chunkLen = s.chunkLen := rfl
@[simp] theorem logEvent_srLatch (v : Byte) (s : State) : (logEvent v s).srLatch = s.srLatch := rfl
@[simp] theorem logEvent_lastLogTs (v : Byte) (s : State) : (logEvent v s).lastLogTs = s.lastLogTs := rfl
@[simp] theorem logEvent_csN (v : Byte) (s : State) : (logEvent v s).csN = s.csN := rfl
@[simp] theorem logEvent_ports (v : Byte) (s : State) : (logEvent v s).ports = { s.ports with log := some v } := rfl
@[simp] theorem logEvent_trace (v : Byte) (s : State) : (logEvent v s).trace = s.trace ++ [.log v] := rfl
@[simp] theorem logEvent_swTrace (v : Byte) (s : State) : (logEvent v s).swTrace = s.swTrace := rfl
@[simp] theorem logEvent_chip (v : Byte) (s : State) : (logEvent v s).chip = s.chip := rfl
@[simp] theorem logEvent_env (v : Byte) (s : State) : (logEvent v s).env = s.env := rfl
@[simp] theorem logEvent_draws (v : Byte) (s : State) : (logEvent v s).draws = s.draws := rfl
@[simp] theorem logEvent_params (v : Byte) (s : State) : (logEvent v s).params = s.params := rfl

/-! ### sampleNow -/

@[simp] theorem sampleNow_phase (s : State) : (sampleNow s).phase = s.phase := rfl
@[simp] theorem sampleNow_op (s : State) : (sampleNow s).op = s.op := rfl
@[simp] theorem sampleNow_curAddr (s : State) : (sampleNow s).curAddr = s.curAddr := rfl
@[simp] theorem sampleNow_bufOff (s : State) : (sampleNow s).bufOff = s.bufOff := rfl
@[simp] theorem sampleNow_remaining (s : State) : (sampleNow s).remaining = s.remaining := rfl
@[simp] theorem sampleNow_chunkLen (s : State) : (sampleNow s).chunkLen = s.chunkLen := rfl
@[simp] theorem sampleNow_srLatch (s : State) : (sampleNow s).srLatch = s.srLatch := rfl
@[simp] theorem sampleNow_lastLogTs (s : State) : (sampleNow s).lastLogTs = s.lastLogTs := rfl
@[simp] theorem sampleNow_csN (s : State) : (sampleNow s).csN = s.csN := rfl
@[simp] theorem sampleNow_ports (s : State) : (sampleNow s).ports = s.ports := rfl
@[simp] theorem sampleNow_trace (s : State) : (sampleNow s).trace = s.trace ++ [.now (nowValue s)] := rfl
@[simp] theorem sampleNow_swTrace (s : State) : (sampleNow s).swTrace = s.swTrace := rfl
@[simp] theorem sampleNow_chip (s : State) : (sampleNow s).chip = s.chip := rfl
@[simp] theorem sampleNow_env (s : State) : (sampleNow s).env = { s.env with nows := s.env.nows.tail } := rfl
@[simp] theorem sampleNow_draws (s : State) : (sampleNow s).draws = drawsAfter s.env.nows s.draws := rfl
@[simp] theorem sampleNow_params (s : State) : (sampleNow s).params = s.params := rfl

/-! ### respond -/

@[simp] theorem respond_phase (code : RspCode) (s : State) : (respond code s).phase = .idle := rfl
@[simp] theorem respond_op (code : RspCode) (s : State) : (respond code s).op = s.op := rfl
@[simp] theorem respond_curAddr (code : RspCode) (s : State) : (respond code s).curAddr = s.curAddr := rfl
@[simp] theorem respond_bufOff (code : RspCode) (s : State) : (respond code s).bufOff = s.bufOff := rfl
@[simp] theorem respond_remaining (code : RspCode) (s : State) : (respond code s).remaining = s.remaining := rfl
@[simp] theorem respond_chunkLen (code : RspCode) (s : State) : (respond code s).chunkLen = s.chunkLen := rfl
@[simp] theorem respond_srLatch (code : RspCode) (s : State) : (respond code s).srLatch = s.srLatch := rfl
@[simp] theorem respond_lastLogTs (code : RspCode) (s : State) : (respond code s).lastLogTs = s.lastLogTs := rfl
@[simp] theorem respond_csN (code : RspCode) (s : State) : (respond code s).csN = s.csN := rfl
@[simp] theorem respond_ports (code : RspCode) (s : State) : (respond code s).ports = { s.ports with rsp := some (code, s.srLatch) } := rfl
@[simp] theorem respond_trace (code : RspCode) (s : State) : (respond code s).trace = s.trace ++ [.respond code s.srLatch] := rfl
@[simp] theorem respond_swTrace (code : RspCode) (s : State) : (respond code s).swTrace = s.swTrace := rfl
@[simp] theorem respond_chip (code : RspCode) (s : State) : (respond code s).chip = s.chip := rfl
@[simp] theorem respond_env (code : RspCode) (s : State) : (respond code s).env = s.env := rfl
@[simp] theorem respond_draws (code : RspCode) (s : State) : (respond code s).draws = s.draws := rfl
@[simp] theorem respond_params (code : RspCode) (s : State) : (respond code s).params = s.params := rfl

/-! ### resetBlock -/

@[simp] theorem resetBlock_phase (s : State) : (resetBlock s).phase = .idle := rfl
@[simp] theorem resetBlock_op (s : State) : (resetBlock s).op = Config.freeOp (dropEffect s).draws := rfl
@[simp] theorem resetBlock_curAddr (s : State) : (resetBlock s).curAddr = Config.freeAddr (dropEffect s).draws := rfl
@[simp] theorem resetBlock_bufOff (s : State) : (resetBlock s).bufOff = Config.freeOffset (dropEffect s).draws := rfl
@[simp] theorem resetBlock_remaining (s : State) : (resetBlock s).remaining = Config.freeRemaining (dropEffect s).draws := rfl
@[simp] theorem resetBlock_chunkLen (s : State) : (resetBlock s).chunkLen = Config.freeChunk (dropEffect s).draws := rfl
@[simp] theorem resetBlock_srLatch (s : State) : (resetBlock s).srLatch = Config.freeLatch (dropEffect s).draws := rfl
@[simp] theorem resetBlock_lastLogTs (s : State) : (resetBlock s).lastLogTs = 0 := rfl
@[simp] theorem resetBlock_csN (s : State) : (resetBlock s).csN = true := rfl
@[simp] theorem resetBlock_ports (s : State) : (resetBlock s).ports = Ports.quiet := rfl
@[simp] theorem resetBlock_trace (s : State) : (resetBlock s).trace = s.trace := rfl
@[simp] theorem resetBlock_swTrace (s : State) : (resetBlock s).swTrace = s.swTrace := rfl
@[simp] theorem resetBlock_chip (s : State) : (resetBlock s).chip = (dropEffect s).chip.deselect := rfl
@[simp] theorem resetBlock_env (s : State) : (resetBlock s).env = s.env := rfl
@[simp] theorem resetBlock_draws (s : State) : (resetBlock s).draws = (dropEffect s).draws + 1 := rfl
@[simp] theorem resetBlock_params (s : State) : (resetBlock s).params = s.params := rfl

/-! ### swSelect -/

@[simp] theorem swSelect_phase (s : State) : (swSelect s).phase = s.phase := rfl
@[simp] theorem swSelect_op (s : State) : (swSelect s).op = s.op := rfl
@[simp] theorem swSelect_curAddr (s : State) : (swSelect s).curAddr = s.curAddr := rfl
@[simp] theorem swSelect_bufOff (s : State) : (swSelect s).bufOff = s.bufOff := rfl
@[simp] theorem swSelect_remaining (s : State) : (swSelect s).remaining = s.remaining := rfl
@[simp] theorem swSelect_chunkLen (s : State) : (swSelect s).chunkLen = s.chunkLen := rfl
@[simp] theorem swSelect_srLatch (s : State) : (swSelect s).srLatch = s.srLatch := rfl
@[simp] theorem swSelect_lastLogTs (s : State) : (swSelect s).lastLogTs = s.lastLogTs := rfl
@[simp] theorem swSelect_csN (s : State) : (swSelect s).csN = s.csN := rfl
@[simp] theorem swSelect_ports (s : State) : (swSelect s).ports = s.ports := rfl
@[simp] theorem swSelect_trace (s : State) : (swSelect s).trace = s.trace := rfl
@[simp] theorem swSelect_swTrace (s : State) : (swSelect s).swTrace = s.swTrace ++ [.cs false] := rfl
@[simp] theorem swSelect_chip (s : State) : (swSelect s).chip = s.chip.select := rfl
@[simp] theorem swSelect_env (s : State) : (swSelect s).env = s.env := rfl
@[simp] theorem swSelect_draws (s : State) : (swSelect s).draws = s.draws := rfl
@[simp] theorem swSelect_params (s : State) : (swSelect s).params = s.params := rfl

/-! ### swXfer -/

@[simp] theorem swXfer_phase (s : State) (tx : Byte) : (swXfer s tx).phase = s.phase := rfl
@[simp] theorem swXfer_op (s : State) (tx : Byte) : (swXfer s tx).op = s.op := rfl
@[simp] theorem swXfer_curAddr (s : State) (tx : Byte) : (swXfer s tx).curAddr = s.curAddr := rfl
@[simp] theorem swXfer_bufOff (s : State) (tx : Byte) : (swXfer s tx).bufOff = s.bufOff := rfl
@[simp] theorem swXfer_remaining (s : State) (tx : Byte) : (swXfer s tx).remaining = s.remaining := rfl
@[simp] theorem swXfer_chunkLen (s : State) (tx : Byte) : (swXfer s tx).chunkLen = s.chunkLen := rfl
@[simp] theorem swXfer_srLatch (s : State) (tx : Byte) : (swXfer s tx).srLatch = s.srLatch := rfl
@[simp] theorem swXfer_lastLogTs (s : State) (tx : Byte) : (swXfer s tx).lastLogTs = s.lastLogTs := rfl
@[simp] theorem swXfer_csN (s : State) (tx : Byte) : (swXfer s tx).csN = s.csN := rfl
@[simp] theorem swXfer_ports (s : State) (tx : Byte) : (swXfer s tx).ports = s.ports := rfl
@[simp] theorem swXfer_trace (s : State) (tx : Byte) : (swXfer s tx).trace = s.trace := rfl
@[simp] theorem swXfer_swTrace (s : State) (tx : Byte) : (swXfer s tx).swTrace = s.swTrace ++ [.xfer tx (xferRx s)] := rfl
@[simp] theorem swXfer_chip (s : State) (tx : Byte) : (swXfer s tx).chip = (chipAnswer s).chip.take tx := rfl
@[simp] theorem swXfer_env (s : State) (tx : Byte) : (swXfer s tx).env = (chipAnswer s).env := rfl
@[simp] theorem swXfer_draws (s : State) (tx : Byte) : (swXfer s tx).draws = (chipAnswer s).draws := rfl
@[simp] theorem swXfer_params (s : State) (tx : Byte) : (swXfer s tx).params = s.params := rfl

/-! ### swDeselect -/

@[simp] theorem swDeselect_phase (s : State) : (swDeselect s).phase = s.phase := rfl
@[simp] theorem swDeselect_op (s : State) : (swDeselect s).op = s.op := rfl
@[simp] theorem swDeselect_curAddr (s : State) : (swDeselect s).curAddr = s.curAddr := rfl
@[simp] theorem swDeselect_bufOff (s : State) : (swDeselect s).bufOff = s.bufOff := rfl
@[simp] theorem swDeselect_remaining (s : State) : (swDeselect s).remaining = s.remaining := rfl
@[simp] theorem swDeselect_chunkLen (s : State) : (swDeselect s).chunkLen = s.chunkLen := rfl
@[simp] theorem swDeselect_srLatch (s : State) : (swDeselect s).srLatch = s.srLatch := rfl
@[simp] theorem swDeselect_lastLogTs (s : State) : (swDeselect s).lastLogTs = s.lastLogTs := rfl
@[simp] theorem swDeselect_csN (s : State) : (swDeselect s).csN = s.csN := rfl
@[simp] theorem swDeselect_ports (s : State) : (swDeselect s).ports = s.ports := rfl
@[simp] theorem swDeselect_trace (s : State) : (swDeselect s).trace = s.trace := rfl
@[simp] theorem swDeselect_swTrace (s : State) : (swDeselect s).swTrace = s.swTrace ++ [.cs true] := rfl
@[simp] theorem swDeselect_chip (s : State) : (swDeselect s).chip = (frameEffect s).chip.deselect := rfl
@[simp] theorem swDeselect_env (s : State) : (swDeselect s).env = s.env := rfl
@[simp] theorem swDeselect_draws (s : State) : (swDeselect s).draws = (frameEffect s).draws := rfl
@[simp] theorem swDeselect_params (s : State) : (swDeselect s).params = s.params := rfl

end Sys2Proof.Machine
end

