-- ==== Sys2Proof/Laws/Memory.lean ====
section
/-! SUPPORT. The flash memory: a read after a write, every operation keeps the canonical form, and where the program and
scramble operations write. -/

namespace Sys2Proof.Machine

theorem cellsGet_lt {base : Background} {a : Nat} :
    ∀ {cells : List Host.Cell} {lo : Nat}, cellsWf base lo cells = true → a < lo → cellsGet a cells = none
  | [], _, _, _ => rfl
  | (k, v) :: rest, lo, h, ha => by
    simp only [cellsWf, Bool.and_eq_true, decide_eq_true_eq] at h
    have hk : k ≠ a := by omega
    simp only [cellsGet, hk, if_false]
    exact cellsGet_lt h.2 (by omega)

theorem cellsGet_put_self {base : Background} (a : Nat) (v : Option Byte) :
    ∀ {cells : List Host.Cell} {lo : Nat}, cellsWf base lo cells = true → cellsGet a (cellsPut a v cells) = v
  | [], _, _ => by cases v <;> simp [cellsPut, cellsGet]
  | (k, w) :: rest, lo, h => by
    simp only [cellsWf, Bool.and_eq_true, decide_eq_true_eq] at h
    unfold cellsPut
    split
    · cases v with
      | none => exact cellsGet_lt (base := base) (lo := k) (by simpa [cellsWf, h.1.1.2, h.2] using h.1.2) (by omega)
      | some b => simp [cellsGet]
    · split
      · cases v with
        | none => exact cellsGet_lt h.2 (by omega)
        | some b => simp [cellsGet]
      · rename_i h1 h2
        have hk : k ≠ a := fun e => h2 e.symm
        simp only [cellsGet, hk, if_false]
        exact cellsGet_put_self a v h.2

theorem cellsGet_put_other {base : Background} (a b : Nat) (hab : b ≠ a) (v : Option Byte) :
    ∀ (cells : List Host.Cell) {lo : Nat}, cellsWf base lo cells = true →
      cellsGet b (cellsPut a v cells) = cellsGet b cells
  | [], _, _ => by cases v <;> simp [cellsPut, cellsGet, hab.symm]
  | (k, w) :: rest, lo, h => by
    simp only [cellsWf, Bool.and_eq_true, decide_eq_true_eq] at h
    unfold cellsPut
    split
    · cases v <;> simp [cellsGet, hab.symm]
    · split
      · rename_i _ hk
        subst hk
        cases v <;> simp [cellsGet, hab.symm]
      · by_cases hkb : k = b <;> simp [cellsGet, hkb, cellsGet_put_other a b hab v rest h.2]

theorem cellsPut_wf {base : Background} (a : Nat) (v : Option Byte) (ha : a < flashSize)
    (hv : ∀ b, v = some b → b ≠ Memory.unlisted base a) :
    ∀ {cells : List Host.Cell} {lo : Nat}, lo ≤ a → cellsWf base lo cells = true →
      cellsWf base lo (cellsPut a v cells) = true
  | [], lo, hlo, _ => by
    cases v with
    | none => rfl
    | some b => simp [cellsPut, cellsWf, hlo, ha, hv b rfl]
  | (k, w) :: rest, lo, hlo, h => by
    simp only [cellsWf, Bool.and_eq_true, decide_eq_true_eq, bne_iff_ne] at h
    obtain ⟨⟨⟨h1, h2⟩, h3⟩, h4⟩ := h
    unfold cellsPut
    split
    · rename_i hlt
      cases v with
      | none => simp [cellsWf, h1, h2, h3, h4]
      | some b =>
        have : a + 1 ≤ k := hlt
        simp [cellsWf, hlo, ha, hv b rfl, h2, h3, h4, this]
    · split
      · rename_i _ hk
        subst hk
        cases v with
        | none =>
          have : ∀ {cells : List Host.Cell} {m n : Nat}, m ≤ n → cellsWf base n cells = true →
              cellsWf base m cells = true := by
            intro cells m n hmn hc
            cases cells with
            | nil => rfl
            | cons c cs =>
              obtain ⟨k, v⟩ := c
              simp only [cellsWf, Bool.and_eq_true, decide_eq_true_eq] at hc ⊢
              exact ⟨⟨⟨by omega, hc.1.1.2⟩, hc.1.2⟩, hc.2⟩
          exact this (by omega) h4
        | some b => simp [cellsWf, hlo, ha, hv b rfl, h4]
      · have hr := cellsPut_wf a v ha hv (cells := rest) (lo := k + 1) (by omega) h4
        simp [cellsWf, h1, h2, h3, hr]

theorem FlashAddr_toNat_lt (a : FlashAddr) : a.toNat < flashSize := a.isLt

/-- Every write keeps the canonical form. -/
theorem Memory.write_wf (m : Memory) (a : FlashAddr) (v : Byte) (h : m.wf = true) : (m.write a v).wf = true := by
  unfold Memory.wf Memory.write at *
  refine cellsPut_wf _ _ (FlashAddr_toNat_lt a) ?_ (Nat.zero_le _) h
  intro b hb
  split at hb
  · cases hb
  · cases hb; assumption

@[simp] theorem Memory.write_base (m : Memory) (a : FlashAddr) (v : Byte) : (m.write a v).base = m.base := rfl

/-- A read after a write to the same address. -/
theorem Memory.read_write_same (m : Memory) (a : FlashAddr) (v : Byte) (h : m.wf = true) :
    (m.write a v).read a = v := by
  unfold Memory.read
  rw [Memory.write_base]
  have : cellsGet a.toNat (m.write a v).cells = if v = Memory.unlisted m.base a.toNat then none else some v :=
    cellsGet_put_self (base := m.base) _ _ (lo := 0) h
  rw [this]
  split
  · rename_i hv; simp [hv]
  · rfl

/-- A write leaves every other address alone. -/
theorem Memory.read_write_other (m : Memory) (a b : FlashAddr) (v : Byte) (h : m.wf = true) (hab : b ≠ a) :
    (m.write a v).read b = m.read b := by
  unfold Memory.read
  rw [Memory.write_base]
  have hne : b.toNat ≠ a.toNat := fun e => hab (BitVec.eq_of_toNat_eq e)
  have : cellsGet b.toNat (m.write a v).cells = cellsGet b.toNat m.cells :=
    cellsGet_put_other (base := m.base) _ _ hne _ _ (lo := 0) h
  rw [this]

/-- The one read law of a write. -/
theorem Memory.read_write (m : Memory) (a b : FlashAddr) (v : Byte) (h : m.wf = true) :
    (m.write a v).read b = if b = a then v else m.read b := by
  split
  · rename_i e; subst e; exact m.read_write_same _ v h
  · rename_i e; exact m.read_write_other a b v h e

@[simp] theorem Memory.blank_wf : Memory.blank.wf = true := rfl

@[simp] theorem Memory.anything_wf (n : Nat) : (Memory.anything n).wf = true := rfl

@[simp] theorem Memory.blank_read (a : FlashAddr) : Memory.blank.read a = erasedByte := rfl

/-- Programming keeps the canonical form. -/
theorem programBytes_wf (a : FlashAddr) :
    ∀ (ds : List Byte) (j : Nat) (m : Memory), m.wf = true → (programBytes a j ds m).wf = true
  | [], _, _, h => h
  | _ :: ds, j, m, h => programBytes_wf a ds (j + 1) _ (m.write_wf _ _ h)

/-- Programming changes only the addresses its bytes land on. -/
theorem programBytes_read_other (a b : FlashAddr) :
    ∀ (ds : List Byte) (j : Nat) (m : Memory), m.wf = true →
      (∀ i, i < ds.length → b ≠ pageTarget a (j + i)) → (programBytes a j ds m).read b = m.read b
  | [], _, _, _, _ => rfl
  | d :: ds, j, m, h, hb => by
    unfold programBytes
    rw [programBytes_read_other a b ds (j + 1) _ (m.write_wf _ _ h)
      (fun i hi => by simpa [Nat.add_assoc, Nat.add_comm 1 i] using hb (i + 1) (by simpa using hi))]
    exact m.read_write_other _ _ _ h (by simpa using hb 0 (by simp))

/-- Scrambling keeps the canonical form. -/
theorem scrambleBytes_wf (a : FlashAddr) (n : Nat) :
    ∀ (k : Nat) (m : Memory), m.wf = true → (scrambleBytes a n k m).wf = true
  | 0, _, h => h
  | k + 1, m, h => scrambleBytes_wf a n k _ (m.write_wf _ _ h)

theorem scramblePage_wf (a : FlashAddr) (n : Nat) (m : Memory) (h : m.wf = true) : (scramblePage a n m).wf = true := by
  unfold scramblePage
  exact scrambleBytes_wf a n 256 m h

theorem pageIndex_append (p : BitVec 16) (o : BitVec 8) : pageIndex (p ++ o) = p := by
  unfold pageIndex
  ext i hi
  have h := BitVec.getLsbD_append (x := p) (y := o) (i := 8 + i)
  simp only [show ¬ 8 + i < 8 by omega, if_false, Nat.add_sub_cancel_left] at h
  simpa [BitVec.getLsbD_eq_getElem hi] using h

theorem pageIndex_pageTarget (a : FlashAddr) (j : Nat) : pageIndex (pageTarget a j) = pageIndex a :=
  pageIndex_append _ _

/-- Scrambling a page leaves the other pages alone. -/
theorem scrambleBytes_read_other (a b : FlashAddr) (n : Nat) (hb : pageIndex b ≠ pageIndex a) :
    ∀ (k : Nat) (m : Memory), m.wf = true → (scrambleBytes a n k m).read b = m.read b
  | 0, _, _ => rfl
  | k + 1, m, h => by
    unfold scrambleBytes
    rw [scrambleBytes_read_other a b n hb k _ (m.write_wf _ _ h)]
    refine m.read_write_other _ _ _ h ?_
    rintro rfl
    exact hb (pageIndex_append _ _)

theorem scramblePage_read_other (a b : FlashAddr) (n : Nat) (m : Memory) (h : m.wf = true)
    (hb : pageIndex b ≠ pageIndex a) : (scramblePage a n m).read b = m.read b := by
  unfold scramblePage
  exact scrambleBytes_read_other a b n hb 256 m h

/-- Erasing keeps the canonical form. -/
theorem eraseRange_wf (lo : Nat) : ∀ (k : Nat) (m : Memory), m.wf = true → (eraseRange lo k m).wf = true
  | 0, _, h => h
  | k + 1, m, h => by
    unfold eraseRange
    refine eraseRange_wf lo k _ ?_
    split
    · exact m.write_wf _ _ h
    · exact h

theorem eraseBlock_wf (a : FlashAddr) (m : Memory) (h : m.wf = true) : (eraseBlock a m).wf = true :=
  eraseRange_wf _ _ m h

/-- An address outside the erased range reads as before. -/
theorem eraseRange_read_other (lo : Nat) (b : FlashAddr) :
    ∀ (k : Nat) (m : Memory), m.wf = true → (b.toNat < lo ∨ lo + k ≤ b.toNat) →
      (eraseRange lo k m).read b = m.read b
  | 0, _, _, _ => rfl
  | k + 1, m, h, hb => by
    unfold eraseRange
    have hstep : ∀ m' : Memory, m'.wf = true → (eraseRange lo k m').read b = m'.read b :=
      fun m' h' => eraseRange_read_other lo b k m' h' (by omega)
    split
    · rename_i hlt
      rw [hstep _ (m.write_wf _ _ h)]
      refine m.read_write_other _ _ _ h ?_
      rintro rfl
      simp only [BitVec.toNat_ofNat, flashSize] at hb hlt
      omega
    · exact hstep m h

/-- An address inside the erased range reads as erased. -/
theorem eraseRange_read_inside (lo : Nat) (b : FlashAddr) :
    ∀ (k : Nat) (m : Memory), m.wf = true → lo ≤ b.toNat → b.toNat < lo + k →
      (eraseRange lo k m).read b = erasedByte
  | 0, _, _, h1, h2 => by omega
  | k + 1, m, h, h1, h2 => by
    unfold eraseRange
    have hb : b.toNat < 16777216 := b.isLt
    by_cases hk : b.toNat = lo + k
    · have hlt : lo + k < flashSize := by unfold flashSize; omega
      have he : b = BitVec.ofNat 24 (lo + k) := by
        apply BitVec.eq_of_toNat_eq
        simp only [BitVec.toNat_ofNat]
        omega
      simp only [hlt, if_true]
      rw [eraseRange_read_other lo b k _ (m.write_wf _ _ h) (by omega), he]
      exact m.read_write_same _ _ h
    · refine eraseRange_read_inside lo b k _ ?_ h1 (by omega)
      split
      · exact m.write_wf _ _ h
      · exact h

theorem mem_eraseBlock (a : FlashAddr) : eraseBase a ≤ a.toNat ∧ a.toNat < eraseBase a + (Config.eraseSpan + 1) := by
  unfold eraseBase
  have := Nat.mod_lt a.toNat (show Config.eraseSpan + 1 > 0 by omega)
  have := Nat.mod_le a.toNat (Config.eraseSpan + 1)
  omega

end Sys2Proof.Machine
end

