-- ==== Sys2Proof/Laws/Ops.lean ====
section
/-! SUPPORT. The shared operations, each said once: what the chip's answer and reaction leave unchanged, the abort check,
the pins of a step, and which event primitive a busy step performs. -/

namespace Sys2Proof.Machine

/-! ### The chip answers -/

/-- Settling is nothing, or the completion of the command that was executing. -/
theorem Chip.settle_cases (c : Chip) :
    c.settle = c ∨
      (c.wip = true ∧ c.told = some false ∧
        c.settle = { c with wip := false, wel := if c.wel = .unknown then .unknown else .clear }) := by
  unfold Chip.settle
  split
  · rename_i h
    simp only [Bool.and_eq_true, beq_iff_eq] at h
    exact .inr ⟨h.1, h.2, rfl⟩
  · exact .inl rfl

@[simp] theorem Chip.settle_flash (c : Chip) : c.settle.flash = c.flash := by
  obtain h | ⟨-, -, h⟩ := c.settle_cases <;> rw [h]
@[simp] theorem Chip.settle_prot (c : Chip) : c.settle.prot = c.prot := by
  obtain h | ⟨-, -, h⟩ := c.settle_cases <;> rw [h]
@[simp] theorem Chip.settle_frame (c : Chip) : c.settle.frame = c.frame := by
  obtain h | ⟨-, -, h⟩ := c.settle_cases <;> rw [h]
@[simp] theorem Chip.settle_told (c : Chip) : c.settle.told = c.told := by
  obtain h | ⟨-, -, h⟩ := c.settle_cases <;> rw [h]

/-- Settling changes nothing that is known of WIP. -/
@[simp] theorem Chip.settle_busy (c : Chip) : c.settle.busy = c.busy := by
  obtain h | ⟨-, ht, h⟩ := c.settle_cases
  · rw [h]
  · rw [h]; simp [Chip.busy, ht]

/-- With no command executing there is nothing to settle. -/
theorem Chip.settle_of_idle {c : Chip} (h : c.wip = false) : c.settle = c := by
  simp [Chip.settle, h]

/-- A chip that is not busy has settled to WIP 0. -/
theorem Chip.settle_wip_of_ready {c : Chip} (h : c.busy = false) : c.settle.wip = false := by
  unfold Chip.busy at h
  cases ht : c.told with
  | none => simp_all [Chip.settle]
  | some b => cases hw : c.wip <;> simp_all [Chip.settle]

/-- A chip settles once. -/
@[simp] theorem Chip.settle_settle (c : Chip) : c.settle.settle = c.settle := by
  obtain h | ⟨-, -, h⟩ := c.settle_cases
  · rw [h, h]
  · rw [h]; exact Chip.settle_of_idle rfl

/-- What the chip says changes nothing in it (R86). -/
@[simp] theorem Chip.tell_flash (c : Chip) (v : Byte) : (c.tell v).flash = c.flash := rfl
@[simp] theorem Chip.tell_frame (c : Chip) (v : Byte) : (c.tell v).frame = c.frame := rfl
@[simp] theorem Chip.tell_prot (c : Chip) (v : Byte) : (c.tell v).prot = c.prot := rfl
@[simp] theorem Chip.tell_wip (c : Chip) (v : Byte) : (c.tell v).wip = c.wip := rfl
@[simp] theorem Chip.tell_wel (c : Chip) (v : Byte) : (c.tell v).wel = c.wel := rfl
@[simp] theorem Chip.tell_told (c : Chip) (v : Byte) : (c.tell v).told = some (isBusyStatus v) := rfl
@[simp] theorem Chip.tell_busy (c : Chip) (v : Byte) : (c.tell v).busy = isBusyStatus v := rfl
@[simp] theorem Chip.tell_tell (c : Chip) (v w : Byte) : (c.tell v).tell w = c.tell w := rfl

/-- A busy status leaves nothing to settle. -/
theorem Chip.settle_tell_busy (c : Chip) {v : Byte} (h : isBusyStatus v = true) : (c.tell v).settle = c.tell v := by
  simp [Chip.settle, Chip.tell, h]

/-- A ready status completes the command that was executing (R40, R59). -/
theorem Chip.settle_tell_ready (c : Chip) {v : Byte} (h : isBusyStatus v = false) :
    (c.tell v).settle.wip = false ∧ (c.tell v).settle.prot = c.prot ∧ (c.tell v).settle.flash = c.flash ∧
      (c.tell v).settle.wel = if c.wip then (if c.wel = .unknown then .unknown else .clear) else c.wel := by
  cases hw : c.wip <;> simp [Chip.settle, Chip.tell, h, hw]

/-- Settling does not look at the open frame. -/
theorem Chip.settle_reframe (c : Chip) (f : Option (List Byte)) :
    { c with frame := f }.settle = { c.settle with frame := f } := by
  unfold Chip.settle
  split <;> rfl

theorem Chip.deselect_settle (c : Chip) : c.deselect.settle = c.settle.deselect := c.settle_reframe none

@[simp] theorem Chip.take_flash (c : Chip) (tx : Byte) : (c.take tx).flash = c.flash := rfl
@[simp] theorem Chip.take_wip (c : Chip) (tx : Byte) : (c.take tx).wip = c.wip := rfl
@[simp] theorem Chip.take_told (c : Chip) (tx : Byte) : (c.take tx).told = c.told := rfl
@[simp] theorem Chip.take_wel (c : Chip) (tx : Byte) : (c.take tx).wel = c.wel := rfl
@[simp] theorem Chip.take_prot (c : Chip) (tx : Byte) : (c.take tx).prot = c.prot := rfl
@[simp] theorem Chip.take_frame (c : Chip) (tx : Byte) : (c.take tx).frame = c.frame.map (· ++ [tx]) := rfl
@[simp] theorem Chip.select_flash (c : Chip) : c.select.flash = c.flash := rfl
@[simp] theorem Chip.select_wip (c : Chip) : c.select.wip = c.wip := rfl
@[simp] theorem Chip.select_told (c : Chip) : c.select.told = c.told := rfl
@[simp] theorem Chip.select_wel (c : Chip) : c.select.wel = c.wel := rfl
@[simp] theorem Chip.select_prot (c : Chip) : c.select.prot = c.prot := rfl
@[simp] theorem Chip.select_frame (c : Chip) : c.select.frame = some [] := rfl
@[simp] theorem Chip.deselect_flash (c : Chip) : c.deselect.flash = c.flash := rfl
@[simp] theorem Chip.deselect_wip (c : Chip) : c.deselect.wip = c.wip := rfl
@[simp] theorem Chip.deselect_told (c : Chip) : c.deselect.told = c.told := rfl
@[simp] theorem Chip.deselect_wel (c : Chip) : c.deselect.wel = c.wel := rfl
@[simp] theorem Chip.deselect_prot (c : Chip) : c.deselect.prot = c.prot := rfl
@[simp] theorem Chip.deselect_frame (c : Chip) : c.deselect.frame = none := rfl

/-- An answer is a free value, a fixed value, or the status. -/
theorem chipAnswer_cases (s : State) :
    chipAnswer s = answerFree s ∨ (∃ v, chipAnswer s = answerFixed v s) ∨
      (s.chip.frame = some [opRdsr] ∧ chipAnswer s = answerStatus s) := by
  unfold chipAnswer answerRead
  repeat' split
  all_goals first
    | exact .inl rfl
    | exact .inr (.inl ⟨_, rfl⟩)
    | (simp_all)

/-- No answer changes the chip's array, WIP, WEL or protection (R86). -/
@[simp] theorem chipAnswer_flash (s : State) : (chipAnswer s).chip.flash = s.chip.flash := by
  obtain h | ⟨v, h⟩ | ⟨-, h⟩ := chipAnswer_cases s <;> simp [h, answerFree, answerFixed, answerStatus]

@[simp] theorem chipAnswer_wip (s : State) : (chipAnswer s).chip.wip = s.chip.wip := by
  obtain h | ⟨v, h⟩ | ⟨-, h⟩ := chipAnswer_cases s <;> simp [h, answerFree, answerFixed, answerStatus]

@[simp] theorem chipAnswer_wel (s : State) : (chipAnswer s).chip.wel = s.chip.wel := by
  obtain h | ⟨v, h⟩ | ⟨-, h⟩ := chipAnswer_cases s <;> simp [h, answerFree, answerFixed, answerStatus]

@[simp] theorem chipAnswer_frame (s : State) : (chipAnswer s).chip.frame = s.chip.frame := by
  obtain h | ⟨v, h⟩ | ⟨-, h⟩ := chipAnswer_cases s <;> simp [h, answerFree, answerFixed, answerStatus]

@[simp] theorem chipAnswer_prot (s : State) : (chipAnswer s).chip.prot = s.chip.prot := by
  obtain h | ⟨v, h⟩ | ⟨-, h⟩ := chipAnswer_cases s <;> simp [h, answerFree, answerFixed, answerStatus]

@[simp] theorem Env.afterStatus_pins (e : Env) : e.afterStatus.pins = e.pins := rfl
@[simp] theorem Env.afterStatus_plan (e : Env) : e.afterStatus.plan = e.plan := rfl
@[simp] theorem Env.afterStatus_offers (e : Env) : e.afterStatus.offers = e.offers := rfl
@[simp] theorem Env.afterStatus_buf (e : Env) : e.afterStatus.buf = e.buf := rfl
@[simp] theorem Env.afterStatus_bufs (e : Env) : e.afterStatus.bufs = e.bufs := rfl
@[simp] theorem Env.afterStatus_nows (e : Env) : e.afterStatus.nows = e.nows := rfl
@[simp] theorem Env.afterStatus_statuses (e : Env) : e.afterStatus.statuses = e.statuses.tail := rfl

@[simp] theorem chipAnswer_pins (s : State) : (chipAnswer s).env.pins = s.env.pins := by
  obtain h | ⟨v, h⟩ | ⟨-, h⟩ := chipAnswer_cases s <;> simp [h, answerFree, answerFixed, answerStatus]

@[simp] theorem chipAnswer_plan (s : State) : (chipAnswer s).env.plan = s.env.plan := by
  obtain h | ⟨v, h⟩ | ⟨-, h⟩ := chipAnswer_cases s <;> simp [h, answerFree, answerFixed, answerStatus]

@[simp] theorem chipAnswer_offers (s : State) : (chipAnswer s).env.offers = s.env.offers := by
  obtain h | ⟨v, h⟩ | ⟨-, h⟩ := chipAnswer_cases s <;> simp [h, answerFree, answerFixed, answerStatus]

@[simp] theorem chipAnswer_buf (s : State) : (chipAnswer s).env.buf = s.env.buf := by
  obtain h | ⟨v, h⟩ | ⟨-, h⟩ := chipAnswer_cases s <;> simp [h, answerFree, answerFixed, answerStatus]

@[simp] theorem chipAnswer_bufs (s : State) : (chipAnswer s).env.bufs = s.env.bufs := by
  obtain h | ⟨v, h⟩ | ⟨-, h⟩ := chipAnswer_cases s <;> simp [h, answerFree, answerFixed, answerStatus]

@[simp] theorem chipAnswer_nows (s : State) : (chipAnswer s).env.nows = s.env.nows := by
  obtain h | ⟨v, h⟩ | ⟨-, h⟩ := chipAnswer_cases s <;> simp [h, answerFree, answerFixed, answerStatus]

/-- The data phase of a Read Status answers the status. -/
theorem chipAnswer_status {s : State} (h : s.chip.frame = some [opRdsr]) : chipAnswer s = answerStatus s := by
  simp [chipAnswer, h]

/-- Outside the answering phases the byte is free and only the draw counter moves. -/
theorem chipAnswer_quiet {s : State}
    (h : s.chip.frame = none ∨ s.chip.frame = some [] ∨
      ∃ b args, s.chip.frame = some (b :: args) ∧ b ≠ opRdsr ∧ b ≠ opRead ∧ b ≠ opRdid) :
    chipAnswer s = answerFree s := by
  obtain h | h | ⟨b, args, h, h1, h2, h3⟩ := h
  · simp [chipAnswer, h]
  · simp [chipAnswer, h]
  · simp [chipAnswer, h, h1, h2, h3]

/-! ### The chip reacts -/

@[simp] theorem Chip.execute_flash (c : Chip) (m : Memory) : (c.execute m).flash = m := rfl
@[simp] theorem Chip.execute_wip (c : Chip) (m : Memory) : (c.execute m).wip = true := rfl
@[simp] theorem Chip.execute_told (c : Chip) (m : Memory) : (c.execute m).told = none := rfl
@[simp] theorem Chip.execute_wel (c : Chip) (m : Memory) : (c.execute m).wel = c.wel := rfl
@[simp] theorem Chip.execute_prot (c : Chip) (m : Memory) : (c.execute m).prot = c.prot := rfl
@[simp] theorem Chip.surprise_flash (c : Chip) (m : Memory) : (c.surprise m).flash = m := rfl
@[simp] theorem Chip.surprise_wip (c : Chip) (m : Memory) : (c.surprise m).wip = true := rfl
@[simp] theorem Chip.surprise_told (c : Chip) (m : Memory) : (c.surprise m).told = none := rfl
@[simp] theorem Chip.surprise_wel (c : Chip) (m : Memory) : (c.surprise m).wel = .unknown := rfl
@[simp] theorem Chip.surprise_prot (c : Chip) (m : Memory) : (c.surprise m).prot = c.prot := rfl
@[simp] theorem Chip.writeEnable_flash (c : Chip) : c.writeEnable.flash = c.flash := rfl
@[simp] theorem Chip.writeEnable_told (c : Chip) : c.writeEnable.told = c.told := rfl
@[simp] theorem Chip.writeEnable_wip (c : Chip) : c.writeEnable.wip = c.wip := rfl
@[simp] theorem Chip.writeEnable_prot (c : Chip) : c.writeEnable.prot = c.prot := rfl
@[simp] theorem Chip.writeStatus_flash (c : Chip) (v : Byte) : (c.writeStatus v).flash = c.flash := rfl

/-- A frame of the given kind is the reaction of that kind (R64). -/
theorem chipReact_wren (s : State) :
    chipReact [opWren] s = { chip := s.chip.writeEnable, draws := s.draws } := rfl

theorem chipReact_rdsr (args : List Byte) (s : State) : chipReact (opRdsr :: args) s = reactNone s := rfl

theorem chipReact_read (args : List Byte) (s : State) : chipReact (opRead :: args) s = reactNone s := rfl

theorem chipReact_rdid (args : List Byte) (s : State) : chipReact (opRdid :: args) s = reactNone s := rfl

theorem chipReact_wrsr (v : Byte) (s : State) :
    chipReact [opWrsr, v] s = { chip := s.chip.writeStatus v, draws := s.draws } := rfl

theorem chipReact_ce (s : State) : chipReact [opCe] s = reactEraseAll s := rfl

theorem addrOfBytes_bytes (a : FlashAddr) : addrOfBytes (addrHigh a) (addrMid a) (addrLow a) = a := by
  unfold addrOfBytes addrHigh addrMid addrLow
  rw [BitVec.extractLsb'_append_extractLsb'_eq_extractLsb' (by omega),
    BitVec.extractLsb'_append_extractLsb'_eq_extractLsb' (by omega)]
  simp

theorem chipReact_pp (a : FlashAddr) (d : Byte) (ds : List Byte) (s : State) :
    chipReact (addressedFrame opPp a (d :: ds)) s = reactProgram a (d :: ds) s := by
  conv => rhs; rw [← addrOfBytes_bytes a]
  rfl

theorem chipReact_se (a : FlashAddr) (s : State) :
    chipReact (addressedFrame opSe a []) s = reactErase a s := by
  conv => rhs; rw [← addrOfBytes_bytes a]
  rfl

theorem reactProgram_wf (a : FlashAddr) (ds : List Byte) (s : State) (h : s.chip.flash.wf = true) :
    (reactProgram a ds s).chip.flash.wf = true := by
  unfold reactProgram
  split
  · rw [Chip.execute_flash]; exact programBytes_wf a ds 0 _ h
  · rw [Chip.surprise_flash]; exact scramblePage_wf a _ _ h

theorem reactErase_wf (a : FlashAddr) (s : State) (h : s.chip.flash.wf = true) :
    (reactErase a s).chip.flash.wf = true := by
  unfold reactErase
  split
  · rw [Chip.execute_flash]; exact eraseBlock_wf a _ h
  · rfl

theorem reactEraseAll_wf (s : State) : (reactEraseAll s).chip.flash.wf = true := by
  unfold reactEraseAll
  split <;> rfl

/-- No frame breaks the canonical form of the flash. -/
theorem chipReact_wf (f : List Byte) (s : State) (h : s.chip.flash.wf = true) :
    (chipReact f s).chip.flash.wf = true := by
  unfold chipReact
  repeat' split
  all_goals first
    | with_reducible exact h
    | with_reducible exact reactProgram_wf _ _ s h
    | with_reducible exact reactErase_wf _ s h
    | with_reducible exact reactEraseAll_wf s
    | exact h

theorem frameEffect_wf (s : State) (h : s.chip.flash.wf = true) : (frameEffect s).chip.flash.wf = true :=
  chipReact_wf _ _ (by simpa using h)

theorem cutEffect_wf (s : State) (h : s.chip.flash.wf = true) : (cutEffect s).chip.flash.wf = true := by
  unfold cutEffect
  rw [Chip.surprise_flash]
  exact scramblePage_wf _ _ _ h

theorem dropEffect_wf (s : State) (h : s.chip.flash.wf = true) : (dropEffect s).chip.flash.wf = true := by
  unfold dropEffect
  repeat' split
  all_goals first
    | with_reducible exact cutEffect_wf s h
    | exact h

/-- What a reset does to the chip: nothing but to cut a Page Program off or to leave WEL open (R159, log 10). -/
theorem dropEffect_cases (s : State) :
    (dropEffect s = reactNone s) ∨
      (s.csN = false ∧ (∃ q, s.phase = .busy (.chunkPp q)) ∧ dropEffect s = cutEffect s) ∨
      (s.csN = false ∧ (∀ q, s.phase ≠ .busy (.chunkPp q)) ∧
        dropEffect s = { chip := { s.chip with wel := .unknown }, draws := s.draws }) := by
  unfold dropEffect
  cases hc : s.csN
  · simp only [Bool.false_eq_true, if_false]
    split
    · exact .inr (.inl ⟨trivial, ⟨_, by assumption⟩, rfl⟩)
    · rename_i h; exact .inr (.inr ⟨trivial, by simp [h], rfl⟩)
    · rename_i h; exact .inr (.inr ⟨trivial, by simp [h], rfl⟩)
    · exact .inl rfl
  · exact .inl rfl

theorem dropEffect_of_high {s : State} (h : s.csN = true) : dropEffect s = reactNone s := by
  simp [dropEffect, h]

@[simp] theorem cutEffect_flash (s : State) :
    (cutEffect s).chip.flash = scramblePage s.curAddr s.draws s.chip.flash := rfl
@[simp] theorem cutEffect_prot (s : State) : (cutEffect s).chip.prot = s.chip.prot := rfl
@[simp] theorem reactNone_chip (s : State) : (reactNone s).chip = s.chip := rfl
@[simp] theorem reactNone_draws (s : State) : (reactNone s).draws = s.draws := rfl

/-! ### The pins of a step -/

/-- Fixed pins: a step begins with the inputs as they are. -/
theorem Env.tick_of_plan_nil {e : Env} (h : e.plan = []) : e.tick = e := by
  unfold Env.tick
  simp [h]

@[simp] theorem Env.tick_offers (e : Env) : e.tick.offers = e.offers := by
  unfold Env.tick; split <;> rfl

@[simp] theorem Env.tick_buf (e : Env) : e.tick.buf = e.buf := by
  unfold Env.tick; split <;> rfl

@[simp] theorem Env.tick_bufs (e : Env) : e.tick.bufs = e.bufs := by
  unfold Env.tick; split <;> rfl

@[simp] theorem Env.tick_statuses (e : Env) : e.tick.statuses = e.statuses := by
  unfold Env.tick; split <;> rfl

@[simp] theorem Env.tick_nows (e : Env) : e.tick.nows = e.nows := by
  unfold Env.tick; split <;> rfl

/-! ### The abort check -/

theorem checked_of_abort {p : Point} {s : State} {f : State → State} (h : s.env.pins.abort = true) :
    checked p s f = takeAbort p s := by
  simp [checked, State.abortSeen, h]

theorem checked_of_no_abort {p : Point} {s : State} {f : State → State} (h : s.env.pins.abort = false) :
    checked p s f = f s := by
  simp [checked, State.abortSeen, h]

/-- The abort check: the abort, or the event. -/
theorem checked_cases (p : Point) (s : State) (f : State → State) :
    (s.env.pins.abort = true ∧ checked p s f = takeAbort p s) ∨
      (s.env.pins.abort = false ∧ checked p s f = f s) := by
  cases h : s.env.pins.abort
  · exact .inr ⟨rfl, checked_of_no_abort h⟩
  · exact .inl ⟨rfl, checked_of_abort h⟩

/-- Taking an abort is a response, or a `CS(1)` after which the response is due. -/
theorem takeAbort_cases (p : Point) (s : State) :
    (s.csN = true ∧ takeAbort p s = respond .errAborted s) ∨
      (s.csN = false ∧ p.ppUnfinished = true ∧ takeAbort p s = (csHighCut s).goto .respondAborted) ∨
      (s.csN = false ∧ p.ppUnfinished = false ∧ takeAbort p s = (csHigh s).goto .respondAborted) := by
  unfold takeAbort
  cases h : s.csN <;> cases h' : p.ppUnfinished <;> simp

/-! ### Which primitive a busy step performs -/

/-- `t` is `s` but for the registers no event primitive writes: `phase`, the chunk registers, `sr_latch` and
`last_log_ts`. -/
def SameBus (s t : State) : Prop :=
  t.op = s.op ∧ t.csN = s.csN ∧ t.ports = s.ports ∧ t.trace = s.trace ∧ t.swTrace = s.swTrace ∧
    t.chip = s.chip ∧ t.env = s.env ∧ t.draws = s.draws ∧ t.params = s.params

theorem SameBus.rfl' (s : State) : SameBus s s := ⟨rfl, rfl, rfl, rfl, rfl, rfl, rfl, rfl, rfl⟩

/-- The states one event primitive can lead to (R16). -/
inductive Primitive (s : State) : State → Prop where
  | csLow : Primitive s (csLow s)
  | csHigh : Primitive s (csHigh s)
  | csHighCut : Primitive s (csHighCut s)
  | xfer (tx : Byte) : Primitive s (xfer tx s)
  | bufRead (i : Count) : Primitive s (bufRead i s)
  | log (v : Byte) : Primitive s (logEvent v s)
  | now : Primitive s (sampleNow s)
  | respond (code : RspCode) : Primitive s (respond code s)

/-- `t` is one event after `s`, the registers of `SameBus` aside. -/
def OneEvent (s t : State) : Prop := ∃ u, Primitive s u ∧ SameBus u t

theorem OneEvent.of (s : State) {u t : State} (h : Primitive s u) (h' : SameBus u t) : OneEvent s t := ⟨u, h, h'⟩

theorem sameBus_goto (s : State) (p : Point) : SameBus s (s.goto p) :=
  ⟨rfl, rfl, rfl, rfl, rfl, rfl, rfl, rfl, rfl⟩

theorem sameBus_chunkHead (s : State) : SameBus s (chunkHead s) := by
  unfold chunkHead
  split <;> exact ⟨rfl, rfl, rfl, rfl, rfl, rfl, rfl, rfl, rfl⟩

theorem takeAbort_oneEvent (p : Point) (s : State) : OneEvent s (takeAbort p s) := by
  obtain ⟨-, h⟩ | ⟨-, -, h⟩ | ⟨-, -, h⟩ := takeAbort_cases p s <;> rw [h]
  · exact .of s (.respond _) (.rfl' _)
  · exact .of s .csHighCut (sameBus_goto _ _)
  · exact .of s .csHigh (sameBus_goto _ _)

theorem checked_oneEvent (p : Point) (s : State) (f : State → State) (h : OneEvent s (f s)) :
    OneEvent s (checked p s f) := by
  obtain ⟨-, e⟩ | ⟨-, e⟩ := checked_cases p s f <;> rw [e]
  · exact takeAbort_oneEvent p s
  · exact h

theorem SameBus.trans' {s t u : State} (h : SameBus s t) (h' : SameBus t u) : SameBus s u := by
  obtain ⟨a1, a2, a3, a4, a5, a6, a7, a8, a9⟩ := h
  obtain ⟨b1, b2, b3, b4, b5, b6, b7, b8, b9⟩ := h'
  exact ⟨b1.trans a1, b2.trans a2, b3.trans a3, b4.trans a4, b5.trans a5, b6.trans a6, b7.trans a7, b8.trans a8,
    b9.trans a9⟩

theorem readSrStep_oneEvent (at' : SrPoint → Point) (done : Byte → State → State)
    (hd : ∀ v t, SameBus t (done v t)) (p : SrPoint) (s : State) : OneEvent s (readSrStep at' done p s) := by
  apply checked_oneEvent
  cases p with
  | cs0 => exact .of s .csLow (sameBus_goto _ _)
  | opcode => exact .of s (.xfer _) (sameBus_goto _ _)
  | data => exact .of s (.xfer _) (sameBus_goto _ _)
  | cs1 v =>
    exact .of s .csHigh
      (SameBus.trans' (t := { csHigh s with srLatch := v }) ⟨rfl, rfl, rfl, rfl, rfl, rfl, rfl, rfl, rfl⟩ (hd v _))

theorem gateStep_oneEvent (at' : GatePoint → Point) (done : State → State) (hd : ∀ t, SameBus t (done t))
    (p : GatePoint) (s : State) : OneEvent s (gateStep at' done p s) := by
  cases p with
  | poll q =>
    refine readSrStep_oneEvent _ _ (fun v t => ?_) q s
    split
    · exact sameBus_goto _ _
    · exact hd t
  | now =>
    refine checked_oneEvent _ _ _ ?_
    show OneEvent s (if _ then _ else _)
    split
    · exact .of s .now (sameBus_goto _ _)
    · exact .of s .now (sameBus_goto _ _)
  | log t =>
    refine checked_oneEvent _ _ _ ?_
    exact .of s (.log s.srLatch) ⟨rfl, rfl, rfl, rfl, rfl, rfl, rfl, rfl, rfl⟩

theorem wrenStep_oneEvent (at' : WrenPoint → Point) (done : State → State) (hd : ∀ t, SameBus t (done t))
    (p : WrenPoint) (s : State) : OneEvent s (wrenStep at' done p s) := by
  apply checked_oneEvent
  cases p with
  | cs0 => exact .of s .csLow (sameBus_goto _ _)
  | opcode => exact .of s (.xfer _) (sameBus_goto _ _)
  | cs1 => exact .of s .csHigh (hd _)

theorem ppStep_oneEvent {p : PpPoint} {s t : State} (h : ppStep p s = .next t) : OneEvent s t := by
  cases p with
  | cs0 =>
    simp only [ppStep] at h
    split at h
    · cases h; exact checked_oneEvent _ _ _ (.of s .csLow (sameBus_goto _ _))
    · cases h
  | opcode => cases h; exact checked_oneEvent _ _ _ (.of s (.xfer _) (sameBus_goto _ _))
  | addrHigh => cases h; exact checked_oneEvent _ _ _ (.of s (.xfer _) (sameBus_goto _ _))
  | addrMid => cases h; exact checked_oneEvent _ _ _ (.of s (.xfer _) (sameBus_goto _ _))
  | addrLow => cases h; exact checked_oneEvent _ _ _ (.of s (.xfer _) (sameBus_goto _ _))
  | bufRead j => cases h; exact checked_oneEvent _ _ _ (.of s (.bufRead _) (sameBus_goto _ _))
  | data j d => cases h; exact checked_oneEvent _ _ _ (.of s (.xfer _) (sameBus_goto _ _))
  | cs1 => cases h; exact checked_oneEvent _ _ _ (.of s .csHigh (sameBus_goto _ _))

/-- A busy block's step is one event primitive (R4, R16). -/
theorem advance_oneEvent {p : Point} {s t : State} (h : advance p s = .next t) : OneEvent s t := by
  cases p with
  | readStatus q => cases h; exact readSrStep_oneEvent _ _ (fun _ t => sameBus_goto _ _) q s
  | waitReady q => cases h; exact gateStep_oneEvent _ _ (fun t => sameBus_goto _ _) q s
  | enableWren q => cases h; exact wrenStep_oneEvent _ _ (fun t => sameBus_goto _ _) q s
  | enableGate q => cases h; exact gateStep_oneEvent _ _ (fun t => sameBus_goto _ _) q s
  | chunkWren q => cases h; exact wrenStep_oneEvent _ _ (fun t => sameBus_goto _ _) q s
  | chunkGate1 q => cases h; exact gateStep_oneEvent _ _ (fun t => sameBus_goto _ _) q s
  | chunkGate2 q => cases h; exact gateStep_oneEvent _ _ (fun t => sameBus_goto _ _) q s
  | chunkPp q => exact ppStep_oneEvent h
  | chunkGate3 q =>
    cases h
    refine gateStep_oneEvent _ _ (fun t => ?_) q s
    exact SameBus.trans' (t := chunkAdvance t) ⟨rfl, rfl, rfl, rfl, rfl, rfl, rfl, rfl, rfl⟩ (sameBus_chunkHead _)
  | respondOk => cases h; exact .of s (.respond _) (.rfl' _)
  | respondAborted => cases h; exact .of s (.respond _) (.rfl' _)

/-- A busy block refuses nothing. -/
theorem advance_not_refused (p : Point) (s : State) (r : Refusal) : advance p s ≠ .refused r := by
  cases p <;> intro h <;> try cases h
  rename_i q
  cases q <;> simp only [advance, ppStep] at h <;> try cases h
  split at h <;> cases h

/-- The only fault is the assertion of a Page Program's first step (R147). -/
theorem advance_fault {p : Point} {s : State} {r : Fault} (h : advance p s = .fault r) :
    p = .chunkPp .cs0 ∧ chunkFits s.curAddr s.chunkLen = false ∧ r = .boundaryViolation := by
  cases p <;> try (solve | cases h)
  rename_i q
  cases q <;> simp only [advance, ppStep] at h <;> try (solve | cases h)
  split at h
  · cases h
  · cases h; simp_all

end Sys2Proof.Machine
end

