-- ==== Sys2Proof/Laws/Run.lean ====
section
/-! SUPPORT. Runs: how steps compose, and what a step is in each phase. -/

namespace Sys2Proof.Machine

theorem reaches_zero (s : State) : Reaches 0 s s := rfl

theorem reaches_succ {k : Nat} {s t u : State} (h : step s = .next t) (h' : Reaches k t u) :
    Reaches (k + 1) s u := by
  have e : Sys2Proof.core.step s = .next t := h
  unfold Reaches
  simp only [Host.Core.run, e]
  exact h'

theorem reaches_one {s t : State} (h : step s = .next t) : Reaches 1 s t := reaches_succ h (reaches_zero t)

/-- A run's first step. -/
theorem reaches_succ_inv {k : Nat} {s u : State} (h : Reaches (k + 1) s u) :
    ∃ t, step s = .next t ∧ Reaches k t u := by
  have e : Sys2Proof.core.step s = step s := rfl
  cases hs : step s with
  | next t =>
    refine ⟨t, rfl, ?_⟩
    unfold Reaches at h
    simp only [Host.Core.run, e, hs] at h
    exact h
  | fault r => unfold Reaches at h; simp only [Host.Core.run, e, hs] at h; cases h
  | refused r => unfold Reaches at h; simp only [Host.Core.run, e, hs] at h; cases h

/-- Runs compose. -/
theorem reaches_add {m : Nat} : ∀ {n : Nat} {s t u : State}, Reaches n s t → Reaches m t u → Reaches (n + m) s u
  | 0, s, t, u, h, h' => by
    cases (show Host.Outcome.next s = Host.Outcome.next t from h)
    simpa using h'
  | n + 1, s, t, u, h, h' => by
    obtain ⟨v, hv, hr⟩ := reaches_succ_inv h
    rw [Nat.succ_add]
    exact reaches_succ hv (reaches_add hr h')

/-! ### One step in each phase -/

theorem tick_env_of_calm {s : State} (h : s.calm) : s.tick.env = s.env := Env.tick_of_plan_nil h.2.2

theorem tick_calm {s : State} (h : s.calm) : s.tick.calm := by
  unfold State.calm
  rw [tick_env_of_calm h]
  exact h

/-- A busy block with reset released performs its next event. -/
theorem step_busy {s : State} {p : Point} (hr : s.env.tick.pins.rstN = true) (hp : s.phase = .busy p) :
    step s = advance p s.tick := by
  simp [step, stepNow, hr, hp]

theorem step_busy_calm {s : State} {p : Point} (h : s.calm) (hp : s.phase = .busy p) :
    step s = advance p s.tick :=
  step_busy (by rw [Env.tick_of_plan_nil h.2.2]; exact h.1) hp

/-- An idle block with reset released takes its next offer. -/
theorem step_idle {s : State} (hr : s.env.tick.pins.rstN = true) (hp : s.phase = .idle) :
    step s = idleStep s.tick := by
  simp [step, stepNow, hr, hp]

/-- With `rst_n = 0` the step is the reset. -/
theorem step_reset {s : State} (hr : s.env.tick.pins.rstN = false) : step s = .next (resetBlock s.tick) := by
  simp [step, stepNow, hr]

/-- A step begins by the reset, by a busy block's event, or by the next offer. -/
theorem step_cases (s : State) :
    (s.env.tick.pins.rstN = false ∧ step s = .next (resetBlock s.tick)) ∨
      (s.env.tick.pins.rstN = true ∧ ∃ p, s.phase = .busy p ∧ step s = advance p s.tick) ∨
      (s.env.tick.pins.rstN = true ∧ s.phase = .idle ∧ step s = idleStep s.tick) := by
  cases hr : s.env.tick.pins.rstN
  · exact .inl ⟨rfl, step_reset hr⟩
  · cases hp : s.phase with
    | idle => exact .inr (.inr ⟨rfl, rfl, step_idle hr hp⟩)
    | busy p => exact .inr (.inl ⟨rfl, p, rfl, step_busy hr hp⟩)

/-! ### What a request or a frame does -/

/-- Accepting a request leaves all but the registers it writes: no event comes first (R108). -/
theorem sameBus_accept (op : Nibble) (s : State) :
    SameBus { s with op := op } (accept op s) := ⟨rfl, rfl, rfl, rfl, rfl, rfl, rfl, rfl, rfl⟩

theorem swXfer_foldl_block (bytes : List Byte) :
    ∀ s : State, SameBlock s (bytes.foldl swXfer s) ∧ (bytes.foldl swXfer s).chip.flash = s.chip.flash ∧
      (bytes.foldl swXfer s).chip.frame = s.chip.frame.map (· ++ bytes) ∧ SameInputs s (bytes.foldl swXfer s) := by
  induction bytes with
  | nil => intro s; simp [SameBlock, SameInputs]
  | cons b bs ih =>
    intro s
    obtain ⟨h1, h2, h3, h4⟩ := ih (swXfer s b)
    simp only [List.foldl_cons]
    refine ⟨by simpa [SameBlock] using h1, by simpa using h2, ?_, by simpa [SameInputs] using h4⟩
    rw [h3]
    simp [Option.map_map, Function.comp_def]

/-- A software frame leaves the block alone (R131). -/
theorem swTransaction_block (bytes : List Byte) (s : State) : SameBlock s (swTransaction bytes s) := by
  have h := (swXfer_foldl_block bytes (swSelect s)).1
  simpa [SameBlock, swTransaction] using h

/-- What the chip does with a software frame is its reaction to those bytes, from the state at the frame's end, settled. -/
theorem swTransaction_chip (bytes : List Byte) (s : State) :
    (swTransaction bytes s).chip =
      (chipReact bytes
        { bytes.foldl swXfer (swSelect s) with
          chip := (bytes.foldl swXfer (swSelect s)).chip.settle }).chip.deselect := by
  have h := (swXfer_foldl_block bytes (swSelect s)).2.2.1
  simp [swTransaction, frameEffect, h]

/-- The inputs a software frame leaves. -/
theorem swTransaction_inputs (bytes : List Byte) (s : State) : SameInputs s (swTransaction bytes s) := by
  have h := (swXfer_foldl_block bytes (swSelect s)).2.2.2
  simpa [SameInputs, swTransaction] using h

/-- A frame on a free bus. -/
theorem onBus_free {bytes : List Byte} {s : State} (h : s.busLock = false) :
    onBus bytes s = .next (swTransaction bytes s) := by simp [onBus, h]

/-- A frame on a locked bus is refused (I13). -/
theorem onBus_locked {bytes : List Byte} {s : State} (h : s.busLock = true) :
    onBus bytes s = .refused .busLocked := by simp [onBus, h]

end Sys2Proof.Machine
end

