-- ==== Sys2Proof/Laws/Requests.lean ====
section
/-! SUPPORT. What taking a request does, one equation a request, the field extractions of the request word, and the chunk
length as a number. -/

namespace Sys2Proof.Machine

theorem whenReady_ready {s : State} {f : State → State} (h : s.reqReady = true) : whenReady s f = .next (f s) := by
  simp [whenReady, h]

theorem whenReady_busy {s : State} {f : State → State} (h : s.reqReady = false) : whenReady s f = .next s := by
  simp [whenReady, h]

theorem execWrite_ready {s : State} (a : FlashAddr) (len : Count) (h : s.reqReady = true) :
    exec (.write a len) s =
      .next (chunkHead
        { accept 0x1 s with curAddr := a, bufOff := 0, remaining := len, env := s.env.takeBuffer }) := by
  simp only [exec, execWrite, whenReady_ready h]

theorem execWaitReady_ready {s : State} (a : FlashAddr) (len : Count) (h : s.reqReady = true) :
    exec (.waitReady a len) s = .next ((accept 0x2 s).goto (.waitReady GatePoint.start)) := by
  simp only [exec, execWaitReady, whenReady_ready h]

theorem execReadStatus_ready {s : State} (a : FlashAddr) (len : Count) (h : s.reqReady = true) :
    exec (.readStatus a len) s = .next ((accept 0x3 s).goto (.readStatus .cs0)) := by
  simp only [exec, execReadStatus, whenReady_ready h]

theorem execWriteEnable_ready {s : State} (a : FlashAddr) (len : Count) (h : s.reqReady = true) :
    exec (.writeEnable a len) s = .next ((accept 0x4 s).goto (.enableWren .cs0)) := by
  simp only [exec, execWriteEnable, whenReady_ready h]

theorem execReservedRequest_ready {s : State} (op rsv : Nibble) (a : FlashAddr) (len : Count)
    (h : s.reqReady = true) :
    exec (.reservedRequest op rsv a len) s = .next (respond .errBadOp (accept op s)) := by
  simp only [exec, execReservedRequest, whenReady_ready h]

/-! ### Request word fields -/

theorem wordOp_requestWord (op rsv : Nibble) (a : FlashAddr) (len : Count) :
    wordOp (requestWord op rsv a len) = op :=
  (BitVec.extractLsb'_append_eq_of_le (xhi := op ++ rsv ++ a) (by omega)).trans
    ((BitVec.extractLsb'_append_eq_of_le (xhi := op ++ rsv) (by omega)).trans BitVec.extractLsb'_append_eq_left)

theorem wordRsv_requestWord (op rsv : Nibble) (a : FlashAddr) (len : Count) :
    wordRsv (requestWord op rsv a len) = rsv :=
  (BitVec.extractLsb'_append_eq_of_le (xhi := op ++ rsv ++ a) (by omega)).trans
    ((BitVec.extractLsb'_append_eq_of_le (xhi := op ++ rsv) (by omega)).trans BitVec.extractLsb'_append_eq_right)

theorem wordAddr_requestWord (op rsv : Nibble) (a : FlashAddr) (len : Count) :
    wordAddr (requestWord op rsv a len) = a :=
  (BitVec.extractLsb'_append_eq_of_le (xhi := op ++ rsv ++ a) (by omega)).trans BitVec.extractLsb'_append_eq_right

theorem wordLen_requestWord (op rsv : Nibble) (a : FlashAddr) (len : Count) :
    wordLen (requestWord op rsv a len) = len := BitVec.extractLsb'_append_eq_right

/-- A request word is its four fields (R71). -/
theorem requestWord_fields (w : RequestWord) :
    requestWord (wordOp w) (wordRsv w) (wordAddr w) (wordLen w) = w := by
  unfold requestWord wordOp wordRsv wordAddr wordLen
  rw [BitVec.extractLsb'_append_extractLsb'_eq_extractLsb' (by omega),
    BitVec.extractLsb'_append_extractLsb'_eq_extractLsb' (by omega),
    BitVec.extractLsb'_append_extractLsb'_eq_extractLsb' (by omega)]
  exact BitVec.extractLsb'_eq_self

theorem addrHigh_addrOfBytes (h m l : Byte) : addrHigh (addrOfBytes h m l) = h :=
  (BitVec.extractLsb'_append_eq_of_le (xhi := h ++ m) (by omega)).trans BitVec.extractLsb'_append_eq_left

theorem addrMid_addrOfBytes (h m l : Byte) : addrMid (addrOfBytes h m l) = m :=
  (BitVec.extractLsb'_append_eq_of_le (xhi := h ++ m) (by omega)).trans BitVec.extractLsb'_append_eq_right

theorem addrLow_addrOfBytes (h m l : Byte) : addrLow (addrOfBytes h m l) = l :=
  BitVec.extractLsb'_append_eq_right

/-- The op and reserved fields lie in the top byte of the word (R71). -/
theorem wordOp_topByte (w : RequestWord) : wordOp w = (w.extractLsb' 56 8).extractLsb' 4 4 := by
  unfold wordOp
  ext i hi
  simp [show 4 + i < 8 by omega, show 56 + (4 + i) = 60 + i by omega]

theorem wordRsv_topByte (w : RequestWord) : wordRsv w = (w.extractLsb' 56 8).extractLsb' 0 4 := by
  unfold wordRsv
  ext i hi
  simp [show i < 8 by omega]

/-! ### The chunk length as a number (R109) -/

theorem pageOffset_toNat (a : FlashAddr) : (pageOffset a).toNat = a.toNat % 256 := by
  simp [pageOffset]

theorem room_toNat (a : FlashAddr) : (room a).toNat = 256 - (pageOffset a).toNat := by
  have h := (pageOffset a).isLt
  simp only [room, BitVec.toNat_sub, BitVec.toNat_setWidth, BitVec.toNat_ofNat]
  omega

theorem chunkLenFor_toNat (r : Count) (a : FlashAddr) :
    (chunkLenFor r a).toNat = min r.toNat (256 - (pageOffset a).toNat) := by
  have h := (pageOffset a).isLt
  have hr := room_toNat a
  unfold chunkLenFor
  split
  · rename_i hle
    rw [BitVec.le_def, BitVec.toNat_setWidth] at hle
    rw [BitVec.toNat_setWidth]
    omega
  · rename_i hle
    rw [BitVec.le_def, BitVec.toNat_setWidth] at hle
    omega

/-- The length R109 gives meets the assertion of PP_TXN (R121). -/
theorem chunkFits_chunkLenFor {r : Count} (a : FlashAddr) (h : r ≠ 0) : chunkFits a (chunkLenFor r a) = true := by
  have hr : r.toNat ≠ 0 := fun e => h (BitVec.eq_of_toNat_eq (by simpa using e))
  have ho := (pageOffset a).isLt
  simp only [chunkFits, chunkLenFor_toNat, Bool.and_eq_true, decide_eq_true_eq]
  omega

theorem chunkOk_fits {s : State} (h : chunkOk s) : chunkFits s.curAddr s.chunkLen = true := by
  rw [h.2.1]
  exact chunkFits_chunkLenFor _ h.1

theorem chunkOk_len_le {s : State} (h : chunkOk s) : s.chunkLen.toNat ≤ s.remaining.toNat := by
  rw [h.2.1, chunkLenFor_toNat]
  omega

theorem chunkOk_len_pos {s : State} (h : chunkOk s) : 1 ≤ s.chunkLen.toNat := by
  have h := chunkOk_fits h
  simp only [chunkFits, Bool.and_eq_true, decide_eq_true_eq] at h
  omega

/-! ### The advance (R114) -/

theorem chunkAdvance_remaining_toNat {s : State} (h : s.chunkLen.toNat ≤ s.remaining.toNat) :
    (chunkAdvance s).remaining.toNat = s.remaining.toNat - s.chunkLen.toNat := by
  have h1 := s.remaining.isLt
  have h2 := s.chunkLen.isLt
  simp only [chunkAdvance_remaining, BitVec.toNat_sub, BitVec.toNat_setWidth]
  omega

theorem chunkAdvance_bufOff_toNat {s : State} (h : s.bufOff.toNat + s.chunkLen.toNat < 2 ^ 32) :
    (chunkAdvance s).bufOff.toNat = s.bufOff.toNat + s.chunkLen.toNat := by
  have h2 := s.chunkLen.isLt
  simp only [chunkAdvance_bufOff, BitVec.toNat_add, BitVec.toNat_setWidth]
  omega

theorem chunkAdvance_curAddr_toNat (s : State) :
    (chunkAdvance s).curAddr.toNat = (s.curAddr.toNat + s.chunkLen.toNat) % 2 ^ 24 := by
  have h2 := s.chunkLen.isLt
  simp only [chunkAdvance_curAddr, BitVec.toNat_add, BitVec.toNat_setWidth]
  omega

/-- The loop head writes only `phase` and `chunk_len`. -/
theorem chunkHead_done {s : State} (h : s.remaining = 0) : chunkHead s = s.goto .respondOk := by
  simp [chunkHead, h]

theorem chunkHead_more {s : State} (h : s.remaining ≠ 0) :
    chunkHead s = { s with chunkLen := chunkLenFor s.remaining s.curAddr }.goto (.chunkWren .cs0) := by
  simp only [chunkHead, if_neg h]

end Sys2Proof.Machine
end

