-- ==== Sys2Proof/Laws/PerInstr.lean ====
section
/-! SUPPORT. The family EncodeMatchesTable, one lemma an instruction: the code `encode` gives lies in the instruction's row
of spec/opcode_table.json, and in no other request row. -/

namespace Sys2Proof.Laws.EncodeMatchesTable

/-- The first byte of a code: the frame's opcode, or bits 63..56 of the request word, which are all the bits the table's
masks keep. -/
def firstByte : Code → Option Byte
  | .frame [] => none
  | .frame (b :: _) => some b
  | .request w => some (w.extractLsb' 56 8)

/-- The four request matches of the table. -/
def requestBytes : List Byte := [0x10, 0x20, 0x30, 0x40]

/-- The code of a well-formed instruction meets its row's `match` under its `mask`; a reserved word meets none. -/
def Statement (i : Instr) : Prop :=
  i.wellFormed = true →
    match i with
    | .wren => firstByte (encode i) = some 0x06
    | .rdsr _ => firstByte (encode i) = some 0x05
    | .pp _ _ => firstByte (encode i) = some 0x02
    | .wrsr _ => firstByte (encode i) = some 0x01
    | .read _ _ => firstByte (encode i) = some 0x03
    | .se _ => firstByte (encode i) = some 0x20
    | .ce => firstByte (encode i) = some 0xC7
    | .rdid _ _ _ => firstByte (encode i) = some 0x9F
    | .write _ _ => firstByte (encode i) = some 0x10
    | .waitReady _ _ => firstByte (encode i) = some 0x20
    | .readStatus _ _ => firstByte (encode i) = some 0x30
    | .writeEnable _ _ => firstByte (encode i) = some 0x40
    | .reservedRequest _ _ _ _ => ∃ b, firstByte (encode i) = some b ∧ b ∉ requestBytes

/-- The top byte of a request word is its opcode and its reserved field. -/
theorem firstByte_requestWord (op rsv : Nibble) (a : FlashAddr) (len : Count) :
    firstByte (.request (requestWord op rsv a len)) = some (op ++ rsv) :=
  congrArg some ((BitVec.extractLsb'_append_eq_of_le (xhi := op ++ rsv ++ a) (by omega)).trans
    ((BitVec.extractLsb'_append_eq_of_le (xhi := op ++ rsv) (by omega)).trans BitVec.extractLsb'_eq_self))

theorem wren : Statement .wren := fun _ => rfl

theorem rdsr (tx : Byte) : Statement (.rdsr tx) := fun _ => rfl

theorem pp (a : FlashAddr) (ds : List Byte) : Statement (.pp a ds) := fun _ => rfl

theorem wrsr (v : Byte) : Statement (.wrsr v) := fun _ => rfl

theorem read (a : FlashAddr) (tx : List Byte) : Statement (.read a tx) := fun _ => rfl

theorem se (a : FlashAddr) : Statement (.se a) := fun _ => rfl

theorem ce : Statement .ce := fun _ => rfl

theorem rdid (x y z : Byte) : Statement (.rdid x y z) := fun _ => rfl

theorem write (a : FlashAddr) (len : Count) : Statement (.write a len) := fun _ => firstByte_requestWord 0x1 0x0 a len

theorem waitReady (a : FlashAddr) (len : Count) : Statement (.waitReady a len) :=
  fun _ => firstByte_requestWord 0x2 0x0 a len

theorem readStatus (a : FlashAddr) (len : Count) : Statement (.readStatus a len) :=
  fun _ => firstByte_requestWord 0x3 0x0 a len

theorem writeEnable (a : FlashAddr) (len : Count) : Statement (.writeEnable a len) :=
  fun _ => firstByte_requestWord 0x4 0x0 a len

theorem reservedRequest (op rsv : Nibble) (a : FlashAddr) (len : Count) : Statement (.reservedRequest op rsv a len) := by
  intro h
  refine ⟨op ++ rsv, firstByte_requestWord op rsv a len, ?_⟩
  have key : ∀ op rsv : Nibble, isReserved op rsv = true → op ++ rsv ∉ requestBytes := by decide
  exact key op rsv h

end Sys2Proof.Laws.EncodeMatchesTable
end

