-- ==== Sys2Proof/Laws/Procedures.lean ====
section
/-! SUPPORT. The procedures point by point: the event at each point when no abort is seen, the abort at each point when
one is, and what a poll and a Write Enable leave when they run whole. -/

namespace Sys2Proof.Machine

/-! ### READ_SR (R85) -/

theorem readSrStep_cs0 {at' : SrPoint → Point} {done : Byte → State → State} {s : State}
    (h : s.env.pins.abort = false) : readSrStep at' done .cs0 s = (csLow s).goto (at' .opcode) :=
  checked_of_no_abort h

theorem readSrStep_opcode {at' : SrPoint → Point} {done : Byte → State → State} {s : State}
    (h : s.env.pins.abort = false) : readSrStep at' done .opcode s = (xfer opRdsr s).goto (at' .data) :=
  checked_of_no_abort h

theorem readSrStep_data {at' : SrPoint → Point} {done : Byte → State → State} {s : State}
    (h : s.env.pins.abort = false) :
    readSrStep at' done .data s = (xfer s.params.dummyTx s).goto (at' (.cs1 (xferRx s))) :=
  checked_of_no_abort h

theorem readSrStep_cs1 {at' : SrPoint → Point} {done : Byte → State → State} {s : State} {v : Byte}
    (h : s.env.pins.abort = false) : readSrStep at' done (.cs1 v) s = done v { csHigh s with srLatch := v } :=
  checked_of_no_abort h

theorem readSrStep_abort {at' : SrPoint → Point} {done : Byte → State → State} {s : State} {q : SrPoint}
    (h : s.env.pins.abort = true) : readSrStep at' done q s = takeAbort (at' q) s :=
  checked_of_abort h

/-! ### GATE (R87) -/

/-- What a gate does when a poll is over: the time check on a busy status, else what the caller does next (R88). -/
theorem gateStep_poll {at' : GatePoint → Point} {done : State → State} {s : State} {q : SrPoint} :
    gateStep at' done (.poll q) s =
      readSrStep (fun q => at' (.poll q)) (fun v t => if isBusyStatus v then t.goto (at' .now) else done t) q s :=
  rfl

theorem gateStep_now {at' : GatePoint → Point} {done : State → State} {s : State} (h : s.env.pins.abort = false) :
    gateStep at' done .now s =
      if logDue s.params (nowValue s) s.lastLogTs then (sampleNow s).goto (at' (.log (nowValue s)))
      else (sampleNow s).goto (at' GatePoint.start) := by
  simp only [gateStep, checked_of_no_abort h]

theorem gateStep_log {at' : GatePoint → Point} {done : State → State} {s : State} {t : Time}
    (h : s.env.pins.abort = false) :
    gateStep at' done (.log t) s = { logEvent s.srLatch s with lastLogTs := t }.goto (at' GatePoint.start) := by
  simp only [gateStep, checked_of_no_abort h]

theorem gateStep_abort {at' : GatePoint → Point} {done : State → State} {s : State} {q : GatePoint}
    (h : s.env.pins.abort = true) : gateStep at' done q s = takeAbort (at' q) s := by
  cases q <;> simp only [gateStep, readSrStep_abort h, checked_of_abort h]

/-- At each place that calls it, a busy step at a gate's point is a gate step. -/
theorem advance_gate (g : GateSite) (q : GatePoint) (s : State) :
    advance (g.point q) s = .next (gateStep g.point g.after q s) := by
  cases g <;> rfl

/-- At a poll it is a step of READ_SR. -/
theorem advance_poll (g : GateSite) (q : SrPoint) (s : State) :
    advance (g.point (.poll q)) s =
      .next (readSrStep (fun q => g.point (.poll q))
        (fun v t => if isBusyStatus v then t.goto (g.point .now) else g.after t) q s) :=
  advance_gate g (.poll q) s

/-! ### WREN_TXN (R100) -/

theorem wrenStep_cs0 {at' : WrenPoint → Point} {done : State → State} {s : State} (h : s.env.pins.abort = false) :
    wrenStep at' done .cs0 s = (csLow s).goto (at' .opcode) :=
  checked_of_no_abort h

theorem wrenStep_opcode {at' : WrenPoint → Point} {done : State → State} {s : State}
    (h : s.env.pins.abort = false) : wrenStep at' done .opcode s = (xfer opWren s).goto (at' .cs1) :=
  checked_of_no_abort h

theorem wrenStep_cs1 {at' : WrenPoint → Point} {done : State → State} {s : State} (h : s.env.pins.abort = false) :
    wrenStep at' done .cs1 s = done (csHigh s) :=
  checked_of_no_abort h

theorem wrenStep_abort {at' : WrenPoint → Point} {done : State → State} {s : State} {q : WrenPoint}
    (h : s.env.pins.abort = true) : wrenStep at' done q s = takeAbort (at' q) s :=
  checked_of_abort h

theorem advance_wren (g : WrenSite) (q : WrenPoint) (s : State) :
    advance (g.point q) s = .next (wrenStep g.point (fun t => t.goto g.gate) q s) := by
  cases g <;> rfl

/-! ### The abort, at every point but RESPOND (R141) -/

theorem advance_abort {p : Point} {s : State} (h : s.env.pins.abort = true) (h1 : p ≠ .respondOk)
    (h2 : p ≠ .respondAborted) (h3 : p = .chunkPp .cs0 → chunkFits s.curAddr s.chunkLen = true) :
    advance p s = .next (takeAbort p s) := by
  cases p <;> simp only [advance, readSrStep_abort h, gateStep_abort h, wrenStep_abort h] <;> try contradiction
  rename_i q
  cases q <;> simp only [ppStep, checked_of_abort h]
  exact if_pos (h3 rfl)

/-! ### The loop head writes `phase` and `chunk_len` only (R107) -/

@[simp] theorem chunkHead_curAddr (s : State) : (chunkHead s).curAddr = s.curAddr := by
  unfold chunkHead; split <;> rfl
@[simp] theorem chunkHead_bufOff (s : State) : (chunkHead s).bufOff = s.bufOff := by
  unfold chunkHead; split <;> rfl
@[simp] theorem chunkHead_remaining (s : State) : (chunkHead s).remaining = s.remaining := by
  unfold chunkHead; split <;> rfl
@[simp] theorem chunkHead_srLatch (s : State) : (chunkHead s).srLatch = s.srLatch := by
  unfold chunkHead; split <;> rfl
@[simp] theorem chunkHead_lastLogTs (s : State) : (chunkHead s).lastLogTs = s.lastLogTs := by
  unfold chunkHead; split <;> rfl
theorem chunkHead_phase (s : State) :
    (chunkHead s).phase = if s.remaining = 0 then .busy .respondOk else .busy (.chunkWren .cs0) := by
  unfold chunkHead; split <;> rfl
theorem chunkHead_chunkLen (s : State) :
    (chunkHead s).chunkLen = if s.remaining = 0 then s.chunkLen else chunkLenFor s.remaining s.curAddr := by
  unfold chunkHead; split <;> rfl
@[simp] theorem chunkHead_op (s : State) : (chunkHead s).op = s.op := (sameBus_chunkHead s).1
@[simp] theorem chunkHead_csN (s : State) : (chunkHead s).csN = s.csN := (sameBus_chunkHead s).2.1
@[simp] theorem chunkHead_ports (s : State) : (chunkHead s).ports = s.ports := (sameBus_chunkHead s).2.2.1
@[simp] theorem chunkHead_trace (s : State) : (chunkHead s).trace = s.trace := (sameBus_chunkHead s).2.2.2.1
@[simp] theorem chunkHead_swTrace (s : State) : (chunkHead s).swTrace = s.swTrace := (sameBus_chunkHead s).2.2.2.2.1
@[simp] theorem chunkHead_chip (s : State) : (chunkHead s).chip = s.chip := (sameBus_chunkHead s).2.2.2.2.2.1
@[simp] theorem chunkHead_env (s : State) : (chunkHead s).env = s.env := (sameBus_chunkHead s).2.2.2.2.2.2.1
@[simp] theorem chunkHead_draws (s : State) : (chunkHead s).draws = s.draws := (sameBus_chunkHead s).2.2.2.2.2.2.2.1
@[simp] theorem chunkHead_params (s : State) : (chunkHead s).params = s.params := (sameBus_chunkHead s).2.2.2.2.2.2.2.2

/-! ### A poll and a Write Enable, whole -/

/-- `s` after a READ_SR that answered the scripted `v`, with `vs` still to come. -/
def polled (v : Byte) (vs : List Byte) (s : State) : State :=
  { s with
    srLatch := v
    csN := true
    ports := Ports.quiet
    trace := s.trace ++
      [.cs false, .xfer opRdsr (Config.freeRx s.draws), .xfer s.params.dummyTx v, .cs true]
    chip := (s.chip.tell v).settle.deselect
    env := { s.env with statuses := vs }
    draws := s.draws + 1 }

/-- `s` in the middle of that READ_SR, before its `CS(1)`. -/
def polling (at' : SrPoint → Point) (v : Byte) (vs : List Byte) (s : State) : State :=
  { s with
    phase := .busy (at' (.cs1 v))
    csN := false
    ports := { Ports.quiet with xfer := some s.params.dummyTx }
    trace := s.trace ++ [.cs false, .xfer opRdsr (Config.freeRx s.draws), .xfer s.params.dummyTx v]
    chip := { s.chip.tell v with frame := some [opRdsr, s.params.dummyTx] }
    env := { s.env with statuses := vs }
    draws := s.draws + 1 }

/-- `s` after a WREN_TXN. -/
def enabled (s : State) : State :=
  { s with
    csN := true
    ports := Ports.quiet
    trace := s.trace ++ [.cs false, .xfer opWren (Config.freeRx s.draws), .cs true]
    chip := s.chip.settle.writeEnable.deselect
    draws := s.draws + 1 }

/-- An exchange outside the answering phases: a free byte comes back (R59). -/
theorem xfer_free {s : State} {f : List Byte} (tx : Byte) (hf : s.chip.frame = some f)
    (hq : f = [] ∨ ∃ b args, f = b :: args ∧ b ≠ opRdsr ∧ b ≠ opRead ∧ b ≠ opRdid) :
    xfer tx s =
      { s with
        ports := { s.ports with xfer := some tx }
        trace := s.trace ++ [.xfer tx (Config.freeRx s.draws)]
        chip := { s.chip with frame := some (f ++ [tx]) }
        draws := s.draws + 1 } := by
  have e : chipAnswer s = answerFree s := chipAnswer_quiet (by
    obtain h | ⟨b, args, h, h'⟩ := hq
    · exact .inr (.inl (hf.trans (congrArg _ h)))
    · exact .inr (.inr ⟨b, args, hf.trans (congrArg _ h), h'⟩))
  simp only [xfer, exchange, xferRx, e, answerFree, State.emit, Chip.take, hf, Option.map_some]

/-- The data phase of a Read Status with a scripted status. -/
theorem xfer_status {s : State} {v : Byte} {vs : List Byte} (tx : Byte) (hf : s.chip.frame = some [opRdsr])
    (hs : s.env.statuses = v :: vs) :
    xferRx s = v ∧ xfer tx s =
      { s with
        ports := { s.ports with xfer := some tx }
        trace := s.trace ++ [.xfer tx v]
        chip := { s.chip.tell v with frame := some [opRdsr, tx] }
        env := { s.env with statuses := vs } } := by
  have e := chipAnswer_status hf
  have hv : statusValue s.env s.draws = v := by simp [statusValue, hs]
  have hd : drawsAfter s.env.statuses s.draws = s.draws := by simp [drawsAfter, hs]
  refine ⟨by simp [xferRx, e, answerStatus, hv], ?_⟩
  simp only [xfer, exchange, xferRx, e, answerStatus, hv, hd, State.emit, Chip.take, Chip.tell_frame, hf,
    Option.map_some, Env.afterStatus, List.cons_append, List.nil_append]
  simp only [hs, List.tail_cons]

/-- READ_SR up to its `CS(1)` (R85). -/
theorem run_polling {at' : SrPoint → Point} {done : Byte → State → State}
    (hadv : ∀ q s, advance (at' q) s = .next (readSrStep at' done q s)) {s : State} {v : Byte} {vs : List Byte}
    (hc : s.calm) (hp : s.phase = .busy (at' .cs0)) (hs : s.env.statuses = v :: vs) :
    Reaches 3 s (polling at' v vs s) := by
  obtain ⟨ph, op, ca, bo, rm, cl, sl, ll, cn, po, tr, sw, ch, en, dr, pa⟩ := s
  obtain ⟨pi, pl, of, bu, bs, st, no⟩ := en
  obtain ⟨h1, h2, h3⟩ := hc
  simp only at h1 h2 h3 hp hs
  subst h3 hp hs
  refine reaches_succ (step_busy_calm ⟨h1, h2, rfl⟩ rfl |>.trans ((hadv _ _).trans
    (congrArg _ (readSrStep_cs0 h2)))) ?_
  refine reaches_succ (step_busy_calm ⟨h1, h2, rfl⟩ rfl |>.trans ((hadv _ _).trans
    (congrArg _ (readSrStep_opcode h2)))) ?_
  rw [xfer_free opRdsr rfl (.inl rfl)]
  refine reaches_one (step_busy_calm ⟨h1, h2, rfl⟩ rfl |>.trans ((hadv _ _).trans
    (congrArg _ ((readSrStep_data h2).trans ?_))))
  generalize hu : State.tick _ = u
  obtain ⟨e1, e2⟩ := xfer_status (s := u) (v := v) (vs := vs) pa.dummyTx (by rw [← hu]; rfl) (by rw [← hu]; rfl)
  have hpa : u.params = pa := by rw [← hu]; rfl
  rw [hpa, e1, e2, ← hu]
  simp only [polling, State.goto, State.tick, csLow, State.emit, Chip.select, Env.tick, Ports.quiet, List.nil_append,
    List.append_assoc, List.cons_append, Chip.tell]

/-- READ_SR's `CS(1)`: a Read Status changes nothing at the chip (R86), the latch gets the status. -/
theorem step_polling {at' : SrPoint → Point} {done : Byte → State → State}
    (hadv : ∀ q s, advance (at' q) s = .next (readSrStep at' done q s)) {s : State} {v : Byte} {vs : List Byte}
    (hc : s.calm) : step (polling at' v vs s) = .next (done v { polled v vs s with phase := .busy (at' (.cs1 v)) }) := by
  obtain ⟨ph, op, ca, bo, rm, cl, sl, ll, cn, po, tr, sw, ch, en, dr, pa⟩ := s
  obtain ⟨pi, pl, of, bu, bs, st, no⟩ := en
  obtain ⟨h1, h2, h3⟩ := hc
  simp only at h1 h2 h3
  subst h3
  refine (step_busy_calm ⟨h1, h2, rfl⟩ rfl).trans ((hadv _ _).trans (congrArg _ ((readSrStep_cs1 h2).trans ?_)))
  congr 1
  simp only [polling, polled, State.tick, csHigh, chipCommit, frameEffect, State.emit, Env.tick, Ports.quiet,
    Option.getD_some, chipReact_rdsr, reactNone, Chip.settle_reframe, Chip.deselect, List.append_assoc, List.cons_append,
    List.nil_append]

/-- READ_SR, whole (R85). -/
theorem run_polled {at' : SrPoint → Point} {done : Byte → State → State}
    (hadv : ∀ q s, advance (at' q) s = .next (readSrStep at' done q s)) {s : State} {v : Byte} {vs : List Byte}
    (hc : s.calm) (hp : s.phase = .busy (at' .cs0)) (hs : s.env.statuses = v :: vs) :
    Reaches 4 s (done v { polled v vs s with phase := .busy (at' (.cs1 v)) }) :=
  reaches_add (n := 3) (run_polling hadv hc hp hs) (reaches_one (step_polling hadv hc))

/-- WREN_TXN, whole (R100). -/
theorem run_enabled {at' : WrenPoint → Point} {done : State → State}
    (hadv : ∀ q s, advance (at' q) s = .next (wrenStep at' done q s)) {s : State}
    (hc : s.calm) (hp : s.phase = .busy (at' .cs0)) :
    Reaches 3 s (done { enabled s with phase := .busy (at' .cs1) }) := by
  obtain ⟨ph, op, ca, bo, rm, cl, sl, ll, cn, po, tr, sw, ch, en, dr, pa⟩ := s
  obtain ⟨pi, pl, of, bu, bs, st, no⟩ := en
  obtain ⟨h1, h2, h3⟩ := hc
  simp only at h1 h2 h3 hp
  subst h3 hp
  refine reaches_succ (step_busy_calm ⟨h1, h2, rfl⟩ rfl |>.trans ((hadv _ _).trans
    (congrArg _ (wrenStep_cs0 h2)))) ?_
  refine reaches_succ (step_busy_calm ⟨h1, h2, rfl⟩ rfl |>.trans ((hadv _ _).trans
    (congrArg _ (wrenStep_opcode h2)))) ?_
  rw [xfer_free opWren rfl (.inl rfl)]
  refine reaches_one (step_busy_calm ⟨h1, h2, rfl⟩ rfl |>.trans ((hadv _ _).trans
    (congrArg _ ((wrenStep_cs1 h2).trans ?_))))
  congr 1
  simp only [enabled, State.goto, State.tick, csLow, csHigh, chipCommit, frameEffect, State.emit, Chip.select,
    Env.tick, Ports.quiet, Option.getD_some, List.nil_append, chipReact_wren, Chip.settle_reframe, Chip.writeEnable,
    Chip.deselect, List.append_assoc, List.cons_append]
  rfl

/-! ### GATE, whole -/

/-- A log is due at the next time sample (R91). -/
def State.due (s : State) : Bool := logDue s.params (nowValue s) s.lastLogTs

/-- `s` after the time check of a busy poll, and the log if one is due (R91). -/
def timed (s : State) : State :=
  { s with
    lastLogTs := if s.due then nowValue s else s.lastLogTs
    ports := { Ports.quiet with log := if s.due then some s.srLatch else none }
    trace := s.trace ++ (.now (nowValue s) :: if s.due then [.log s.srLatch] else [])
    env := { s.env with nows := s.env.nows.tail }
    draws := drawsAfter s.env.nows s.draws }

/-- The time check runs one step, two with a log, to the next poll (R91, R92). -/
theorem run_timed (g : GateSite) {s : State} (hc : s.calm) (hp : s.phase = .busy (g.point .now)) :
    Reaches (if s.due then 2 else 1) s { timed s with phase := .busy (g.point GatePoint.start) } := by
  obtain ⟨ph, op, ca, bo, rm, cl, sl, ll, cn, po, tr, sw, ch, en, dr, pa⟩ := s
  obtain ⟨pi, pl, of, bu, bs, st, no⟩ := en
  obtain ⟨h1, h2, h3⟩ := hc
  simp only at h1 h2 h3 hp
  subst h3 hp
  unfold timed
  cases hl : State.due _ with
  | true =>
    refine reaches_succ ((step_busy_calm ⟨h1, h2, rfl⟩ rfl).trans ((advance_gate _ _ _).trans
      (congrArg _ ((gateStep_now h2).trans (if_pos hl))))) ?_
    refine reaches_one ((step_busy_calm ⟨h1, h2, rfl⟩ rfl).trans ((advance_gate _ _ _).trans
      (congrArg _ ((gateStep_log h2).trans ?_))))
    simp only [State.goto, State.tick, sampleNow, logEvent, State.emit, Env.tick, Ports.quiet, nowValue,
      List.append_assoc, List.cons_append, List.nil_append, if_true]
  | false =>
    exact reaches_one ((step_busy_calm ⟨h1, h2, rfl⟩ rfl).trans ((advance_gate _ _ _).trans
      (congrArg _ ((gateStep_now h2).trans (if_neg (ne_true_of_eq_false hl))))))

/-- `s` after a gate whose polls answer the busy `bs` and then `v`, with `rest` still to come. -/
def gated (v : Byte) (rest : List Byte) : List Byte → State → State
  | [], s => polled v rest s
  | b :: bs, s => gated v rest bs (timed (polled b (bs ++ v :: rest) s))

@[simp] theorem timed_env_statuses (s : State) : (timed s).env.statuses = s.env.statuses := rfl

theorem timed_calm {s : State} (h : s.calm) : (timed s).calm := h

/-- Where a gate goes on does not depend on where it was. -/
theorem GateSite.after_rephase (g : GateSite) (s : State) (p : Phase) : g.after { s with phase := p } = g.after s := by
  cases g <;> rfl

theorem polled_rephase (v : Byte) (vs : List Byte) (s : State) (p : Phase) :
    polled v vs { s with phase := p } = { polled v vs s with phase := p } := rfl

theorem timed_rephase (s : State) (p : Phase) : timed { s with phase := p } = { timed s with phase := p } := rfl

theorem gated_rephase (v : Byte) (rest : List Byte) (p : Phase) :
    ∀ (bs : List Byte) (s : State), gated v rest bs { s with phase := p } = { gated v rest bs s with phase := p }
  | [], _ => rfl
  | b :: bs, s => by
    simp only [gated, polled_rephase, timed_rephase]
    exact gated_rephase v rest p bs _

/-- GATE, whole: it ends at the first ready status and not before (R88, R90). -/
theorem run_gated (g : GateSite) (v : Byte) (rest : List Byte) (hv : isBusyStatus v = false) :
    ∀ (bs : List Byte), (∀ b ∈ bs, isBusyStatus b = true) → ∀ (s : State), s.calm →
      s.phase = .busy (g.point GatePoint.start) → s.env.statuses = bs ++ v :: rest →
      ∃ n, Reaches n s (g.after (gated v rest bs s))
  | [], _, s, hc, hp, hs => by
    have h := run_polled (fun q s => advance_poll g q s) hc hp hs
    simp only [hv, Bool.false_eq_true, if_false, GateSite.after_rephase] at h
    exact ⟨4, h⟩
  | b :: bs, hb, s, hc, hp, hs => by
    have hb1 : isBusyStatus b = true := hb b List.mem_cons_self
    have h := run_polled (fun q s => advance_poll g q s) hc hp hs
    simp only [hb1, if_true] at h
    have h2 := reaches_add h (run_timed g (s := State.goto _ _) (show State.calm _ from hc) rfl)
    obtain ⟨n, hn⟩ := run_gated g v rest hv bs (fun x hx => hb x (List.mem_cons_of_mem _ hx))
      { timed (polled b (bs ++ v :: rest) s) with phase := .busy (g.point GatePoint.start) } hc rfl rfl
    rw [gated_rephase, GateSite.after_rephase] at hn
    exact ⟨_, reaches_add h2 hn⟩

/-! ### PP_TXN, whole -/

/-- A buffer byte depends on the buffer and the request length only (R50, R51). -/
theorem bufByte?_congr {s t : State} (i : Count) (h1 : t.bufOff = s.bufOff) (h2 : t.remaining = s.remaining)
    (h3 : t.env.buf = s.env.buf) : t.bufByte? i = s.bufByte? i := by
  unfold State.bufByte? State.bufLimit
  rw [h1, h2, h3]

theorem bufByte?_tick (s : State) (i : Count) : s.tick.bufByte? i = s.bufByte? i :=
  bufByte?_congr i rfl rfl (Env.tick_buf s.env)

theorem bufValue_tick (s : State) (i : Count) : bufValue i s.tick = bufValue i s := by
  simp only [bufValue, bufByte?_tick, State.tick_draws]

theorem advance_pp_cs0 {s : State} (h : s.env.pins.abort = false) (hf : chunkFits s.curAddr s.chunkLen = true) :
    advance (.chunkPp .cs0) s = .next ((csLow s).goto (.chunkPp .opcode)) := by
  simp only [advance, ppStep, checked_of_no_abort h, hf, if_true]

theorem advance_pp_opcode {s : State} (h : s.env.pins.abort = false) :
    advance (.chunkPp .opcode) s = .next ((xfer opPp s).goto (.chunkPp .addrHigh)) := by
  simp only [advance, ppStep, checked_of_no_abort h]

theorem advance_pp_addrHigh {s : State} (h : s.env.pins.abort = false) :
    advance (.chunkPp .addrHigh) s = .next ((xfer (addrHigh s.curAddr) s).goto (.chunkPp .addrMid)) := by
  simp only [advance, ppStep, checked_of_no_abort h]

theorem advance_pp_addrMid {s : State} (h : s.env.pins.abort = false) :
    advance (.chunkPp .addrMid) s = .next ((xfer (addrMid s.curAddr) s).goto (.chunkPp .addrLow)) := by
  simp only [advance, ppStep, checked_of_no_abort h]

theorem advance_pp_addrLow {s : State} (h : s.env.pins.abort = false) :
    advance (.chunkPp .addrLow) s =
      .next ((xfer (addrLow s.curAddr) s).goto (.chunkPp (ppAfter s.params s.chunkLen 0))) := by
  simp only [advance, ppStep, checked_of_no_abort h]

theorem advance_pp_bufRead {s : State} {j : Nat} (h : s.env.pins.abort = false) :
    advance (.chunkPp (.bufRead j)) s =
      .next ((bufRead (ppIndex s j) s).goto (.chunkPp (.data j (bufValue (ppIndex s j) s)))) := by
  simp only [advance, ppStep, checked_of_no_abort h]

theorem advance_pp_data {s : State} {j : Nat} {d : Byte} (h : s.env.pins.abort = false) :
    advance (.chunkPp (.data j d)) s =
      .next ((xfer d s).goto (.chunkPp (ppAfter s.params s.chunkLen (j + 1)))) := by
  simp only [advance, ppStep, checked_of_no_abort h]

theorem advance_pp_cs1 {s : State} (h : s.env.pins.abort = false) :
    advance (.chunkPp .cs1) s = .next ((csHigh s).goto (.chunkGate3 GatePoint.start)) := by
  simp only [advance, ppStep, checked_of_no_abort h]

/-- What the chip does with a Page Program does not depend on the bytes of the open frame. -/
theorem reactProgram_reframe (a : FlashAddr) (ds : List Byte) (s t : State) (f : Option (List Byte))
    (hc : s.chip = { t.chip with frame := f }) (hp : s.params = t.params) (hd : s.draws = t.draws) :
    (reactProgram a ds s).chip.deselect = (reactProgram a ds t).chip.deselect ∧
      (reactProgram a ds s).draws = (reactProgram a ds t).draws := by
  have ha : s.chip.accepts = t.chip.accepts := by rw [hc]; rfl
  have hf : s.chip.flash = t.chip.flash := by rw [hc]
  unfold reactProgram
  rw [ha, hp, hd, hf]
  split <;> exact ⟨by rw [hc]; rfl, rfl⟩

/-- The data phase of PP_TXN: each byte read, then sent (R112). -/
theorem run_ppData : ∀ (k j : Nat) (s : State) (f : List Byte), s.calm →
    s.phase = .busy (.chunkPp (ppAfter s.params s.chunkLen j)) → j + k = dataCount s.params s.chunkLen →
    s.chip.frame = some (opPp :: f) →
    ∃ ds d evs po, ds.length = k ∧
      (∀ i v, i < k → s.bufByte? (ppIndex s (j + i)) = some v → ds[i]? = some v) ∧
      evs.map Event.outline = dataEvents (ppIndex s j) ds ∧
      Reaches (2 * k) s
        { s with
          phase := .busy (.chunkPp .cs1)
          ports := po
          trace := s.trace ++ evs
          chip := { s.chip with frame := some (opPp :: (f ++ ds)) }
          draws := d }
  | 0, j, s, f, hc, hp, hj, hf => by
    refine ⟨[], s.draws, [], s.ports, rfl, fun i v h => absurd h (Nat.not_lt_zero i), rfl, ?_⟩
    have e : ppAfter s.params s.chunkLen j = .cs1 := if_neg (by omega)
    rw [e] at hp
    obtain ⟨ph, op, ca, bo, rm, cl, sl, ll, cn, po, tr, sw, ch, en, dr, pa⟩ := s
    obtain ⟨wi, tl, we, pr, fr, fl⟩ := ch
    simp only at hp hf
    subst hp hf
    simp only [List.append_nil]
    exact reaches_zero _
  | k + 1, j, s, f, hc, hp, hj, hf => by
    have e : ppAfter s.params s.chunkLen j = .bufRead j := if_pos (by omega)
    rw [e] at hp
    have h1 := (step_busy_calm hc hp).trans (advance_pp_bufRead (tick_calm hc).2.1)
    generalize hu : (bufRead (ppIndex s.tick j) s.tick).goto
      (.chunkPp (.data j (bufValue (ppIndex s.tick j) s.tick))) = u at h1
    have henv : u.env = s.env := by rw [← hu]; exact tick_env_of_calm hc
    have hcu : u.calm := by unfold State.calm; rw [henv]; exact hc
    have h2 := (step_busy_calm hcu (p := .chunkPp (.data j (bufValue (ppIndex s j) s))) (by
      rw [← hu, bufValue_tick]
      rfl)).trans (advance_pp_data (tick_calm hcu).2.1)
    have hfu : u.tick.chip.frame = some (opPp :: f) := by rw [← hu]; exact hf
    rw [xfer_free (s := u.tick) _ hfu (.inr ⟨opPp, f, rfl, by decide, by decide, by decide⟩)] at h2
    generalize hw : State.goto _ _ = w at h2
    have hcw : w.calm := by rw [← hw]; exact tick_calm hcu
    obtain ⟨ds, d, evs, po, hl, hb, he, hr⟩ := run_ppData k (j + 1) w (f ++ [bufValue (ppIndex s j) s]) hcw
      (by rw [← hw]; rfl) (by rw [← hw, ← hu]; simp only [State.goto, State.tick, bufRead, State.emit]; omega)
      (by rw [← hw]; rfl)
    have hi : ∀ i, ppIndex w i = ppIndex s i := by intro i; rw [← hw, ← hu]; rfl
    have hbb : ∀ i, w.bufByte? i = s.bufByte? i := by
      intro i
      rw [← hw, ← hu]
      exact bufByte?_congr i rfl rfl ((Env.tick_buf _).trans (Env.tick_buf _))
    refine ⟨bufValue (ppIndex s j) s :: ds, d,
      .bufRead (ppIndex s j) (bufValue (ppIndex s j) s) ::
        .xfer (bufValue (ppIndex s j) s) (Config.freeRx u.tick.draws) :: evs, po, by simp [hl], ?_, ?_, ?_⟩
    · intro i v hik hv
      cases i with
      | zero => simp only [Nat.add_zero] at hv; simp [bufValue, hv]
      | succ i =>
        rw [List.getElem?_cons_succ]
        exact hb i v (by omega) (by rw [hi, hbb, show j + 1 + i = j + (i + 1) by omega]; exact hv)
    · have : ppIndex w (j + 1) = ppIndex s j + 1 := by
        rw [hi]
        simp only [ppIndex, BitVec.add_assoc]
        congr 1
        apply BitVec.eq_of_toNat_eq
        simp
      simp only [List.map_cons, he, this, dataEvents, Event.outline]
    · have h3 := reaches_add (reaches_add (reaches_one h1) (reaches_one h2)) hr
      have hn : 1 + 1 + 2 * k = 2 * (k + 1) := by omega
      rw [hn] at h3
      have ht := tick_env_of_calm hc
      have htw : w = { s with
          phase := .busy (.chunkPp (ppAfter s.params s.chunkLen (j + 1)))
          ports := w.ports
          trace := s.trace ++ [.bufRead (ppIndex s j) (bufValue (ppIndex s j) s),
            .xfer (bufValue (ppIndex s j) s) (Config.freeRx u.tick.draws)]
          chip := { s.chip with frame := some (opPp :: (f ++ [bufValue (ppIndex s j) s])) }
          draws := w.draws } := by
        have hi' : ppIndex s.tick j = ppIndex s j := rfl
        rw [← hw]
        simp only [State.goto, State.tick_op, State.tick_curAddr, State.tick_bufOff, State.tick_remaining,
          State.tick_chunkLen, State.tick_srLatch, State.tick_lastLogTs, State.tick_csN, State.tick_trace,
          State.tick_swTrace, State.tick_chip, State.tick_draws, State.tick_params, tick_env_of_calm hcu, henv]
        rw [← hu, hi', bufValue_tick]
        simp only [State.goto, bufRead, State.emit, bufValue_tick, State.tick_op, State.tick_curAddr,
          State.tick_bufOff, State.tick_remaining, State.tick_chunkLen, State.tick_srLatch, State.tick_lastLogTs,
          State.tick_csN, State.tick_trace, State.tick_swTrace, State.tick_chip, State.tick_draws,
          State.tick_params, List.append_assoc, List.cons_append, List.nil_append]
      rw [htw] at h3
      simpa only [List.append_assoc, List.cons_append, List.nil_append] using h3

/-- PP_TXN, whole (R111): the chip then does what it does with a Page Program of the bytes sent. -/
theorem run_pp {s : State} (hc : s.calm) (hp : s.phase = .busy (.chunkPp .cs0))
    (hf : chunkFits s.curAddr s.chunkLen = true) :
    ∃ ds d evs, ds.length = dataCount s.params s.chunkLen ∧
      (∀ i v, i < ds.length → s.bufByte? (ppIndex s i) = some v → ds[i]? = some v) ∧
      evs.map Event.outline = ppEvents s.curAddr s.bufOff ds ∧
      Reaches (6 + 2 * ds.length) s
        { s with
          phase := .busy (.chunkGate3 GatePoint.start)
          csN := true
          ports := Ports.quiet
          trace := s.trace ++ evs
          chip := (reactProgram s.curAddr ds { s with draws := d, chip := s.chip.settle }).chip.deselect
          draws := (reactProgram s.curAddr ds { s with draws := d, chip := s.chip.settle }).draws } := by
  obtain ⟨ph, op, ca, bo, rm, cl, sl, ll, cn, po, tr, sw, ch, en, dr, pa⟩ := s
  obtain ⟨pi, pl, of, bu, bs, st, no⟩ := en
  obtain ⟨h1, h2, h3⟩ := hc
  simp only at h1 h2 h3 hp hf
  subst h3 hp
  have a1 := reaches_one ((step_busy_calm (s := ⟨_, op, ca, bo, rm, cl, sl, ll, cn, po, tr, sw, ch,
    ⟨pi, [], of, bu, bs, st, no⟩, dr, pa⟩) ⟨h1, h2, rfl⟩ rfl).trans (advance_pp_cs0 h2 hf))
  have a2 := reaches_add a1 (reaches_one ((step_busy_calm ⟨h1, h2, rfl⟩ rfl).trans (advance_pp_opcode h2)))
  rw [xfer_free opPp rfl (.inl rfl)] at a2
  have q : ∀ (args : List Byte), ([opPp] ++ args = [] ∨ ∃ b as, [opPp] ++ args = b :: as ∧ b ≠ opRdsr ∧ b ≠ opRead ∧ b ≠ opRdid) :=
    fun args => .inr ⟨opPp, args, rfl, by decide, by decide, by decide⟩
  have a3 := reaches_add a2 (reaches_one ((step_busy_calm ⟨h1, h2, rfl⟩ rfl).trans (advance_pp_addrHigh h2)))
  rw [xfer_free _ rfl (q [])] at a3
  have a4 := reaches_add a3 (reaches_one ((step_busy_calm ⟨h1, h2, rfl⟩ rfl).trans (advance_pp_addrMid h2)))
  rw [xfer_free _ rfl (q _)] at a4
  have a5 := reaches_add a4 (reaches_one ((step_busy_calm ⟨h1, h2, rfl⟩ rfl).trans (advance_pp_addrLow h2)))
  rw [xfer_free _ rfl (q _)] at a5
  generalize hu : State.goto _ _ = u at a5
  have hcu : u.calm := by rw [← hu]; exact ⟨h1, h2, rfl⟩
  obtain ⟨ds, d, evs, po', hl, hb, he, hr⟩ := run_ppData (dataCount pa cl) 0 u [addrHigh ca, addrMid ca, addrLow ca] hcu
    (by rw [← hu]; rfl) (by rw [← hu]; exact Nat.zero_add _) (by rw [← hu]; rfl)
  generalize hw : State.mk _ _ _ _ _ _ _ _ _ _ _ _ _ _ _ _ = w at hr
  have hcw : w.calm := by rw [← hw]; exact hcu
  have a6 := reaches_add (reaches_add a5 hr)
    (reaches_one ((step_busy_calm hcw (by rw [← hw])).trans (advance_pp_cs1 (tick_calm hcw).2.1)))
  have hpos : ∃ x xs, ds = x :: xs := by
    cases ds with
    | cons x xs => exact ⟨x, xs, rfl⟩
    | nil =>
      simp only [chunkFits, Bool.and_eq_true, decide_eq_true_eq] at hf
      simp only [List.length_nil, dataCount] at hl
      omega
  have hfr : frameEffect w.tick = reactProgram ca ds { w.tick with chip := w.tick.chip.settle } := by
    obtain ⟨x, xs, rfl⟩ := hpos
    have : w.tick.chip.frame = some (addressedFrame opPp ca (x :: xs)) := by rw [← hw]; rfl
    simp only [frameEffect, this, Option.getD_some, chipReact_pp]
  obtain ⟨hk1, hk2⟩ := reactProgram_reframe ca ds { w.tick with chip := w.tick.chip.settle }
    ⟨.busy (.chunkPp .cs0), op, ca, bo, rm, cl, sl, ll, cn, po, tr, sw, ch.settle, ⟨pi, [], of, bu, bs, st, no⟩, d, pa⟩
    w.chip.frame (by
      rw [← hw, ← hu]
      simp only [State.goto, State.tick, csLow, State.emit, Chip.select, Chip.settle_reframe])
    (by rw [← hw, ← hu]; rfl) (by rw [← hw]; rfl)
  rw [← hfr] at hk1 hk2
  refine ⟨ds, d, [.cs false, .xfer opPp (Config.freeRx dr), .xfer (addrHigh ca) (Config.freeRx (dr + 1)),
    .xfer (addrMid ca) (Config.freeRx (dr + 1 + 1)), .xfer (addrLow ca) (Config.freeRx (dr + 1 + 1 + 1))] ++ evs ++
      [.cs true], hl, ?_, ?_, ?_⟩
  · intro i v hi hv
    refine hb i v (by omega) ?_
    rw [← hu, Nat.zero_add]
    exact hv
  · have hi : ppIndex u 0 = bo := by rw [← hu]; exact BitVec.add_zero bo
    rw [List.map_append, List.map_append, he, hi]
    rfl
  · have hn : 1 + 1 + 1 + 1 + 1 + 2 * dataCount pa cl + 1 = 6 + 2 * ds.length := by omega
    rw [hn] at a6
    simp only [State.goto, csHigh, chipCommit, hk1, hk2, State.emit, tick_env_of_calm hcw, State.tick_op,
      State.tick_curAddr, State.tick_bufOff, State.tick_remaining, State.tick_chunkLen, State.tick_srLatch,
      State.tick_lastLogTs, State.tick_ports, State.tick_trace, State.tick_swTrace, State.tick_params] at a6
    rw [← hw, ← hu] at a6
    simpa only [State.goto, State.tick, csLow, State.emit, Env.tick, List.append_assoc, List.cons_append,
      List.nil_append] using a6

end Sys2Proof.Machine
end

