-- ==== Sys2Proof/Laws/Starts.lean ====
section
/-! SUPPORT. Where in a run a Page Program begins: the runs of a chunk's procedures in which none does, and how they
compose. -/

namespace Sys2Proof.Machine

/-- A run reaches one state after `n` steps. -/
theorem reaches_unique {n : Nat} {s t u : State} (h : Reaches n s t) (h' : Reaches n s u) : t = u := by
  injection h.symm.trans h'

/-- A run cut in two. -/
theorem reaches_split {m : Nat} : ∀ {n : Nat} {s t u : State}, Reaches n s t → Reaches (n + m) s u → Reaches m t u
  | 0, s, t, u, h, h' => by
    cases (show Host.Outcome.next s = Host.Outcome.next t from h)
    simpa using h'
  | n + 1, s, t, u, h, h' => by
    obtain ⟨v, hv, h⟩ := reaches_succ_inv h
    rw [Nat.succ_add] at h'
    obtain ⟨w, hw, h'⟩ := reaches_succ_inv h'
    cases hv.symm.trans hw
    exact reaches_split h h'

/-- No Page Program begins at the next `k` points of the run from `s`. -/
def NoStart (k : Nat) (s : State) : Prop :=
  ∀ n t, n < k → Reaches n s t → t.phase ≠ .busy (.chunkPp .cs0)

theorem noStart_zero (s : State) : NoStart 0 s := fun _ _ h => absurd h (Nat.not_lt_zero _)

/-- One point, and what follows it. -/
theorem noStart_succ {k : Nat} {s t : State} (hs : step s = .next t) (hp : s.phase ≠ .busy (.chunkPp .cs0))
    (h : NoStart k t) : NoStart (k + 1) s := by
  intro n u hn hu
  cases n with
  | zero => cases (show Host.Outcome.next s = Host.Outcome.next u from hu); exact hp
  | succ n =>
    obtain ⟨v, hv, hu⟩ := reaches_succ_inv hu
    cases hs.symm.trans hv
    exact h n u (by omega) hu

theorem noStart_add {a b : Nat} {s t : State} (h : NoStart a s) (hr : Reaches a s t) (h' : NoStart b t) :
    NoStart (a + b) s := by
  intro n u hn hu
  by_cases ha : n < a
  · exact h n u ha hu
  · obtain ⟨m, rfl⟩ := Nat.exists_eq_add_of_le (Nat.le_of_not_lt ha)
    exact h' m u (by omega) (reaches_split hr hu)

/-- No event moves the levels of a calm run. -/
theorem calm_of_step {s t : State} {p : Point} (h : s.calm) (hp : s.phase = .busy p) (hs : step s = .next t) :
    t.calm := by
  rw [step_busy_calm h hp] at hs
  obtain ⟨u, hu, -, -, -, -, -, -, he, -, -⟩ := advance_oneEvent hs
  have ht := tick_calm h
  unfold State.calm at ht ⊢
  rw [he]
  cases hu with
  | xfer tx =>
    have e : (xfer tx s.tick).env = (chipAnswer s.tick).env := rfl
    rw [e]
    obtain e | ⟨v, e⟩ | ⟨-, e⟩ := chipAnswer_cases s.tick <;> rw [e] <;> exact ht
  | _ => exact ht

/-- A step to a known state of a busy, calm block. -/
theorem noStart_step {k : Nat} {s t : State} {p : Point} (hc : s.calm) (hp : s.phase = .busy p)
    (hne : p ≠ .chunkPp .cs0) (he : advance p s.tick = .next t) (h : t.calm → NoStart k t) : NoStart (k + 1) s := by
  have hs := (step_busy_calm hc hp).trans he
  exact noStart_succ hs (by rw [hp]; exact fun e => hne (by injection e)) (h (calm_of_step hc hp hs))

/-- READ_SR. -/
theorem noStart_readSr {at' : SrPoint → Point} {done : Byte → State → State}
    (hadv : ∀ q s, advance (at' q) s = .next (readSrStep at' done q s)) (hne : ∀ q, at' q ≠ .chunkPp .cs0) {s : State}
    (hc : s.calm) (hp : s.phase = .busy (at' .cs0)) : NoStart 4 s := by
  have ha : ∀ {s : State}, s.calm → s.tick.env.pins.abort = false := fun h => (tick_calm h).2.1
  refine noStart_step hc hp (hne _) ((hadv _ _).trans (congrArg _ (readSrStep_cs0 (ha hc)))) fun hc => ?_
  refine noStart_step hc rfl (hne _) ((hadv _ _).trans (congrArg _ (readSrStep_opcode (ha hc)))) fun hc => ?_
  refine noStart_step hc rfl (hne _) ((hadv _ _).trans (congrArg _ (readSrStep_data (ha hc)))) fun hc => ?_
  exact noStart_step hc rfl (hne _) (hadv _ _) fun _ => noStart_zero _

/-- A poll of a gate. -/
theorem noStart_poll (g : GateSite) {s : State} (hc : s.calm) (hp : s.phase = .busy (g.point GatePoint.start)) :
    NoStart 4 s :=
  noStart_readSr (fun q s => advance_poll g q s) (fun q => by cases g <;> simp [GateSite.point]) hc hp

/-- WREN_TXN. -/
theorem noStart_wren (g : WrenSite) {s : State} (hc : s.calm) (hp : s.phase = .busy (g.point .cs0)) : NoStart 3 s := by
  have ha : ∀ {s : State}, s.calm → s.tick.env.pins.abort = false := fun h => (tick_calm h).2.1
  have hne : ∀ q, g.point q ≠ .chunkPp .cs0 := fun q => by cases g <;> simp [WrenSite.point]
  refine noStart_step hc hp (hne _) ((advance_wren g _ _).trans (congrArg _ (wrenStep_cs0 (ha hc)))) fun hc => ?_
  refine noStart_step hc rfl (hne _) ((advance_wren g _ _).trans (congrArg _ (wrenStep_opcode (ha hc)))) fun hc => ?_
  exact noStart_step hc rfl (hne _) (advance_wren g _ _) fun _ => noStart_zero _

/-- The data phase of PP_TXN, and its `CS(1)`. -/
theorem noStart_ppData : ∀ (k j : Nat) (s : State), s.calm →
    s.phase = .busy (.chunkPp (ppAfter s.params s.chunkLen j)) → j + k = dataCount s.params s.chunkLen →
    NoStart (2 * k + 1) s
  | 0, j, s, hc, hp, hj => by
    rw [show ppAfter s.params s.chunkLen j = .cs1 from if_neg (by omega)] at hp
    exact noStart_step hc hp (by simp) (advance_pp_cs1 (tick_calm hc).2.1) fun _ => noStart_zero _
  | k + 1, j, s, hc, hp, hj => by
    rw [show ppAfter s.params s.chunkLen j = .bufRead j from if_pos (by omega)] at hp
    rw [show 2 * (k + 1) + 1 = 2 * k + 1 + 1 + 1 by omega]
    refine noStart_step hc hp (by simp) (advance_pp_bufRead (tick_calm hc).2.1) fun hc => ?_
    refine noStart_step hc rfl (by simp) (advance_pp_data (tick_calm hc).2.1) fun hc => ?_
    exact noStart_ppData k (j + 1) _ hc rfl (by simp; omega)

/-- PP_TXN, past its beginning. -/
theorem noStart_pp {s t : State} (hc : s.calm) (hp : s.phase = .busy (.chunkPp .cs0))
    (hf : chunkFits s.curAddr s.chunkLen = true) (hs : step s = .next t) :
    NoStart (5 + 2 * dataCount s.params s.chunkLen) t := by
  have e := (step_busy_calm hc hp).trans (advance_pp_cs0 (s := s.tick) (tick_calm hc).2.1 hf)
  have hc' := calm_of_step hc hp e
  cases hs.symm.trans e
  rw [show 5 + 2 * dataCount s.params s.chunkLen = 2 * dataCount s.params s.chunkLen + 1 + 1 + 1 + 1 + 1 by omega]
  refine noStart_step hc' rfl (by simp) (advance_pp_opcode (tick_calm hc').2.1) fun hc => ?_
  refine noStart_step hc rfl (by simp) (advance_pp_addrHigh (tick_calm hc).2.1) fun hc => ?_
  refine noStart_step hc rfl (by simp) (advance_pp_addrMid (tick_calm hc).2.1) fun hc => ?_
  refine noStart_step hc rfl (by simp) (advance_pp_addrLow (tick_calm hc).2.1) fun hc => ?_
  exact noStart_ppData _ 0 _ hc rfl (by simp)

/-- A chunk up to its Page Program, on a chip that answers ready (R110). -/
theorem run_toPp {s : State} {v1 v2 : Byte} {rest : List Byte} (hc : s.calm)
    (hp : s.phase = .busy (.chunkWren .cs0)) (hs : s.env.statuses = v1 :: v2 :: rest)
    (h1 : isBusyStatus v1 = false) (h2 : isBusyStatus v2 = false) :
    Reaches 11 s { polled v2 rest (polled v1 (v2 :: rest) (enabled s)) with phase := .busy (.chunkPp .cs0) } := by
  have a1 := run_enabled (fun q s => advance_wren .chunk q s) hc hp
  have a2 := run_polled (fun q s => advance_poll .chunk1 q s)
    (s := { enabled s with phase := .busy (.chunkGate1 GatePoint.start) }) hc rfl hs
  simp only [h1, Bool.false_eq_true, if_false] at a2
  have a3 := run_polled (fun q s => advance_poll .chunk2 q s)
    (s := { polled v1 (v2 :: rest) (enabled s) with phase := .busy (.chunkGate2 GatePoint.start) }) hc rfl rfl
    (v := v2) (vs := rest)
  simp only [h2, Bool.false_eq_true, if_false] at a3
  exact reaches_add (reaches_add a1 a2) a3

/-- And in it no Page Program begins before. -/
theorem noStart_toPp {s : State} {v1 v2 : Byte} {rest : List Byte} (hc : s.calm)
    (hp : s.phase = .busy (.chunkWren .cs0)) (hs : s.env.statuses = v1 :: v2 :: rest)
    (h1 : isBusyStatus v1 = false) : NoStart 11 s := by
  have a1 := run_enabled (fun q s => advance_wren .chunk q s) hc hp
  have a2 := run_polled (fun q s => advance_poll .chunk1 q s)
    (s := { enabled s with phase := .busy (.chunkGate1 GatePoint.start) }) hc rfl hs
  simp only [h1, Bool.false_eq_true, if_false] at a2
  exact noStart_add (noStart_add (noStart_wren .chunk hc hp) a1 (noStart_poll .chunk1 hc rfl)) (reaches_add a1 a2)
    (noStart_poll .chunk2 hc rfl)

end Sys2Proof.Machine
end

