-- ==== Sys2Proof/Laws/Step.lean ====
section
/-! SUPPORT. Everything a step can do: quiet, a reset, one event of a busy block, a request taken, or a software frame. -/

namespace Sys2Proof.Machine

/-- What an idle, ready machine's instruction leads to. -/
inductive Taken (s : State) : Instr → State → Prop where
  | write (a : FlashAddr) (len : Count) :
      Taken s (.write a len)
        (chunkHead { accept 0x1 s with curAddr := a, bufOff := 0, remaining := len, env := s.env.takeBuffer })
  | waitReady (a : FlashAddr) (len : Count) :
      Taken s (.waitReady a len) ((accept 0x2 s).goto (.waitReady GatePoint.start))
  | readStatus (a : FlashAddr) (len : Count) : Taken s (.readStatus a len) ((accept 0x3 s).goto (.readStatus .cs0))
  | writeEnable (a : FlashAddr) (len : Count) :
      Taken s (.writeEnable a len) ((accept 0x4 s).goto (.enableWren .cs0))
  | badWord (op rsv : Nibble) (a : FlashAddr) (len : Count) :
      Taken s (.reservedRequest op rsv a len) (respond .errBadOp (accept op s))
  | frame (i : Instr) (f : List Byte) (h : encode i = .frame f) : Taken s i (swTransaction f s)

theorem reqReady_busLock {s : State} (h : s.reqReady = true) : s.busLock = false := by
  simp [State.reqReady] at h
  exact h.1

/-- On a ready machine every instruction is taken (R34, R131). -/
theorem exec_taken {s : State} (h : s.reqReady = true) (i : Instr) : ∃ t, exec i s = .next t ∧ Taken s i t := by
  have hb := reqReady_busLock h
  cases i with
  | write a len => exact ⟨_, execWrite_ready a len h, .write a len⟩
  | waitReady a len => exact ⟨_, execWaitReady_ready a len h, .waitReady a len⟩
  | readStatus a len => exact ⟨_, execReadStatus_ready a len h, .readStatus a len⟩
  | writeEnable a len => exact ⟨_, execWriteEnable_ready a len h, .writeEnable a len⟩
  | reservedRequest op rsv a len => exact ⟨_, execReservedRequest_ready op rsv a len h, .badWord op rsv a len⟩
  | wren => exact ⟨_, onBus_free hb, .frame _ _ rfl⟩
  | rdsr tx => exact ⟨_, onBus_free hb, .frame _ _ rfl⟩
  | pp a ds => exact ⟨_, onBus_free hb, .frame _ _ rfl⟩
  | wrsr v => exact ⟨_, onBus_free hb, .frame _ _ rfl⟩
  | read a tx => exact ⟨_, onBus_free hb, .frame _ _ rfl⟩
  | se a => exact ⟨_, onBus_free hb, .frame _ _ rfl⟩
  | ce => exact ⟨_, onBus_free hb, .frame _ _ rfl⟩
  | rdid x y z => exact ⟨_, onBus_free hb, .frame _ _ rfl⟩

/-- A quiet step, a bad frame, or an instruction taken. -/
theorem idleStep_cases {s : State} (hr : s.env.pins.rstN = true) (hp : s.phase = .idle) :
    (s.env.offers = [] ∧ idleStep s = .next s) ∨
      (∃ c rest r, s.env.offers = c :: rest ∧ decode c = .error r ∧ idleStep s = .refused (.notAFrame r)) ∨
      (∃ c rest i t, s.env.offers = c :: rest ∧ decode c = .ok i ∧ idleStep s = .next t ∧ Taken s.takeOffer i t) := by
  have hrdy : s.takeOffer.reqReady = true := by simp [State.reqReady, State.busy, hr, hp]
  unfold idleStep
  split
  · exact .inl ⟨by assumption, rfl⟩
  · rename_i c rest ho
    split
    · rename_i i hd
      obtain ⟨t, ht, hk⟩ := exec_taken hrdy i
      exact .inr (.inr ⟨c, rest, i, t, ho, hd, ht, hk⟩)
    · rename_i r hd
      exact .inr (.inl ⟨c, rest, r, ho, hd, rfl⟩)

/-- Everything a step that answers a next state can have done. -/
theorem step_next_cases {s t : State} (h : step s = .next t) :
    (s.env.tick.pins.rstN = false ∧ t = resetBlock s.tick) ∨
      (s.env.tick.pins.rstN = true ∧ ∃ p, s.phase = .busy p ∧ advance p s.tick = .next t) ∨
      (s.env.tick.pins.rstN = true ∧ s.phase = .idle ∧ s.env.offers = [] ∧ t = s.tick) ∨
      (s.env.tick.pins.rstN = true ∧ s.phase = .idle ∧
        ∃ c rest i, s.env.offers = c :: rest ∧ decode c = .ok i ∧ Taken s.tick.takeOffer i t) := by
  obtain ⟨hr, e⟩ | ⟨hr, p, hp, e⟩ | ⟨hr, hp, e⟩ := step_cases s
  · rw [e] at h; cases h; exact .inl ⟨hr, rfl⟩
  · rw [e] at h; exact .inr (.inl ⟨hr, p, hp, h⟩)
  · rw [e] at h
    obtain ⟨ho, e'⟩ | ⟨c, rest, r, ho, hd, e'⟩ | ⟨c, rest, i, u, ho, hd, e', hk⟩ :=
      idleStep_cases (s := s.tick) hr hp
    · rw [e'] at h; cases h; exact .inr (.inr (.inl ⟨hr, hp, by simpa using ho, rfl⟩))
    · rw [e'] at h; cases h
    · rw [e'] at h; cases h; exact .inr (.inr (.inr ⟨hr, hp, c, rest, i, by simpa using ho, hd, hk⟩))

/-- A step faults only by the assertion of PP_TXN (R147). -/
theorem step_fault_cases {s : State} {r : Fault} (h : step s = .fault r) :
    s.phase = .busy (.chunkPp .cs0) ∧ chunkFits s.curAddr s.chunkLen = false ∧ r = .boundaryViolation := by
  obtain ⟨-, e⟩ | ⟨-, p, hp, e⟩ | ⟨hr, hp, e⟩ := step_cases s
  · rw [e] at h; cases h
  · rw [e] at h
    obtain ⟨h1, h2, h3⟩ := advance_fault h
    exact ⟨by rw [hp, h1], h2, h3⟩
  · rw [e] at h
    obtain ⟨-, e'⟩ | ⟨_, _, _, -, -, e'⟩ | ⟨_, _, _, _, -, -, e', -⟩ := idleStep_cases (s := s.tick) hr hp <;>
      rw [e'] at h <;> cases h

/-- Taking a request that is not a bad word makes no event and touches neither bus nor chip (R108). -/
theorem sameBus_of_chunkHead {s t : State} (h : SameBus s t) : SameBus s (chunkHead t) :=
  SameBus.trans' h (sameBus_chunkHead t)

theorem swTransaction_swTrace (f : List Byte) (s : State) : s.swTrace <+: (swTransaction f s).swTrace := by
  have : ∀ (bs : List Byte) (u : State), u.swTrace <+: (bs.foldl swXfer u).swTrace := by
    intro bs
    induction bs with
    | nil => intro u; exact List.prefix_rfl
    | cons b bs ih =>
      intro u
      exact (List.prefix_append u.swTrace _).trans (ih (swXfer u b))
  exact ((List.prefix_append s.swTrace _).trans (this f (swSelect s))).trans (List.prefix_append _ _)

end Sys2Proof.Machine
end

