-- ==== Sys2Proof/Tests/Slice0.lean ====
section
/-! SUPPORT. The model's own tests: ill-formed terms refused, words written out from the spec's encodings, one step on
vectors of spec/95_test_vectors.md and of the rules, and for every statement with hypotheses a witness that meets them. -/

namespace Sys2Proof.Machine.Tests

/-! ### Helpers -/

/-- The next state, if there is one. -/
def nextOf : Result → Option State
  | .next t => some t
  | _ => none

/-- Just after reset, with these offers, status bytes and times. -/
def given (offers : List Code) (statuses : List Byte) (nows : List Time) : State :=
  { State.reset with env := { Env.fresh with offers := offers, statuses := statuses, nows := nows } }

/-- Inside a request at a point, with status bytes and times to come. -/
def inside (op : Nibble) (p : Point) (statuses : List Byte) (nows : List Time) : State :=
  { given [] statuses nows with phase := .busy p, op := op }

/-- In a chunk of WRITE 0x0000FF, 2 (L2-W14), at its first byte. -/
def inChunk (p : Point) (statuses : List Byte) : State :=
  { inside 0x1 p statuses [] with curAddr := 0x0000FF, remaining := 2, chunkLen := 1 }

/-- A chip with the latch set and these cells. -/
def enabledChip (cells : List Host.Cell) : Chip :=
  { Chip.fresh with wel := .set, flash := { cells := cells, base := .erased } }

/-- `n` data bytes. -/
def filled (n : Nat) : List Byte := List.replicate n 0xA5

theorem filled_length (n : Nat) : (filled n).length = n := List.length_replicate

/-- The two levels. -/
def levels (rstN abort : Bool) : Pins := { rstN := rstN, abort := abort }

/-! ### Ill-formed terms -/

theorem test_wf_pp_without_data : (Instr.pp 0x000000 []).wellFormed = false := by decide
theorem test_wf_pp_with_257_bytes : (Instr.pp 0x000000 (filled 257)).wellFormed = false := by simp [Instr.wellFormed, filled_length]
theorem test_wf_pp_with_256_bytes : (Instr.pp 0x000000 (filled 256)).wellFormed = true := by simp [Instr.wellFormed, filled_length]
theorem test_wf_write_is_not_reserved : (Instr.reservedRequest 0x1 0x0 0 0).wellFormed = false := by decide
theorem test_wf_rsv_is_reserved : (Instr.reservedRequest 0x1 0x1 0 0).wellFormed = true := by decide

/-! ### Words of R64 and R71 and the vectors L2-D, for every constructor -/

theorem test_decode_wren : decode (.frame [0x06]) = .ok .wren := by decide
theorem test_decode_rdsr : decode (.frame [0x05, 0x00]) = .ok (.rdsr 0x00) := by decide
theorem test_decode_pp :
    decode (.frame [0x02, 0x00, 0x01, 0x2C, 0xDE, 0xAD]) = .ok (.pp 0x00012C [0xDE, 0xAD]) := by decide
theorem test_decode_wrsr : decode (.frame [0x01, 0x9C]) = .ok (.wrsr 0x9C) := by decide
theorem test_decode_read :
    decode (.frame [0x03, 0x12, 0x34, 0x56, 0x00, 0x00]) = .ok (.read 0x123456 [0x00, 0x00]) := by decide
theorem test_decode_se : decode (.frame [0x20, 0x01, 0x00, 0x00]) = .ok (.se 0x010000) := by decide
theorem test_decode_ce : decode (.frame [0xC7]) = .ok .ce := by decide
theorem test_decode_rdid : decode (.frame [0x9F, 0x00, 0x01, 0x02]) = .ok (.rdid 0x00 0x01 0x02) := by decide
theorem test_decode_write : decode (.request 0x1000012C00000190) = .ok (.write 0x00012C 400) := by decide
theorem test_decode_write_top : decode (.request 0x10FFFFF000000020) = .ok (.write 0xFFFFF0 32) := by decide
theorem test_decode_waitReady :
    decode (.request 0x20FFFFFFFFFFFFFF) = .ok (.waitReady 0xFFFFFF 0xFFFFFFFF) := by decide
theorem test_decode_readStatus : decode (.request 0x3000000000000000) = .ok (.readStatus 0 0) := by decide
theorem test_decode_writeEnable : decode (.request 0x4000000000000000) = .ok (.writeEnable 0 0) := by decide
theorem test_decode_op0 : decode (.request 0x0000000000000000) = .ok (.reservedRequest 0x0 0x0 0 0) := by decide
theorem test_decode_rsv : decode (.request 0x1100000000000001) = .ok (.reservedRequest 0x1 0x1 0 1) := by decide
theorem test_decode_rejects_empty : decode (.frame []) = .error .emptyFrame := by decide
theorem test_decode_rejects_opcode : decode (.frame [0xAB]) = .error (.unknownOpcode 0xAB) := by decide
theorem test_decode_rejects_length : decode (.frame [0xC7, 0x00]) = .error (.wrongLength 0xC7) := by decide

/-- The table's numbering: a frame row has 8 bits, a request row 64. -/
theorem test_table_words :
    decodeTableWord 8 0x06 = some .wren ∧ decodeTableWord 8 0x02 = some (.pp 0x000000 [0x00]) ∧
      decodeTableWord 8 0x9F = some (.rdid 0x00 0x00 0x00) ∧ decodeTableWord 8 0xAB = none ∧
      decodeTableWord 64 0x1000012C00000190 = some (.write 0x00012C 400) ∧
      decodeTableWord 64 0xF000000000000000 = some (.reservedRequest 0xF 0x0 0 0) := by decide

/-! ### One step of each instruction -/

/-- R65, R40. -/
theorem test_wren_sets_the_latch : ((nextOf (exec .wren State.reset)).map (·.chip.wel)) = some .set := by rfl

/-- R66: the frame is `05 00`, and the status byte comes back. -/
theorem test_rdsr_frame :
    ((nextOf (exec (.rdsr 0x00) (given [] [0x03] []))).map (fun t => (t.swTrace.getLast?, t.swTrace[2]?, t.chip.told))) =
      some (some (.cs true), some (.xfer 0x00 0x03), some true) := by rfl

/-- R86: a Read Status that answers busy changes neither WIP nor WEL. -/
theorem test_rdsr_changes_nothing_in_the_chip :
    ((nextOf (exec (.rdsr 0x00) { given [] [0x03] [] with chip := enabledChip [(0xFF, 0x5A)] })).map
      (fun t => (t.chip.wip, t.chip.wel, t.chip.flash.cells))) = some (false, .set, [(0xFF, 0x5A)]) := by rfl

/-- R40, R59: a status with bit 0 clear tells that the command has completed, which clears the latch. -/
theorem test_ready_status_completes_the_command :
    ((nextOf (exec (.rdsr 0x00) { given [] [0x00] [] with chip := { enabledChip [] with wip := true } })).map
      (fun t => (t.chip.wip, t.chip.wel, t.chip.busy))) = some (false, .clear, false) := by rfl

/-- L2-L1's frame `02 00 00 FE 11 22 33`: the third byte wraps to offset 0 of the page. -/
theorem test_pp_wraps_in_its_page :
    ((nextOf (exec (.pp 0x0000FE [0x11, 0x22, 0x33]) { State.reset with chip := enabledChip [] })).map
      (·.chip.flash.cells)) = some [(0x00, 0x33), (0xFE, 0x11), (0xFF, 0x22)] := by rfl

/-- R56, R57: without the latch the block's registers are still untouched, and the page alone is in doubt. -/
theorem test_pp_without_latch :
    ((nextOf (exec (.pp 0x0000FE [0x11]) State.reset)).map (fun t => (t.phase, t.csN, t.trace))) =
      some (.idle, true, []) := by rfl

/-- R132. -/
theorem test_wrsr_value : ((nextOf (exec (.wrsr 0x9C) State.reset)).map (·.chip.prot)) = some (some 0x9C) := by rfl

/-- R133: bytes in ascending address order. -/
theorem test_read_ascends :
    ((nextOf (exec (.read 0x0000FF [0x00, 0x00])
        { State.reset with chip := enabledChip [(0xFF, 0x5A), (0x100, 0xA5)] })).map
      (fun t => (t.swTrace[5]?, t.swTrace[6]?))) =
      some (some (.xfer 0x00 0x5A), some (.xfer 0x00 0xA5)) := by rfl

/-- R134: the frame `20 01 00 00`. -/
theorem test_se_frame :
    ((nextOf (exec (.se 0x010000) State.reset)).map (fun t => t.swTrace.map Event.outline)) =
      some [.cs false, .xfer 0x20 0, .xfer 0x01 0, .xfer 0x00 0, .xfer 0x00 0, .cs true] := by rfl

/-- R135. -/
theorem test_ce_erases_all :
    ((nextOf (exec .ce { State.reset with chip := enabledChip [(0xFF, 0x5A)] })).map (·.chip.flash)) =
      some Memory.blank := by rfl

/-- R136: four exchanges. -/
theorem test_rdid_frame :
    ((nextOf (exec (.rdid 0x00 0x00 0x00) State.reset)).map (fun t => t.swTrace.map Event.outline)) =
      some [.cs false, .xfer 0x9F 0, .xfer 0 0, .xfer 0 0, .xfer 0 0, .cs true] := by rfl

/-- L1-1: 256 - 44 = 212. -/
theorem test_write_first_chunk :
    ((nextOf (step (given [.request 0x1000012C00000190] [] []))).map
      (fun t => (t.curAddr, t.bufOff, t.remaining, t.chunkLen))) = some (0x00012C, 0, 400, 212) := by rfl

/-- L2-1: length 0 goes straight to its response. -/
theorem test_write_of_length_0 :
    ((nextOf (step (given [.request 0x1000012C00000000] [] []))).map (fun t => (t.phase, t.trace))) =
      some (.busy .respondOk, []) := by rfl

/-- R45, R79: each WRITE has its own buffer. -/
theorem test_write_takes_its_own_buffer :
    ((nextOf (step { given [] [] [] with
        env := { Env.fresh with
          offers := [.request 0x1000012C00000001], buf := [some 0x33], bufs := [[some 0x11], [some 0x22]] } })).map
      (fun t => (t.env.buf, t.env.bufs, bufValue 0 t))) = some ([some 0x11], [[some 0x22]], 0x11) := by rfl

/-- R96, R89: the first poll is unconditional. -/
theorem test_waitReady_first_event :
    ((nextOf (step (inside 0x2 (.waitReady GatePoint.start) [] []))).map (fun t => (t.csN, t.trace))) =
      some (false, [.cs false]) := by rfl

/-- L2-S1: a busy status is answered like any other. -/
theorem test_readStatus_answers_busy :
    ((nextOf (step { inside 0x3 (.readStatus (.cs1 0x03)) [] [] with csN := false })).map
      (fun t => (t.phase, t.srLatch, t.csN))) = some (.busy .respondOk, 0x03, true) := by rfl

/-- L2-E1: the first byte sent is 0x06. -/
theorem test_writeEnable_byte :
    ((nextOf (step { inside 0x4 (.enableWren .opcode) [] [] with csN := false })).map (·.ports.xfer)) =
      some (some 0x06) := by rfl

/-- L2-D7. -/
theorem test_reserved_is_answered :
    ((nextOf (step (given [.request 0x0000000000000000] [] []))).map (fun t => (t.phase, t.trace))) =
      some (.idle, [.respond .errBadOp 0x00]) := by rfl

/-- R55, I13. -/
theorem test_frame_on_locked_bus :
    exec .ce (inside 0x2 (.waitReady .now) [] []) = .refused .busLocked := by rfl

/-! ### The gate's time check: L2-G3, L2-G4, L2-G6 and R97 -/

theorem test_log_not_due_at_1000 :
    ((nextOf (step { inside 0x2 (.waitReady .now) [] [1000] with srLatch := 0x01 })).map (·.phase)) =
      some (.busy (.waitReady (.poll .cs0))) := by rfl

theorem test_log_due_at_1001 :
    ((nextOf (step { inside 0x2 (.waitReady .now) [] [1001] with srLatch := 0x01 })).map (·.phase)) =
      some (.busy (.waitReady (.log 1001))) := by rfl

theorem test_log_writes_the_sample :
    ((nextOf (step { inside 0x2 (.waitReady (.log 1001)) [] [] with srLatch := 0x01 })).map
      (fun t => (t.lastLogTs, t.ports.log, t.trace))) = some (1001, some 0x01, [.log 0x01]) := by rfl

theorem test_elapsed_wraps : elapsed 0x00000400 0xFFFFFF00 = 1280 := by decide

theorem test_elapsed_of_an_earlier_time : elapsed 5 10 = 0xFFFFFFFB := by decide

theorem test_status_0xFE_is_ready : isBusyStatus 0xFE = false ∧ isBusyStatus 0xFF = true := by decide

/-! ### Chunks: the table of spec/95_test_vectors.md section 2.1 -/

/-- Address, buffer offset and length of every chunk. -/
def chunks (a : FlashAddr) (len : Count) : List (FlashAddr × Nat × Nat) :=
  (List.range (chunkCount a len)).map fun k => (chunkAddr a k, chunkOff a len k, chunkSize a len k)

theorem test_chunks_W6 : chunks 0x000000 1000 =
    [(0x000000, 0, 256), (0x000100, 256, 256), (0x000200, 512, 256), (0x000300, 768, 232)] := by decide

theorem test_chunks_W12 : chunks 0x000080 1000 =
    [(0x000080, 0, 128), (0x000100, 128, 256), (0x000200, 384, 256), (0x000300, 640, 256), (0x000400, 896, 104)] := by
  decide

theorem test_chunks_W13 : chunks 0x00012C 400 = [(0x00012C, 0, 212), (0x000200, 212, 188)] := by decide

theorem test_chunks_W17 : chunks 0x0000FF 258 = [(0x0000FF, 0, 1), (0x000100, 1, 256), (0x000200, 257, 1)] := by decide

theorem test_chunks_W18 : chunks 0xFFFFF0 32 = [(0xFFFFF0, 0, 16), (0x000000, 16, 16)] := by decide

theorem test_chunks_W19 : chunks 0xFFFF01 600 = [(0xFFFF01, 0, 255), (0x000000, 255, 256), (0x000100, 511, 89)] := by
  decide

/-- L1-7: the advance after the first chunk, by the model's own loop. -/
theorem test_advance_W13 :
    let t := chunkHead (chunkAdvance { State.reset with curAddr := 0x00012C, remaining := 400, chunkLen := 212 })
    (t.curAddr, t.bufOff, t.remaining, t.chunkLen) = (0x000200, 212, 188, 188) := by decide

/-- L2-W18: the address wraps at 24 bits. -/
theorem test_advance_wraps :
    let t := chunkHead (chunkAdvance { State.reset with curAddr := 0xFFFFF0, remaining := 32, chunkLen := 16 })
    (t.curAddr, t.bufOff, t.remaining, t.chunkLen) = (0x000000, 16, 16, 16) := by decide

/-- L2-L1: with LEGACY_INCLUSIVE_XFER a third data byte follows the second. -/
theorem test_legacy_sends_one_more :
    ppAfter { Params.conforming with legacyXfer := true } 2 2 = .bufRead 2 ∧ ppAfter Params.conforming 2 2 = .cs1 := by
  decide

/-- L2-A2: the next check sees the abort with `cs_n = 0`. -/
theorem test_abort_raises_chip_select :
    ((nextOf (step { inChunk (.chunkPp .addrHigh) [] with
        csN := false, env := { Env.fresh with pins := levels true true } })).map
      (fun t => (t.phase, t.csN, t.trace))) = some (.busy .respondAborted, true, [.cs true]) := by rfl

/-- L2-A1: with `cs_n = 1` the response comes at once. -/
theorem test_abort_responds_at_once :
    ((nextOf (step { inside 0x2 (.waitReady GatePoint.start) [] [] with
        srLatch := 0x01, env := { Env.fresh with pins := levels true true } })).map
      (fun t => (t.phase, t.trace))) = some (.idle, [.respond .errAborted 0x01]) := by rfl

/-! ### States for the witnesses -/

/-- With other levels. -/
def withLevels (s : State) (rstN abort : Bool) : State :=
  { s with env := { s.env with pins := levels rstN abort } }

/-- In the Page Program of L2-W14's first chunk, its four command bytes sent. -/
def midPp : State :=
  { inChunk (.chunkPp (.bufRead 0)) [] with
    csN := false, chip := { enabledChip [] with frame := some (addressedFrame opPp 0x0000FF []) } }

/-- In the Read Status of READ_STATUS, chip-select just fallen. -/
def selectedRdsr : State :=
  { inside 0x3 (.readStatus .opcode) [0x03] [] with csN := false, chip := { Chip.fresh with frame := some [] } }

/-- WAIT_READY has its answer: RESPOND comes next. -/
def answered : State := inside 0x2 .respondOk [] []

/-- The invariant says nothing of the inputs. -/
theorem inv_withLevels {s : State} (h : s.Inv) (r a : Bool) : (withLevels s r a).Inv :=
  ⟨h.cs, h.unselected, h.sent, h.regs, h.flash⟩

theorem inv_given (l : List Code) (vs : List Byte) (ts : List Time) : (given l vs ts).Inv :=
  ⟨rfl, fun _ => rfl, (fun _ h => by cases h), (fun _ h => by cases h), rfl⟩

theorem inv_midPp : midPp.Inv := by
  refine ⟨rfl, (fun h => by cases h), ?_, ?_, rfl⟩
  · intro p h _
    cases h
    exact ⟨_, rfl, by decide, [], rfl, rfl⟩
  · intro p h
    cases h
    exact ⟨rfl, rfl, fun _ => ⟨by decide, by decide, by decide⟩, (fun h => by cases h)⟩

theorem inv_selectedRdsr : selectedRdsr.Inv := by
  refine ⟨rfl, (fun h => by cases h), ?_, ?_, rfl⟩
  · intro p h _
    cases h
    exact ⟨_, rfl, rfl⟩
  · intro p h
    cases h
    exact ⟨rfl, trivial, fun h => (by cases h), (fun h => by cases h)⟩

theorem inv_answered : answered.Inv := by
  refine ⟨rfl, fun _ => rfl, (fun p _ h => by cases h), ?_, rfl⟩
  intro p h
  cases h
  exact ⟨rfl, Or.inr rfl, (fun h => by cases h), fun _ h => absurd h (by decide)⟩

/-! ### Witnesses: reset, encoding, the step -/

theorem witness_ResetFromAnyState : (withLevels midPp false false).env.tick.pins.rstN = false := rfl

theorem witness_ResetSparesTheChip :
    (∃ s t : State, s.Inv ∧ s.env.tick.pins.rstN = false ∧ step s = .next t ∧ s.csN = true ∧
        ∀ q, s.phase ≠ .busy (.chunkPp q)) ∧
      ∃ s t : State, s.Inv ∧ s.env.tick.pins.rstN = false ∧ step s = .next t ∧ s.csN = false ∧
        pageIndex 0x000100 ≠ pageIndex s.curAddr :=
  ⟨⟨withLevels (given [] [] []) false false, _, inv_withLevels (inv_given _ _ _) _ _, rfl, step_reset rfl, rfl,
      fun q h => by cases h⟩,
    withLevels midPp false false, _, inv_withLevels inv_midPp _ _, rfl, step_reset rfl, rfl, by decide⟩

theorem witness_DecodeOfEncode :
    (Instr.pp 0xFFFFFF (filled 256)).wellFormed = true ∧
      (Instr.reservedRequest 0xF 0x0 0xFFFFFF 0xFFFFFFFF).wellFormed = true := by
  simp [Instr.wellFormed, filled_length, isReserved, isRequestOp]

theorem witness_EncodeOfDecode :
    (∃ i, decode (.frame [0x9F, 0x00, 0x01, 0x02]) = .ok i ∧ i.wellFormed = true) ∧
      ∃ a ds, decode (.frame (addressedFrame opPp 0x0000FE (filled 257))) = .ok (.pp a ds) ∧
        256 < ds.length :=
  ⟨⟨_, rfl, rfl⟩, _, _, rfl, by
    rw [List.length_cons, List.length_replicate]
    decide⟩

theorem witness_RequestWordClasses :
    wordRsv 0x1100000000000001 ≠ 0 ∧ wordOp 0x0000000000000000 ∉ [0x1, 0x2, 0x3, 0x4] ∧
      wordOp 0x5000000000000000 ∉ [0x1, 0x2, 0x3, 0x4] ∧
      (wordRsv 0x1000012C00000190 = 0 ∧ wordOp 0x1000012C00000190 = 0x1) ∧
      (wordRsv 0x20FFFFFFFFFFFFFF = 0 ∧ wordOp 0x20FFFFFFFFFFFFFF = 0x2) ∧
      (wordRsv 0x3000000000000000 = 0 ∧ wordOp 0x3000000000000000 = 0x3) ∧
      (wordRsv 0x4000000000000000 = 0 ∧ wordOp 0x4000000000000000 = 0x4) := by decide

theorem witness_StepRunsTheOfferedInstruction :
    (∃ s : State, s.env.tick.pins.rstN = true ∧ s.phase = .idle ∧
        ∃ c rest i, s.env.offers = c :: rest ∧ decode c = .ok i) ∧
      (∃ s : State, s.env.tick.pins.rstN = true ∧ s.phase = .idle ∧
        ∃ c rest r, s.env.offers = c :: rest ∧ decode c = .error r) ∧
      ∃ s : State, s.env.tick.pins.rstN = true ∧ s.phase = .idle ∧ s.env.offers = [] :=
  ⟨⟨given [.frame [0xC7]] [] [], rfl, rfl, _, _, _, rfl, rfl⟩,
    ⟨given [.frame [0xAB]] [] [], rfl, rfl, _, _, _, rfl, rfl⟩, given [] [] [], rfl, rfl, rfl⟩

theorem witness_RequestHandshake :
    (∃ (s : State) (w : RequestWord) (rest : List Code), s.env.offers = .request w :: rest ∧
        s.env.tick.pins.rstN = true ∧ s.phase = .idle) ∧
      (∃ (s t : State) (w : RequestWord) (rest : List Code), s.env.offers = .request w :: rest ∧
        s.env.tick.pins.rstN = false ∧ step s = .next t) ∧
      ∃ (s t : State) (w : RequestWord) (rest : List Code), s.env.offers = .request w :: rest ∧
        s.phase ≠ .idle ∧ step s = .next t :=
  ⟨⟨given [.request 0x1000012C00000190] [] [], _, _, rfl, rfl, rfl⟩,
    ⟨withLevels (given [.request 0x1000012C00000190] [] []) false false, _, _, _, rfl, rfl, step_reset rfl⟩,
    { given [.request 0x1000012C00000190] [] [] with phase := .busy .respondOk }, _, _, _, rfl, by decide, rfl⟩

theorem witness_IgnoredFieldsHaveNoEffect :
    (0x20FFFFFFFFFFFFFF : RequestWord).extractLsb' 56 8 = (0x2000000000000000 : RequestWord).extractLsb' 56 8 ∧
      wordOp 0x20FFFFFFFFFFFFFF ∈ [0x2, 0x3, 0x4] ∧ wordRsv 0x20FFFFFFFFFFFFFF = 0 ∧ State.reset.phase = .idle ∧
      State.reset.env.tick.pins.rstN = true := by decide

/-! ### Witnesses: requests taken -/

/-- For WriteIsTaken (both lengths), PollRequestsAreTaken and BadWordIsAnswered (a reserved op, and `rsv` alone). -/
theorem witness_RequestsAreTaken :
    State.reset.reqReady = true ∧ isReserved 0x0 0x0 = true ∧ isReserved 0x5 0x0 = true ∧ isReserved 0x1 0x1 = true ∧
      (0 : Count) = 0 ∧ (0xFFFFFFFF : Count) ≠ 0 := by decide

theorem witness_RequestWaitsUntilReady :
    midPp.reqReady = false ∧ (withLevels State.reset false false).reqReady = false := by decide

/-! ### Witnesses: the gate -/

theorem witness_ReadSrMakesFourEvents :
    (∃ s : State, s.calm ∧ s.phase = .busy (Point.readStatus .cs0) ∧ s.env.statuses = 0x03 :: []) ∧
      ∃ s : State, s.calm ∧ s.phase = .busy (GateSite.chunk3.point (.poll .cs0)) ∧ s.env.statuses = 0x03 :: [] :=
  ⟨⟨inside 0x3 (.readStatus .cs0) [0x03] [], ⟨rfl, rfl, rfl⟩, rfl, rfl⟩,
    inChunk (.chunkGate3 (.poll .cs0)) [0x03], ⟨rfl, rfl, rfl⟩, rfl, rfl⟩

theorem witness_GateEndsExactlyWhenReady :
    (∃ s : State, s.calm ∧ s.phase = .busy (GateSite.waitReady.point (.poll (.cs1 0xFE)))) ∧
      (∃ s : State, s.calm ∧ s.phase = .busy (GateSite.chunk3.point (.poll (.cs1 0x01)))) ∧
      ∃ s : State, s.calm ∧ s.phase = .busy (GateSite.enable.point .now) :=
  ⟨⟨inside 0x2 (.waitReady (.poll (.cs1 0xFE))) [] [], ⟨rfl, rfl, rfl⟩, rfl⟩,
    ⟨inChunk (.chunkGate3 (.poll (.cs1 0x01))) [], ⟨rfl, rfl, rfl⟩, rfl⟩,
    inside 0x4 (.enableGate .now) [] [], ⟨rfl, rfl, rfl⟩, rfl⟩

theorem witness_GateOnIdleChipPollsOnce :
    ∃ s : State, s.calm ∧ s.phase = .busy (GateSite.waitReady.point GatePoint.start) ∧ s.env.statuses = 0xFE :: [] ∧
      isBusyStatus 0xFE = false :=
  ⟨inside 0x2 (.waitReady .start) [0xFE] [], ⟨rfl, rfl, rfl⟩, rfl, rfl, rfl⟩

/-- L2-G4 and L2-G3: 1001 is above LOG_INTERVAL, 1000 is not. -/
theorem witness_BusyPollSamplesTimeAndLogs :
    (∃ s : State, s.calm ∧ s.phase = .busy (GateSite.waitReady.point (.poll (.cs1 0x01))) ∧
        isBusyStatus 0x01 = true ∧ s.env.nows = 1001 :: [] ∧
        s.params.logInterval < ((1001 : Time) - s.lastLogTs).toNat) ∧
      ∃ s : State, s.calm ∧ s.phase = .busy (GateSite.waitReady.point (.poll (.cs1 0x01))) ∧
        isBusyStatus 0x01 = true ∧ s.env.nows = 1000 :: [] ∧
        ¬ s.params.logInterval < ((1000 : Time) - s.lastLogTs).toNat :=
  ⟨⟨inside 0x2 (.waitReady (.poll (.cs1 0x01))) [] [1001], ⟨rfl, rfl, rfl⟩, rfl, rfl, rfl, by decide⟩,
    inside 0x2 (.waitReady (.poll (.cs1 0x01))) [] [1000], ⟨rfl, rfl, rfl⟩, rfl, rfl, rfl, by decide⟩

theorem witness_TimeIsReadOnlyInTheGate :
    (∃ s t : State, step s = .next t ∧ t.trace = s.trace ++ [.now 1000]) ∧
      (∃ s t : State, step s = .next t ∧ t.lastLogTs ≠ s.lastLogTs ∧ s.env.tick.pins.rstN = true) ∧
      ∃ s t : State, step s = .next t ∧ t.lastLogTs ≠ s.lastLogTs ∧ s.env.tick.pins.rstN = false :=
  ⟨⟨inside 0x2 (.waitReady .now) [] [1000], _, rfl, rfl⟩,
    ⟨inside 0x2 (.waitReady (.log 1001)) [] [], _, rfl, by decide, rfl⟩,
    { withLevels State.reset false false with lastLogTs := 1500 }, _, step_reset rfl,
      show (0 : Time) ≠ 1500 by decide, rfl⟩

/-- L2-G5 against times that never make a log due. -/
theorem witness_LogHasNoEffectOnTheProtocol :
    ∃ s : State, s.calm ∧ s.phase = .busy (GateSite.waitReady.point GatePoint.start) ∧
      s.env.statuses = [0x03, 0x01, 0x01] ++ 0x00 :: [] ∧
      (∀ b ∈ ([0x03, 0x01, 0x01] : List Byte), isBusyStatus b = true) ∧ isBusyStatus 0x00 = false ∧
      ([0x03, 0x01, 0x01] : List Byte).length ≤ s.env.nows.length ∧
      ([0x03, 0x01, 0x01] : List Byte).length ≤ ([0, 0, 0] : List Time).length :=
  ⟨inside 0x2 (.waitReady .start) [0x03, 0x01, 0x01, 0x00] [900, 1500, 2100], ⟨rfl, rfl, rfl⟩, rfl, rfl, by decide, rfl,
    by decide, by decide⟩

theorem witness_GateHangsWhileBusy :
    ∃ s : State, s.calm ∧ s.phase = .busy (GateSite.waitReady.point GatePoint.start) ∧
      10 ≤ 5 * s.env.statuses.length ∧ ∀ b ∈ s.env.statuses, isBusyStatus b = true :=
  ⟨inside 0x2 (.waitReady .start) [0x01, 0x01] [], ⟨rfl, rfl, rfl⟩, rfl, by decide, by decide⟩

theorem witness_ReadStatusRunsToItsResponse :
    ∃ s : State, s.calm ∧ s.offersRequest (.readStatus 0 0) ∧ s.env.statuses = 0x03 :: [] :=
  ⟨given [.request 0x3000000000000000] [0x03] [], ⟨rfl, rfl, rfl⟩, ⟨rfl, _, _, rfl, by decide⟩, rfl⟩

theorem witness_WaitReadyRunsToItsResponse :
    ∃ s : State, s.calm ∧ s.offersRequest (.waitReady 0xFFFFFF 0xFFFFFFFF) ∧
      s.env.statuses = [0x03, 0x01, 0x01] ++ 0x00 :: [] ∧
      (∀ b ∈ ([0x03, 0x01, 0x01] : List Byte), isBusyStatus b = true) ∧ isBusyStatus 0x00 = false ∧
      s.chip.wip = true ∧ s.chip.wel ≠ .unknown :=
  ⟨{ given [.request 0x20FFFFFFFFFFFFFF] [0x03, 0x01, 0x01, 0x00] [] with
      chip := { enabledChip [] with wip := true } },
    ⟨rfl, rfl, rfl⟩, ⟨rfl, _, _, rfl, by decide⟩, rfl, by decide, rfl, rfl, by decide⟩

theorem witness_WriteEnableTransaction :
    (∃ s : State, s.calm ∧ s.phase = .busy (WrenSite.enable.point .cs0) ∧ s.chip.busy = false) ∧
      ∃ s : State, s.calm ∧ s.phase = .busy (WrenSite.chunk.point .cs0) :=
  ⟨⟨inside 0x4 (.enableWren .cs0) [] [], ⟨rfl, rfl, rfl⟩, rfl, rfl⟩,
    inChunk (.chunkWren .cs0) [], ⟨rfl, rfl, rfl⟩, rfl⟩

theorem witness_WriteEnableRunsToItsResponse :
    ∃ s : State, s.calm ∧ s.offersRequest (.writeEnable 0 0) ∧ s.env.statuses = 0x02 :: [] ∧
      isBusyStatus 0x02 = false ∧ s.chip.busy = false :=
  ⟨given [.request 0x4000000000000000] [0x02] [], ⟨rfl, rfl, rfl⟩, ⟨rfl, _, _, rfl, by decide⟩, rfl, rfl, rfl⟩

/-! ### Witnesses: the splitter -/

theorem witness_ChunkLengthRule : (inChunk (.chunkWren .cs0) []).remaining ≠ 0 := by decide

/-- At the last byte of a page, with the buffer byte held stable, and a whole page; for PageProgramReachesTheChip too. -/
theorem witness_PageProgramTransaction :
    (∃ s : State, s.calm ∧ s.phase = .busy (.chunkPp .cs0) ∧ chunkFits s.curAddr s.chunkLen = true ∧
        s.bufByte? (s.bufOff + BitVec.ofNat 32 0) = some 0x5A) ∧
      ∃ s : State, s.calm ∧ s.phase = .busy (.chunkPp .cs0) ∧ chunkFits s.curAddr s.chunkLen = true ∧
        s.chunkLen = 256 :=
  ⟨⟨{ inChunk (.chunkPp .cs0) [] with env := { Env.fresh with buf := [some 0x5A, some 0xA5] } }, ⟨rfl, rfl, rfl⟩, rfl,
      by decide, by decide⟩,
    { inChunk (.chunkPp .cs0) [] with curAddr := 0x000100, remaining := 256, chunkLen := 256 }, ⟨rfl, rfl, rfl⟩, rfl,
      by decide, rfl⟩

/-- The last chunk, and one that is not the last. -/
theorem witness_ChunkAdvance :
    (∃ s t : State, s.calm ∧ s.phase = .busy (.chunkGate3 (.poll (.cs1 0x00))) ∧ isBusyStatus 0x00 = false ∧
        chunkOk s ∧ step s = .next t ∧ t.remaining ≠ 0) ∧
      ∃ s t : State, s.calm ∧ s.phase = .busy (.chunkGate3 (.poll (.cs1 0x00))) ∧ isBusyStatus 0x00 = false ∧
        chunkOk s ∧ step s = .next t ∧ t.remaining = 0 :=
  ⟨⟨{ inChunk (.chunkGate3 (.poll (.cs1 0x00))) [] with csN := false }, _, ⟨rfl, rfl, rfl⟩, rfl, rfl,
      ⟨by decide, by decide, by decide⟩, rfl, by decide⟩,
    { inChunk (.chunkGate3 (.poll (.cs1 0x00))) [] with csN := false, remaining := 1 }, _, ⟨rfl, rfl, rfl⟩, rfl, rfl,
      ⟨by decide, by decide, by decide⟩, rfl, by decide⟩

theorem witness_ZeroLengthWrite : ∃ s : State, s.calm ∧ s.offersRequest (.write 0x00012C 0) :=
  ⟨given [.request 0x1000012C00000000] [] [], ⟨rfl, rfl, rfl⟩, rfl, _, _, rfl, by decide⟩

theorem witness_ChunkSequence :
    ∃ s : State, s.calm ∧ s.phase = .busy (.chunkWren .cs0) ∧ chunkOk s ∧
      s.env.statuses = 0x00 :: 0x00 :: 0xFE :: [] ∧ isBusyStatus 0x00 = false ∧ isBusyStatus 0xFE = false :=
  ⟨inChunk (.chunkWren .cs0) [0x00, 0x00, 0xFE], ⟨rfl, rfl, rfl⟩, rfl, ⟨by decide, by decide, by decide⟩, rfl, rfl, rfl⟩

/-- L2-W14, with and without LEGACY_INCLUSIVE_XFER. -/
theorem witness_WriteRunsToItsResponse :
    ∃ s : State, s.calm ∧ s.offersRequest (.write 0x0000FF 2) ∧ (2 : Count) ≠ 0 ∧
      0 = (if s.params.legacyXfer then 1 else 0) ∧ s.readyFor (3 * chunkCount 0x0000FF 2) [] ∧
      1 < chunkCount 0x0000FF 2 :=
  ⟨given [.request 0x100000FF00000002] (List.replicate 6 0x00) [], ⟨rfl, rfl, rfl⟩, ⟨rfl, _, _, rfl, by decide⟩, by decide,
    rfl, ⟨List.replicate 6 0x00, rfl, by decide, by decide⟩, by decide⟩

theorem witness_WriteRunsToItsResponse_legacy :
    ∃ s : State, s.calm ∧ s.offersRequest (.write 0x0000FE 2) ∧ (2 : Count) ≠ 0 ∧
      1 = (if s.params.legacyXfer then 1 else 0) ∧ s.readyFor (3 * chunkCount 0x0000FE 2) [] :=
  ⟨{ given [.request 0x100000FE00000002] (List.replicate 3 0x00) [] with
      params := { Params.conforming with legacyXfer := true } },
    ⟨rfl, rfl, rfl⟩, ⟨rfl, _, _, rfl, by decide⟩, by decide, rfl, ⟨List.replicate 3 0x00, rfl, by decide, by decide⟩⟩

/-- L2-W14: its last chunk, and its first Page Program, which begins at the run's twelfth point. -/
theorem witness_ChunkListInClosedForm :
    ∃ s t : State, s.calm ∧ s.offersRequest (.write 0x0000FF 2) ∧ (2 : Count) ≠ 0 ∧
      0 = (if s.params.legacyXfer then 1 else 0) ∧ s.readyFor (3 * chunkCount 0x0000FF 2) [] ∧
      1 < chunkCount 0x0000FF 2 ∧ 1 + 11 ≤ 1 + (21 + 2 * 0) * chunkCount 0x0000FF 2 + 2 * (2 : Count).toNat ∧
      Reaches (1 + 11) s t ∧ t.phase = .busy (.chunkPp .cs0) :=
  ⟨given [.request 0x100000FF00000002] (List.replicate 6 0x00) [], _, ⟨rfl, rfl, rfl⟩, ⟨rfl, _, _, rfl, by decide⟩,
    by decide, rfl, ⟨List.replicate 6 0x00, rfl, by decide, by decide⟩, by decide, by decide,
    reaches_add (reaches_one rfl) (run_toPp ⟨rfl, rfl, rfl⟩ rfl rfl rfl rfl), rfl⟩

/-- The last two bytes of the address space, on an erased chip, with another WRITE's buffer behind this one's. -/
theorem witness_WriteRoundTrip :
    ∃ s : State, s.calm ∧ s.offersRequest (.write 0xFFFFFE 2) ∧
      s.env.bufs = [some 0x11, some 0x22] :: [[some 0x33]] ∧ s.params.legacyXfer = false ∧
      s.readyFor (3 * chunkCount 0xFFFFFE 2) [] ∧ s.chipIdle ∧ s.chip.flash.wf = true ∧
      (0xFFFFFE : FlashAddr).toNat + (2 : Count).toNat ≤ flashSize ∧
      (0xFFFFFE : FlashAddr).toNat + (2 : Count).toNat ≤ s.params.capacity ∧
      (∀ i, i < (2 : Count).toNat → ∃ v, ([some 0x11, some 0x22] : List (Option Byte))[i]? = some (some v)) ∧
      ∀ i, i < (2 : Count).toNat → s.chip.flash.read (0xFFFFFE + BitVec.ofNat 24 i) = erasedByte := by
  refine ⟨{ given [] [] [] with
      env := { Env.fresh with
        offers := [.request 0x10FFFFFE00000002], statuses := List.replicate 3 0x00
        bufs := [[some 0x11, some 0x22], [some 0x33]] } },
    ⟨rfl, rfl, rfl⟩, ⟨rfl, _, _, rfl, by decide⟩, rfl, rfl,
    ⟨List.replicate 3 0x00, rfl, by decide, by decide⟩, ⟨rfl, rfl⟩, rfl, by decide,
    by decide, ?_, fun _ _ => rfl⟩
  intro i hi
  have h : i = 0 ∨ i = 1 := by have : i < 2 := hi; omega
  rcases h with rfl | rfl
  · exact ⟨_, rfl⟩
  · exact ⟨_, rfl⟩

/-! ### Witnesses: faults and the abort -/

/-- No byte to send, and one byte more than the page has. -/
theorem witness_BoundaryViolationIsAFault :
    (∃ s : State, s.env.tick.pins.rstN = true ∧ s.phase = .busy (.chunkPp .cs0) ∧
        chunkFits s.curAddr s.chunkLen = false ∧ s.chunkLen = 0) ∧
      ∃ s : State, s.env.tick.pins.rstN = true ∧ s.phase = .busy (.chunkPp .cs0) ∧
        chunkFits s.curAddr s.chunkLen = false ∧ s.chunkLen = 2 :=
  ⟨⟨{ inChunk (.chunkPp .cs0) [] with chunkLen := 0 }, rfl, rfl, by decide, rfl⟩,
    { inChunk (.chunkPp .cs0) [] with chunkLen := 2 }, rfl, rfl, by decide, rfl⟩

/-- A conforming block, and one with LEGACY_INCLUSIVE_XFER; for BusyBlockAlwaysSteps and EveryStepKeepsTheInvariant
too. -/
theorem witness_NoPageProgramCrossesAPage :
    (∃ s t : State, s.Inv ∧ s.phase = .busy (.chunkPp (.bufRead 0)) ∧ s.params.legacyXfer = false ∧ step s = .next t) ∧
      ∃ s : State, s.Inv ∧ s.phase = .busy (.chunkPp .cs0) ∧ s.params.legacyXfer = true :=
  ⟨⟨midPp, _, inv_midPp, rfl, rfl, rfl⟩,
    { inChunk (.chunkPp .cs0) [] with params := { Params.conforming with legacyXfer := true } },
    ⟨rfl, fun _ => rfl, (fun p h hc => by cases hc),
      (fun p h => by
        cases h
        exact ⟨rfl, rfl, fun _ => ⟨by decide, by decide, by decide⟩, (fun h => by cases h)⟩), rfl⟩, rfl, rfl⟩

theorem witness_AbortEndsTheRequest :
    (withLevels answered true true).abortAt ∧ (withLevels answered true true).phase = .busy .respondOk ∧
    (∃ s : State, s.abortAt ∧ s.phase = .busy (.chunkPp .cs0) ∧ chunkFits s.curAddr s.chunkLen = true ∧
        s.csN = true) ∧
      ∃ s t : State, s.abortAt ∧ s.phase = .busy (.chunkPp (.bufRead 0)) ∧ s.csN = false ∧ step s = .next t ∧
        t.env.tick.pins.rstN = true :=
  ⟨⟨rfl, rfl⟩, rfl, ⟨withLevels (inChunk (.chunkPp .cs0) []) true true, ⟨rfl, rfl⟩, rfl, by decide, rfl⟩,
    withLevels midPp true true, _, ⟨rfl, rfl⟩, rfl, rfl, rfl, rfl⟩

theorem witness_AbortSparesOtherPages :
    (∃ s t : State, s.Inv ∧ s.abortAt ∧ s.phase = .busy (.chunkPp (.bufRead 0)) ∧ step s = .next t ∧
        pageIndex 0x000100 ≠ pageIndex s.curAddr) ∧
      ∃ s t : State, s.Inv ∧ s.abortAt ∧ s.phase = .busy (.readStatus .opcode) ∧ step s = .next t :=
  ⟨⟨withLevels midPp true true, _, inv_withLevels inv_midPp _ _, ⟨rfl, rfl⟩, rfl, rfl, by decide⟩,
    withLevels selectedRdsr true true, _, inv_withLevels inv_selectedRdsr _ _, ⟨rfl, rfl⟩, rfl, rfl⟩

/-- L2-A7, L2-A3, L2-A4, L2-A5: what is offered under a held abort. -/
theorem witness_AbortHeldAtAcceptance :
    let s (l : List Code) : State := withLevels (given l [] []) true true
    ((s []).env.pins.rstN = true ∧ (s []).env.pins.abort = true ∧ (s []).env.plan = [] ∧ (s []).phase = .idle ∧
        (s []).csN = true ∧ (s []).env.offers = []) ∧
      (s [.request 0x1000000000000001]).offersRequest (.write 0 1) ∧
      (s [.request 0x1000000000000000]).offersRequest (.write 0 0) ∧
      (s [.request 0x0000000000000000]).offersRequest (.reservedRequest 0x0 0x0 0 0) :=
  ⟨⟨rfl, rfl, rfl, rfl, rfl, rfl⟩, ⟨rfl, _, _, rfl, by decide⟩, ⟨rfl, _, _, rfl, by decide⟩, ⟨rfl, _, _, rfl, by decide⟩⟩

theorem witness_RespondIsNotChecked :
    ((withLevels answered true true).phase = .busy .respondOk ∧
        (withLevels answered true true).env.tick.pins.rstN = true) ∧
      ((withLevels answered false true).phase = .busy .respondOk ∧
        (withLevels answered false true).env.tick.pins.rstN = false) := ⟨⟨rfl, rfl⟩, rfl, rfl⟩

/-! ### Witnesses: every step -/

theorem witness_BufferBytesAreConserved :
    ∃ s t : State, s.Inv ∧ s.phase = .busy (.chunkPp (.bufRead 0)) ∧ (Point.chunkPp (.bufRead 0)).inChunk = true ∧
      s.env.tick.pins.rstN = true ∧ step s = .next t :=
  ⟨midPp, _, inv_midPp, rfl, rfl, rfl, rfl⟩

/-- Low, high, and high by a reset. -/
theorem witness_OnlyCsEventsMoveChipSelect :
    (∃ s t : State, step s = .next t ∧ t.csN ≠ s.csN ∧ t.csN = false) ∧
      (∃ s t : State, step s = .next t ∧ t.csN ≠ s.csN ∧ t.csN = true ∧ s.env.tick.pins.rstN = true) ∧
      ∃ s t : State, step s = .next t ∧ t.csN ≠ s.csN ∧ s.env.tick.pins.rstN = false :=
  ⟨⟨inside 0x3 (.readStatus .cs0) [] [], _, rfl, by decide, rfl⟩,
    ⟨withLevels selectedRdsr true true, _, rfl, by decide, rfl, rfl⟩,
    withLevels selectedRdsr false false, _, step_reset rfl, show true ≠ false by decide, rfl⟩

/-- A WRITE taken; something else offered; a WRITE offered in reset. -/
theorem witness_StepKeepsParametersAndBuffer :
    (∃ s t : State, s.offersRequest (.write 0x00012C 400) ∧ s.env.tick.pins.rstN = true ∧ step s = .next t) ∧
      (∃ s t : State, (∀ a len, ¬ s.offersRequest (.write a len)) ∧ step s = .next t) ∧
      ∃ s t : State, s.offersRequest (.write 0x00012C 400) ∧ s.env.tick.pins.rstN = false ∧ step s = .next t :=
  ⟨⟨given [.request 0x1000012C00000190] [] [], _, ⟨rfl, _, _, rfl, by decide⟩, rfl, rfl⟩,
    ⟨answered, _, (fun _ _ h => by cases h.1), rfl⟩,
    withLevels (given [.request 0x1000012C00000190] [] []) false false, _, ⟨rfl, _, _, rfl, by decide⟩, rfl,
      step_reset rfl⟩

/-- Each strobe of StrobesShowTheEvent is raised by a step. -/
theorem witness_StrobesShowTheEvent :
    (∃ t, step selectedRdsr = .next t ∧ t.ports.xfer = some 0x05) ∧
      (∃ t, step midPp = .next t ∧ t.ports.buf = some 0) ∧
      (∃ t, step (inside 0x2 (.waitReady (.log 1001)) [] []) = .next t ∧ t.ports.log = some 0x00) ∧
      ∃ t, step answered = .next t ∧ t.ports.rsp = some (.ok, 0x00) :=
  ⟨⟨_, rfl, rfl⟩, ⟨_, rfl, rfl⟩, ⟨_, rfl, rfl⟩, _, rfl, rfl⟩

theorem witness_ResponsesCarryTheStatus :
    (∃ s t : State, step s = .next t ∧ t.ports.rsp = some (.ok, 0x00)) ∧
      (∃ s t : State, step s = .next t ∧ t.ports.rsp = some (.errAborted, 0x00)) ∧
      ∃ s t : State, step s = .next t ∧ t.ports.rsp = some (.errBadOp, 0x00) :=
  ⟨⟨answered, _, rfl, rfl⟩, ⟨withLevels (inside 0x2 (.waitReady .now) [] []) true true, _, rfl, rfl⟩,
    given [.request 0x5000000000000000] [] [], _, rfl, rfl⟩

theorem witness_BlockSendsThreeOpcodes :
    ∃ (s t : State) (rx : Byte), s.Inv ∧ step s = .next t ∧ t.trace = s.trace ++ [.xfer 0x05 rx] ∧
      s.chip.frame = some [] :=
  ⟨selectedRdsr, _, _, inv_selectedRdsr, rfl, rfl, rfl⟩

/-! ### Witnesses: the flash and the bus commands -/

/-- For FlashReadAfterWrite and PageProgramEffect: memories with something and with nothing listed. -/
theorem witness_FlashReadAfterWrite :
    Memory.wf { cells := [(0x0000FF, 0x5A), (0xFFFFFF, 0x00)], base := .erased } = true ∧ Memory.blank.wf = true := by
  decide

/-- A free bus, an enabled chip, and targets below the capacity up to the last one. -/
theorem witness_BusCommands :
    ∃ s : State, s.phase = .idle ∧ s.chip.flash.wf = true ∧ s.chip.settle.accepts = true ∧ s.chip.busy = false ∧ ([0x11] : List Byte) ≠ [] ∧
      (∀ j, j < ([0x11] : List Byte).length → (pageTarget 0xFFFFFF j).toNat < s.params.capacity) ∧
      (0xFFFFFF : FlashAddr).toNat < s.params.capacity ∧ pageIndex 0x000000 ≠ pageIndex 0xFFFFFF ∧
      (0xFFFFFF : FlashAddr).toNat + 0 < flashSize :=
  ⟨{ given [] [] [] with chip := enabledChip [(0xFF, 0x5A)] }, rfl, by decide, by decide, rfl, by decide,
    by decide, by decide, by decide, by decide⟩

/-- RdsrCommand with a busy status scripted, with a ready one while a command executes, and with none. -/
theorem witness_RdsrCommand :
    (∃ s : State, s.phase = .idle ∧ s.env.statuses = 0x03 :: [] ∧ (0x03 : Byte).getLsbD 0 = true) ∧
      (∃ s : State, s.phase = .idle ∧ s.env.statuses = 0x02 :: [] ∧ (0x02 : Byte).getLsbD 0 = false ∧
        s.chip.wip = true ∧ s.chip.wel ≠ .unknown) ∧
      ∃ s : State, s.phase = .idle ∧ s.env.statuses = [] ∧ s.chip.wip = false :=
  ⟨⟨given [] [0x03] [], rfl, rfl, rfl⟩,
    ⟨{ given [] [0x02] [] with chip := { enabledChip [] with wip := true } }, rfl, rfl, rfl, rfl, by decide⟩,
    given [] [] [], rfl, rfl, rfl⟩

theorem witness_NoFrameWhileTheBusIsLocked :
    ∃ s t : State, s.phase ≠ .idle ∧ encode .ce = .frame [opCe] ∧ step s = .next t :=
  ⟨answered, _, by decide, rfl, rfl⟩

end Sys2Proof.Machine.Tests
end

section
/-! SUPPORT. The register `cs_n` over one step (spec/10_state.md R29): which event primitives write it, and that taking an
offer does not. -/

namespace Sys2Proof.Machine

/-- An event primitive leaves `cs_n`, or is the event CS with the level it writes (R16, R29). -/
theorem Primitive.csN_eq_or_trace_eq {s u : State} (h : Primitive s u) :
    u.csN = s.csN ∨ u.trace = s.trace ++ [.cs u.csN] := by
  cases h with
  | csLow => exact .inr (csLow_trace s)
  | csHigh => exact .inr (csHigh_trace s)
  | csHighCut => exact .inr (csHighCut_trace s)
  | xfer tx => exact .inl (xfer_csN tx s)
  | bufRead i => exact .inl (bufRead_csN i s)
  | log v => exact .inl (logEvent_csN v s)
  | now => exact .inl (sampleNow_csN s)
  | respond code => exact .inl (respond_csN code s)

/-- One event that changes `cs_n` is the event CS with the new level (R29). -/
theorem OneEvent.trace_eq_of_csN_ne {s t : State} (h : OneEvent s t) (hne : t.csN ≠ s.csN) :
    t.trace = s.trace ++ [.cs t.csN] := by
  obtain ⟨u, hu, -, hcs, -, htr, -⟩ := h
  rw [hcs] at hne ⊢
  rw [htr]
  exact hu.csN_eq_or_trace_eq.resolve_left hne

/-- Taking an offer leaves `cs_n`: a good request's first event comes in a later step, a bad word is only answered, and a
software frame has a chip-select of its own (R108, R140, log 27). -/
theorem Taken.csN_eq {s t : State} {i : Instr} (h : Taken s i t) : t.csN = s.csN := by
  cases h with
  | write a len => exact chunkHead_csN _
  | waitReady a len => rfl
  | readStatus a len => rfl
  | writeEnable a len => rfl
  | badWord op rsv a len => rfl
  | frame i f hf =>
    obtain ⟨-, -, -, -, -, -, -, -, hcs, -⟩ := swTransaction_block f s
    exact hcs

/-- Settles O45, by the four things a step can be: a reset, one event of a busy block, a quiet step, an offer taken. -/
theorem onlyCsEventsMoveChipSelect : Obligations.OnlyCsEventsMoveChipSelect := by
  intro s t hstep hne
  obtain ⟨hr, rfl⟩ | ⟨-, p, -, hadv⟩ | ⟨-, -, -, rfl⟩ | ⟨-, -, c, rest, i, -, -, htaken⟩ := step_next_cases hstep
  · exact .inr ⟨hr, resetBlock_csN _⟩
  · exact .inl ((advance_oneEvent hadv).trace_eq_of_csN_ne hne)
  · exact absurd (State.tick_csN s) hne
  · exact absurd htaken.csN_eq hne

end Sys2Proof.Machine
end

section
/-! SUPPORT. The fields `addr` and `len` that WAIT_READY, READ_STATUS and WRITE_ENABLE ignore (spec/30_encoding.md R76): what
their words decode to, and the step that takes an offered code. -/

namespace Sys2Proof.Machine

/-! ### The words of the three requests (R77) -/

theorem decodeRequest_waitReady {w : RequestWord} (hrsv : wordRsv w = 0) (hop : wordOp w = 0x2) :
    decodeRequest w = .waitReady (wordAddr w) (wordLen w) := by
  simp [decodeRequest, hrsv, hop]

theorem decodeRequest_readStatus {w : RequestWord} (hrsv : wordRsv w = 0) (hop : wordOp w = 0x3) :
    decodeRequest w = .readStatus (wordAddr w) (wordLen w) := by
  simp [decodeRequest, hrsv, hop]

theorem decodeRequest_writeEnable {w : RequestWord} (hrsv : wordRsv w = 0) (hop : wordOp w = 0x4) :
    decodeRequest w = .writeEnable (wordAddr w) (wordLen w) := by
  simp [decodeRequest, hrsv, hop]

/-! ### The three requests use neither address nor length (R76) -/

theorem exec_waitReady_congr (a a' : FlashAddr) (len len' : Count) (s : State) :
    exec (.waitReady a len) s = exec (.waitReady a' len') s := rfl

theorem exec_readStatus_congr (a a' : FlashAddr) (len len' : Count) (s : State) :
    exec (.readStatus a len) s = exec (.readStatus a' len') s := rfl

theorem exec_writeEnable_congr (a a' : FlashAddr) (len len' : Count) (s : State) :
    exec (.writeEnable a len) s = exec (.writeEnable a' len') s := rfl

/-- Two words with the same op and reserved fields, the op one of the three requests', run alike. -/
theorem exec_decodeRequest_congr {w w' : RequestWord} (hop : wordOp w' = wordOp w) (hrsv : wordRsv w' = wordRsv w)
    (hpoll : wordOp w ∈ [0x2, 0x3, 0x4]) (hrsv0 : wordRsv w = 0) (s : State) :
    exec (decodeRequest w) s = exec (decodeRequest w') s := by
  have hrsv0' : wordRsv w' = 0 := hrsv.trans hrsv0
  obtain h | h | h : wordOp w = 0x2 ∨ wordOp w = 0x3 ∨ wordOp w = 0x4 := by simpa using hpoll
  · rw [decodeRequest_waitReady hrsv0 h, decodeRequest_waitReady hrsv0' (hop.trans h)]
    exact exec_waitReady_congr ..
  · rw [decodeRequest_readStatus hrsv0 h, decodeRequest_readStatus hrsv0' (hop.trans h)]
    exact exec_readStatus_congr ..
  · rw [decodeRequest_writeEnable hrsv0 h, decodeRequest_writeEnable hrsv0' (hop.trans h)]
    exact exec_writeEnable_congr ..

/-! ### The step that takes an offer (R34) -/

/-- What is offered has no part in how a step begins: its levels are those of the plan. -/
theorem State.tick_setOffers (s : State) (l : List Code) : (s.setOffers l).tick = s.tick.setOffers l := by
  unfold State.tick State.setOffers Env.tick
  cases s.env.plan <;> rfl

/-- An idle block whose first offer decodes runs that instruction, with the offer gone from the list. -/
theorem idleStep_cons {s : State} {c : Code} {rest : List Code} {i : Instr} (ho : s.env.offers = c :: rest)
    (hd : decode c = .ok i) : idleStep s = exec i (s.setOffers rest) := by
  simp [idleStep, State.takeOffer, State.setOffers, ho, hd]

/-- The step of an idle block to which `c` is offered first. -/
theorem step_setOffers_cons {s : State} {c : Code} {i : Instr} (rest : List Code) (hp : s.phase = .idle)
    (hr : s.env.tick.pins.rstN = true) (hd : decode c = .ok i) :
    step (s.setOffers (c :: rest)) = exec i (s.tick.setOffers rest) := by
  have htick := State.tick_setOffers s (c :: rest)
  have hr' : (s.setOffers (c :: rest)).env.tick.pins.rstN = true :=
    (congrArg (·.env.pins.rstN) htick).trans hr
  rw [step_idle hr' hp, htick]
  exact idleStep_cons rfl hd

/-- Settles O10: bits 63..56 fix op and reserved field, so both words are the same request, and its `exec` looks at no
other field. -/
theorem ignoredFieldsHaveNoEffect : Obligations.IgnoredFieldsHaveNoEffect := by
  intro s w w' rest htop hpoll hrsv hp hr
  have hop : wordOp w' = wordOp w := by rw [wordOp_topByte, wordOp_topByte, htop]
  have hrsvEq : wordRsv w' = wordRsv w := by rw [wordRsv_topByte, wordRsv_topByte, htop]
  calc step (s.setOffers (.request w :: rest))
      = exec (decodeRequest w) (s.tick.setOffers rest) := step_setOffers_cons rest hp hr rfl
    _ = exec (decodeRequest w') (s.tick.setOffers rest) := exec_decodeRequest_congr hop hrsvEq hpoll hrsv _
    _ = step (s.setOffers (.request w' :: rest)) := (step_setOffers_cons rest hp hr rfl).symm

end Sys2Proof.Machine
end

section
/-! SUPPORT. READ_SR and GATE at each place that calls them (spec/40_ready_gate.md): what their callers leave unchanged as
they go on, the steps of a gate at which it ends, and the time check after a busy poll. -/

namespace Sys2Proof.Machine

/-! ### How a caller goes on (R85, R87) -/

/-- `u` is `t` with its caller gone on: no event, and neither `sr_latch` nor `last_log_ts` written. -/
def GoesOn (t u : State) : Prop := SameBus t u ∧ u.srLatch = t.srLatch ∧ u.lastLogTs = t.lastLogTs

theorem goesOn_goto (t : State) (p : Point) : GoesOn t (t.goto p) := ⟨sameBus_goto t p, rfl, rfl⟩

/-- The loop head after an advance writes the chunk registers only (R114). -/
theorem goesOn_nextChunk (t : State) : GoesOn t (chunkHead (chunkAdvance t)) :=
  ⟨SameBus.trans' ⟨rfl, rfl, rfl, rfl, rfl, rfl, rfl, rfl, rfl⟩ (sameBus_chunkHead _),
    chunkHead_srLatch _, chunkHead_lastLogTs _⟩

theorem GateSite.goesOn_after (g : GateSite) (t : State) : GoesOn t (g.after t) := by
  cases g with
  | waitReady => exact goesOn_goto t _
  | enable => exact goesOn_goto t _
  | chunk1 => exact goesOn_goto t _
  | chunk2 => exact goesOn_goto t _
  | chunk3 => exact goesOn_nextChunk t

/-- Only the third gate of a chunk is followed by the advance (R110, R114). -/
theorem GateSite.sameChunk_after {g : GateSite} (hg : g ≠ .chunk3) (t : State) : SameChunk t (g.after t) := by
  cases g with
  | chunk3 => exact absurd rfl hg
  | _ => exact ⟨rfl, rfl, rfl, rfl⟩

/-- Where a gate's caller goes depends on the chunk registers only. -/
theorem GateSite.after_phase_congr (g : GateSite) {s t : State} (hrem : t.remaining = s.remaining)
    (hlen : t.chunkLen = s.chunkLen) : (g.after t).phase = (g.after s).phase := by
  cases g with
  | chunk3 =>
    have hnext : (chunkAdvance t).remaining = (chunkAdvance s).remaining := by
      simp [hrem, hlen]
    simp only [GateSite.after]
    rw [chunkHead_phase, chunkHead_phase, hnext]
  | _ => rfl

/-! ### READ_SR (R85) -/

/-- Each place that calls READ_SR: its points are READ_SR's, and its caller then goes on, writing the chunk registers only
past the third gate of a chunk. -/
theorem readSr_caller {at' : SrPoint → Point}
    (hat : at' = .readStatus ∨ ∃ g : GateSite, at' = fun q => g.point (.poll q)) :
    ∃ done : Byte → State → State, (∀ q s, advance (at' q) s = .next (readSrStep at' done q s)) ∧
      (∀ v t, GoesOn t (done v t)) ∧
      (at' = (fun q => GateSite.chunk3.point (.poll q)) ∨ ∀ v t, SameChunk t (done v t)) := by
  obtain rfl | ⟨g, rfl⟩ := hat
  · exact ⟨_, fun _ _ => rfl, fun _ t => goesOn_goto t _, .inr fun _ _ => ⟨rfl, rfl, rfl, rfl⟩⟩
  · refine ⟨_, advance_poll g, fun v t => ?_, ?_⟩
    · split
      · exact goesOn_goto t _
      · exact g.goesOn_after t
    · by_cases hg : g = .chunk3
      · exact .inl (by rw [hg])
      · refine .inr fun v t => ?_
        split
        · exact ⟨rfl, rfl, rfl, rfl⟩
        · exact GateSite.sameChunk_after hg t

/-- The last event of READ_SR is its `CS(1)`. -/
theorem polled_trace (at' : SrPoint → Point) (v : Byte) (vs : List Byte) (s : State) :
    (polled v vs s).trace = (polling at' v vs s).trace ++ [.cs true] := by
  simp [polled, polling]

/-- A whole READ_SR changes no byte of the flash (R86). -/
theorem polled_chip_flash (v : Byte) (vs : List Byte) (s : State) : (polled v vs s).chip.flash = s.chip.flash := by
  simp [polled]

/-- Settles O15: three steps lead to the middle of the poll, and its `CS(1)` is the step after which the caller goes on. -/
theorem readSrMakesFourEvents : Obligations.ReadSrMakesFourEvents := by
  intro s at' v vs hat hc hp hs
  obtain ⟨done, hadv, hgo, hchunk⟩ := readSr_caller hat
  refine ⟨polling at' v vs s, Config.freeRx s.draws, run_polling hadv hc hp hs, rfl, rfl, rfl, rfl, rfl,
    _, step_polling hadv hc, ?_⟩
  obtain ⟨⟨hop, hcs, -, htr, -, hchip, henv, -, -⟩, hsr, hts⟩ :=
    hgo v { polled v vs s with phase := .busy (at' (.cs1 v)) }
  exact ⟨htr.trans (polled_trace at' v vs s), hsr, hcs, congrArg _ henv, hts, hop,
    (congrArg _ hchip).trans (polled_chip_flash v vs s), hchunk.imp_right fun h => h v _⟩

/-! ### GATE ends at a ready poll and nowhere else (R88) -/

/-- One step of a gate with no abort: the `CS(1)` of a ready poll, after which the caller goes on, or a step to another
point of the gate. -/
theorem gateStep_cases {at' : GatePoint → Point} {done : State → State} {s : State} (h : s.env.pins.abort = false)
    (q : GatePoint) :
    (∃ v, q = .poll (.cs1 v) ∧ isBusyStatus v = false ∧
        gateStep at' done q s = done { csHigh s with srLatch := v }) ∨
      ((∀ v, q = .poll (.cs1 v) → isBusyStatus v = true) ∧
        ∃ q', (gateStep at' done q s).phase = .busy (at' q')) := by
  cases q with
  | poll p =>
    rw [gateStep_poll]
    cases p with
    | cs0 => exact .inr ⟨nofun, .poll .opcode, by rw [readSrStep_cs0 h]; rfl⟩
    | opcode => exact .inr ⟨nofun, .poll .data, by rw [readSrStep_opcode h]; rfl⟩
    | data => exact .inr ⟨nofun, .poll (.cs1 (xferRx s)), by rw [readSrStep_data h]; rfl⟩
    | cs1 v =>
      rw [readSrStep_cs1 h]
      cases hv : isBusyStatus v with
      | false => exact .inl ⟨v, rfl, hv, rfl⟩
      | true => exact .inr ⟨fun w hw => by cases hw; exact hv, .now, rfl⟩
  | now =>
    refine .inr ⟨nofun, ?_⟩
    rw [gateStep_now h]
    split
    · exact ⟨.log (nowValue s), rfl⟩
    · exact ⟨GatePoint.start, rfl⟩
  | log t => exact .inr ⟨nofun, GatePoint.start, by rw [gateStep_log h]; rfl⟩

/-- Settles O16, by the steps of a gate. -/
theorem gateEndsExactlyWhenReady : Obligations.GateEndsExactlyWhenReady := by
  intro s g q hc hp
  exact ⟨_, (step_busy_calm hc hp).trans (advance_gate g q s.tick), gateStep_cases (tick_calm hc).2.1 q⟩

/-! ### GATE on an idle chip (R89) -/

/-- A poll that answers ready is a whole gate. -/
theorem run_readyPoll (g : GateSite) {s : State} {v : Byte} {vs : List Byte} (hc : s.calm)
    (hp : s.phase = .busy (g.point GatePoint.start)) (hs : s.env.statuses = v :: vs) (hv : isBusyStatus v = false) :
    Reaches 4 s (g.after (polled v vs s)) := by
  have h := run_polled (advance_poll g) hc hp hs
  rw [hv, if_neg Bool.false_ne_true, GateSite.after_rephase] at h
  exact h

theorem polled_trace_outline (v : Byte) (vs : List Byte) (s : State) :
    (polled v vs s).trace.map Event.outline = s.trace.map Event.outline ++ pollEvents s.params.dummyTx := by
  simp [polled, pollEvents, Event.outline]

/-- Settles O17: the one poll is the whole gate, and the caller goes on from where it left off. -/
theorem gateOnIdleChipPollsOnce : Obligations.GateOnIdleChipPollsOnce := by
  intro s g v vs hc hp hs hv
  obtain ⟨⟨-, -, -, htr, -, -, henv, -, -⟩, hsr, hts⟩ := g.goesOn_after (polled v vs s)
  exact ⟨_, run_readyPoll g hc hp hs hv, g.after_phase_congr rfl rfl, htr ▸ polled_trace_outline v vs s, hsr,
    congrArg _ henv, hts⟩

/-! ### The time check after a busy poll (R91, R92) -/

/-- `s` after the `CS(1)` of a poll of the gate at `g` that answered the busy `v`. -/
def busyPolled (g : GateSite) (v : Byte) (s : State) : State :=
  State.goto { csHigh s.tick with srLatch := v } (g.point .now)

@[simp] theorem busyPolled_trace (g : GateSite) (v : Byte) (s : State) :
    (busyPolled g v s).trace = s.trace ++ [.cs true] := rfl
@[simp] theorem busyPolled_srLatch (g : GateSite) (v : Byte) (s : State) : (busyPolled g v s).srLatch = v := rfl
@[simp] theorem busyPolled_lastLogTs (g : GateSite) (v : Byte) (s : State) :
    (busyPolled g v s).lastLogTs = s.lastLogTs := rfl

theorem step_busyPolled (g : GateSite) {s : State} {v : Byte} (hc : s.calm)
    (hp : s.phase = .busy (g.point (.poll (.cs1 v)))) (hv : isBusyStatus v = true) :
    step s = .next (busyPolled g v s) := by
  rw [step_busy_calm hc hp, advance_poll, readSrStep_cs1 (tick_calm hc).2.1, if_pos hv]
  rfl

theorem busyPolled_env (g : GateSite) (v : Byte) {s : State} (hc : s.calm) : (busyPolled g v s).env = s.env :=
  tick_env_of_calm hc

theorem busyPolled_calm (g : GateSite) (v : Byte) {s : State} (hc : s.calm) : (busyPolled g v s).calm := by
  unfold State.calm
  rw [busyPolled_env g v hc]
  exact hc

theorem nowValue_cons {s : State} {τ : Time} {τs : List Time} (h : s.env.nows = τ :: τs) : nowValue s = τ := by
  simp [nowValue, h]

/-- The run from the `CS(1)` of a busy poll to the next poll. -/
theorem run_busyPolled (g : GateSite) {s : State} {v : Byte} (hc : s.calm)
    (hp : s.phase = .busy (g.point (.poll (.cs1 v)))) (hv : isBusyStatus v = true) :
    Reaches (1 + if (busyPolled g v s).due then 2 else 1) s
      { timed (busyPolled g v s) with phase := .busy (g.point GatePoint.start) } :=
  reaches_add (reaches_one (step_busyPolled g hc hp hv)) (run_timed g (busyPolled_calm g v hc) rfl)

/-- Whether a log is due after a busy poll whose time sample is `τ` (R91). -/
theorem busyPolled_due (g : GateSite) {v : Byte} {s : State} {τ : Time} (hτ : nowValue (busyPolled g v s) = τ) :
    (busyPolled g v s).due = decide (s.params.logInterval < (τ - s.lastLogTs).toNat) := by
  rw [State.due, hτ]
  rfl

/-- Settles O18: the run to the next poll, with the log where it is due and without it where it is not. -/
theorem busyPollSamplesTimeAndLogs : Obligations.BusyPollSamplesTimeAndLogs := by
  intro s g v τ τs hc hp hv hn
  have hrun := run_busyPolled g hc hp hv
  have hnows : (busyPolled g v s).env.nows = τ :: τs := (congrArg _ (busyPolled_env g v hc)).trans hn
  have hτ := nowValue_cons hnows
  have hdue := busyPolled_due g hτ
  constructor
  · intro hlog
    rw [decide_eq_true hlog] at hdue
    rw [hdue] at hrun
    exact ⟨_, hrun, by simp [timed, hdue, hτ, hnows]⟩
  · intro hlog
    rw [decide_eq_false hlog] at hdue
    rw [hdue] at hrun
    exact ⟨_, hrun, by simp [timed, hdue, hτ, hnows]⟩

end Sys2Proof.Machine
end

section
/-! SUPPORT. The page-write splitter (spec/42_page_write_splitter.md): WRITE taken, the loop head and the advance between
chunks as numbers, PP_TXN whole, and the WRITE of length 0. -/

namespace Sys2Proof.Machine

/-! ### The loop head (R107, R109) -/

/-- `room` as a number: what is left of the page of `a` (R109). -/
theorem room_toNat_mod (a : FlashAddr) : (room a).toNat = 256 - a.toNat % 256 := by
  rw [room_toNat, pageOffset_toNat]

/-- With something left, the chunk's length at the loop head is that of R109. -/
theorem chunkHead_chunkLen_toNat {s : State} (h : s.remaining ≠ 0) :
    (chunkHead s).chunkLen.toNat = min s.remaining.toNat (256 - (pageOffset s.curAddr).toNat) := by
  rw [chunkHead_chunkLen, if_neg h, chunkLenFor_toNat]

/-- With something left, and `buf_off + remaining` in range, the loop head begins a chunk (R115, R122). -/
theorem chunkOk_chunkHead {s : State} (h : s.remaining ≠ 0) (hsum : s.bufOff.toNat + s.remaining.toNat < 2 ^ 32) :
    chunkOk (chunkHead s) := by
  rw [chunkHead_more h]
  exact ⟨h, rfl, hsum⟩

/-- Settles O11: the registers are set, and the loop head goes to the response or to the first chunk. -/
theorem writeIsTaken : Obligations.WriteIsTaken := by
  intro s a len hready
  refine ⟨_, execWrite_ready a len hready, chunkHead_op _, chunkHead_srLatch _, chunkHead_curAddr _,
    chunkHead_bufOff _, chunkHead_remaining _, fun hzero => ?_, fun hmore => ?_, chunkHead_lastLogTs _,
    chunkHead_csN _, chunkHead_ports _, chunkHead_trace _, chunkHead_swTrace _, chunkHead_chip _, ?_,
    chunkHead_draws _, chunkHead_params _⟩
  · rw [chunkHead_done hzero]
    exact ⟨rfl, rfl⟩
  · exact ⟨(chunkHead_phase _).trans (if_neg hmore), chunkHead_chunkLen_toNat hmore⟩
  · rw [chunkHead_env]
    rfl

/-- Settles O26: the length at the loop head is the minimum of what remains and of the room in the page, and it meets the
assertion of PP_TXN as every length of R109 does. -/
theorem chunkLengthRule : Obligations.ChunkLengthRule := by
  refine ⟨fun a => ?_, fun s hmore => ?_⟩
  · have hroom := room_toNat_mod a
    exact ⟨hroom, by omega, by omega⟩
  · have hlen := chunkHead_chunkLen_toNat hmore
    rw [pageOffset_toNat] at hlen
    have hfits : chunkFits s.curAddr (chunkHead s).chunkLen = true := by
      rw [chunkHead_chunkLen, if_neg hmore]
      exact chunkFits_chunkLenFor s.curAddr hmore
    have hpos : 1 ≤ (chunkHead s).chunkLen.toNat := by
      have hne : s.remaining.toNat ≠ 0 := fun e => hmore (BitVec.eq_of_toNat_eq e)
      omega
    exact ⟨hlen, hpos, hfits, (chunkHead_phase s).trans (if_neg hmore)⟩

/-! ### PP_TXN (R111) -/

/-- Settles O27, by the whole run of PP_TXN: it leaves all registers, and sends what it reads from the buffer. -/
theorem pageProgramTransaction : Obligations.PageProgramTransaction := by
  intro s hc hp hfits
  obtain ⟨ds, d, evs, hlen, hbytes, hevs, hrun⟩ := run_pp hc hp hfits
  exact ⟨_, ds, hrun, hlen, hbytes, by rw [List.map_append, hevs], rfl, ⟨rfl, rfl, rfl, rfl⟩, rfl, rfl, rfl, rfl⟩

/-! ### The advance (R114) -/

/-- A chunk's data ends inside the buffer index range (R114). -/
theorem chunkOk_bufOff_lt {s : State} (h : chunkOk s) : s.bufOff.toNat + s.chunkLen.toNat < 2 ^ 32 := by
  have hle := chunkOk_len_le h
  obtain ⟨-, -, hsum⟩ := h
  omega

/-- The advance keeps `buf_off + remaining`, the request length (R114, R122). -/
theorem chunkAdvance_sum_toNat {s : State} (h : chunkOk s) :
    (chunkAdvance s).bufOff.toNat + (chunkAdvance s).remaining.toNat = s.bufOff.toNat + s.remaining.toNat := by
  have hle := chunkOk_len_le h
  rw [chunkAdvance_bufOff_toNat (chunkOk_bufOff_lt h), chunkAdvance_remaining_toNat hle]
  omega

/-- Every chunk leaves less to do (R115). -/
theorem chunkAdvance_remaining_lt {s : State} (h : chunkOk s) :
    (chunkAdvance s).remaining.toNat < s.remaining.toNat := by
  have hle := chunkOk_len_le h
  have hpos := chunkOk_len_pos h
  rw [chunkAdvance_remaining_toNat hle]
  omega

/-- A chunk that is not the last ends with its page: the next one starts a page (R115). -/
theorem pageOffset_chunkAdvance {s : State} (h : chunkOk s) (hmore : (chunkAdvance s).remaining ≠ 0) :
    pageOffset (chunkAdvance s).curAddr = 0 := by
  have hrem := chunkAdvance_remaining_toNat (chunkOk_len_le h)
  have hne : (chunkAdvance s).remaining.toNat ≠ 0 := fun e => hmore (BitVec.eq_of_toNat_eq e)
  obtain ⟨-, hlen, -⟩ := h
  have hlenNat := chunkLenFor_toNat s.remaining s.curAddr
  rw [← hlen, pageOffset_toNat] at hlenNat
  apply BitVec.eq_of_toNat_eq
  rw [pageOffset_toNat, chunkAdvance_curAddr_toNat]
  show _ = 0
  omega

/-- With something left after a chunk, the loop head begins another (R115, R122). -/
theorem chunkOk_nextChunk {s : State} (h : chunkOk s) (hmore : (chunkAdvance s).remaining ≠ 0) :
    chunkOk (chunkHead (chunkAdvance s)) := by
  have hkept := chunkAdvance_sum_toNat h
  obtain ⟨-, -, hsum⟩ := h
  exact chunkOk_chunkHead hmore (hkept.trans_lt hsum)

/-- The `CS(1)` of a poll that answers ready ends its gate (R88). -/
theorem step_readyPolled (g : GateSite) {s : State} {v : Byte} (hc : s.calm)
    (hp : s.phase = .busy (g.point (.poll (.cs1 v)))) (hv : isBusyStatus v = false) :
    step s = .next (g.after { csHigh s.tick with srLatch := v }) := by
  rw [step_busy_calm hc hp, advance_poll, readSrStep_cs1 (tick_calm hc).2.1, if_neg (by simp [hv])]

/-- Settles O29: the gate's last event leaves the chunk registers, the advance moves them by the chunk's length without a
wrap, and the loop head goes to the response or to a chunk that starts a page. -/
theorem chunkAdvance_afterThirdGate : Obligations.ChunkAdvance := by
  intro s v hc hp hv hok
  have hok' : chunkOk { csHigh s.tick with srLatch := v } := hok
  refine ⟨_, step_readyPolled .chunk3 hc hp hv, ?_⟩
  simp only [GateSite.after, chunkHead_curAddr, chunkHead_bufOff, chunkHead_remaining, chunkHead_srLatch]
  refine ⟨chunkAdvance_curAddr_toNat _, chunkAdvance_bufOff_toNat (chunkOk_bufOff_lt hok'),
    chunkAdvance_remaining_toNat (chunkOk_len_le hok'), chunkAdvance_sum_toNat hok', chunkAdvance_remaining_lt hok',
    fun hlast => ?_, fun hmore => ?_⟩
  · exact ⟨(chunkHead_phase _).trans (if_pos hlast), rfl⟩
  · exact ⟨(chunkHead_phase _).trans (if_neg hmore), pageOffset_chunkAdvance hok' hmore, chunkOk_nextChunk hok' hmore⟩

/-! ### A WRITE of length 0 (R116) -/

/-- The step of a calm, idle block runs the request it is offered. -/
theorem step_offersRequest {s : State} {i : Instr} (hc : s.calm) (ho : s.offersRequest i) :
    ∃ rest, step s = exec i (s.tick.setOffers rest) := by
  obtain ⟨hp, w, rest, hoffers, rfl⟩ := ho
  refine ⟨rest, ?_⟩
  rw [step_idle ((congrArg (·.pins.rstN) (tick_env_of_calm hc)).trans hc.1) hp]
  exact idleStep_cons ((congrArg _ (tick_env_of_calm hc)).trans hoffers) rfl

theorem reqReady_of_idle {s : State} (hp : s.phase = .idle) (hr : s.env.pins.rstN = true) : s.reqReady = true := by
  simp [State.reqReady, State.busy, hp, hr]

/-- Settles O30: the step that takes the WRITE leads to the response, and the response is the next step. -/
theorem zeroLengthWrite : Obligations.ZeroLengthWrite := by
  intro s a hc ho
  obtain ⟨rest, htaken⟩ := step_offersRequest hc ho
  obtain ⟨hrst, habort, hplan⟩ := tick_calm hc
  have hready : (s.tick.setOffers rest).reqReady = true := reqReady_of_idle ho.1 hrst
  rw [execWrite_ready a 0 hready, chunkHead_done rfl] at htaken
  exact ⟨_, reaches_succ htaken (reaches_one (step_busy_calm (p := .respondOk) ⟨hrst, habort, hplan⟩ rfl)),
    rfl, rfl, rfl, rfl, rfl, rfl⟩

end Sys2Proof.Machine
end

section
/-! SUPPORT. The abort and the bad request word (spec/60_exceptions.md R140, R141, R144): what taking an abort leaves
unchanged, the step at each kind of point, and a request that is taken while the abort is held. -/

namespace Sys2Proof.Machine

/-- Settles O13: a bad word is `accept` and then the one event RESPOND. -/
theorem badWordIsAnswered : Obligations.BadWordIsAnswered := by
  intro s op rsv a len hready _
  exact ⟨_, execReservedRequest_ready op rsv a len hready, rfl, rfl, rfl, rfl, rfl, ⟨rfl, rfl, rfl, rfl⟩, rfl, rfl,
    rfl, rfl, rfl, rfl, rfl⟩

/-! ### Taking an abort (R141) -/

/-- Between transactions the abort is the response. -/
theorem takeAbort_unselected {s : State} (p : Point) (h : s.csN = true) : takeAbort p s = respond .errAborted s :=
  if_pos h

/-- Inside a transaction the abort is `CS(1)`, at which only the chip and its draws depend on the point. -/
theorem takeAbort_selected {s : State} (p : Point) (h : s.csN = false) :
    ∃ c n, takeAbort p s =
      ({ s with csN := true, chip := c, draws := n }.emit (.cs true)).goto .respondAborted := by
  obtain ⟨hcs, -⟩ | ⟨-, -, hcut⟩ | ⟨-, -, hend⟩ := takeAbort_cases p s
  · exact absurd (h.symm.trans hcs) Bool.false_ne_true
  · exact ⟨_, _, hcut⟩
  · exact ⟨_, _, hend⟩

/-! ### The step at each kind of point (R141, R146) -/

/-- Before every event but RESPOND the step takes the abort. -/
theorem step_abortAt {s : State} {p : Point} (ha : s.abortAt) (hp : s.phase = .busy p) (hok : p ≠ .respondOk)
    (haborted : p ≠ .respondAborted) (hfits : p = .chunkPp .cs0 → chunkFits s.curAddr s.chunkLen = true) :
    step s = .next (takeAbort p s.tick) :=
  (step_busy ha.1 hp).trans (advance_abort ha.2 hok haborted hfits)

/-- Between transactions that is the response at once. -/
theorem step_abortAt_unselected {s : State} {p : Point} (ha : s.abortAt) (hp : s.phase = .busy p)
    (hok : p ≠ .respondOk) (haborted : p ≠ .respondAborted)
    (hfits : p = .chunkPp .cs0 → chunkFits s.curAddr s.chunkLen = true) (hcs : s.csN = true) :
    step s = .next (respond .errAborted s.tick) :=
  (step_abortAt ha hp hok haborted hfits).trans (congrArg _ (takeAbort_unselected p hcs))

/-- RESPOND(OK) is not checked. -/
theorem step_respondOk {s : State} (hr : s.env.tick.pins.rstN = true) (hp : s.phase = .busy .respondOk) :
    step s = .next (respond .ok s.tick) :=
  step_busy hr hp

/-- Nor is the response after an abort's `CS(1)`. -/
theorem step_respondAborted {s : State} (hr : s.env.tick.pins.rstN = true) (hp : s.phase = .busy .respondAborted) :
    step s = .next (respond .errAborted s.tick) :=
  step_busy hr hp

/-- Settles O38, by the two ways to take an abort; after the `CS(1)` the response is the next step. -/
theorem abortEndsTheRequest : Obligations.AbortEndsTheRequest := by
  intro s p ha hp hfits
  refine ⟨?_, fun hok haborted hcs => ?_, fun hok haborted hcs => ?_⟩
  · rintro rfl
    exact ⟨_, step_respondOk ha.1 hp, rfl, rfl⟩
  · exact ⟨_, step_abortAt_unselected ha hp hok haborted hfits hcs, rfl, hcs, rfl, rfl, rfl, rfl, rfl⟩
  · have hstep := step_abortAt ha hp hok haborted hfits
    obtain ⟨c, n, htake⟩ := takeAbort_selected (s := s.tick) p hcs
    rw [htake] at hstep
    exact ⟨_, hstep, rfl, rfl, rfl, rfl, rfl, fun hr =>
      ⟨_, step_respondAborted hr rfl, rfl, rfl, rfl, rfl, rfl, rfl, rfl⟩⟩

/-! ### A request taken (R34) -/

/-- An idle block with reset released runs the request it is offered, whatever the abort. -/
theorem step_idle_offersRequest {s : State} {i : Instr} (hr : s.env.tick.pins.rstN = true) (ho : s.offersRequest i) :
    ∃ rest, step s = exec i (s.tick.setOffers rest) := by
  obtain ⟨hp, w, rest, hoffers, rfl⟩ := ho
  exact ⟨rest, (step_idle hr hp).trans (idleStep_cons ((Env.tick_offers s.env).trans hoffers) rfl)⟩

/-- What a request word decodes to is no software frame. -/
theorem encode_decodeRequest_ne_frame (w : RequestWord) (f : List Byte) : encode (decodeRequest w) ≠ .frame f := by
  unfold decodeRequest
  split_ifs <;> exact Code.noConfusion

/-- The points at which the requests that make an event begin: WRITE, WAIT_READY, READ_STATUS, WRITE_ENABLE
(R95, R96, R103, R110). -/
def startPoints : List Point :=
  [.chunkWren .cs0, .waitReady GatePoint.start, .readStatus .cs0, .enableWren .cs0]

/-- At none of them is the response due or a Page Program asserted. -/
theorem startPoints_checked :
    ∀ p ∈ startPoints, p ≠ .respondOk ∧ p ≠ .respondAborted ∧ p ≠ .chunkPp .cs0 := by decide

/-- `t` is `s` at the first event of a request just taken: `sr_latch` is 0x00, and no event has come yet (R108). -/
structure Started (s t : State) (p : Point) : Prop where
  start : p ∈ startPoints
  phase : t.phase = .busy p
  srLatch : t.srLatch = 0x00
  csN : t.csN = s.csN
  trace : t.trace = s.trace
  pins : t.env.pins = s.env.pins
  plan : t.env.plan = s.env.plan

/-- Every request taken but a WRITE of length 0 and a bad word stands at its first event. -/
theorem Taken.started {s t : State} {i : Instr} (h : Taken s i t) (hframe : ∀ f, encode i ≠ .frame f)
    (hzero : ∀ a, i ≠ .write a 0) (hbad : ∀ o r a l, i ≠ .reservedRequest o r a l) : ∃ p, Started s t p := by
  cases h with
  | write a len =>
    have hlen : len ≠ 0 := fun e => hzero a (e ▸ rfl)
    rw [chunkHead_more hlen]
    exact ⟨.chunkWren .cs0, by decide, rfl, rfl, rfl, rfl, rfl, rfl⟩
  | waitReady a len => exact ⟨.waitReady GatePoint.start, by decide, rfl, rfl, rfl, rfl, rfl, rfl⟩
  | readStatus a len => exact ⟨.readStatus .cs0, by decide, rfl, rfl, rfl, rfl, rfl, rfl⟩
  | writeEnable a len => exact ⟨.enableWren .cs0, by decide, rfl, rfl, rfl, rfl, rfl, rfl⟩
  | badWord op rsv a len => exact absurd rfl (hbad op rsv a len)
  | frame i f hf => exact absurd hf (hframe f)

/-! ### The abort held at acceptance (R144) -/

/-- Reset is released, the abort is 1, and neither changes. -/
def State.abortHeld (s : State) : Prop :=
  s.env.pins.rstN = true ∧ s.env.pins.abort = true ∧ s.env.plan = []

theorem tick_abortHeld {s : State} (h : s.abortHeld) : s.tick.abortHeld := by
  obtain ⟨hrst, habort, hplan⟩ := h
  unfold State.abortHeld
  rw [State.tick_env, Env.tick_of_plan_nil hplan]
  exact ⟨hrst, habort, hplan⟩

/-- A held abort is seen at the coming step. -/
theorem State.abortHeld.abortAt {s : State} (h : s.abortHeld) : s.abortAt := by
  obtain ⟨hrst, habort, -⟩ := tick_abortHeld h
  exact ⟨hrst, habort⟩

theorem State.abortHeld.tick_rstN {s : State} (h : s.abortHeld) : s.env.tick.pins.rstN = true := h.abortAt.1

/-- A request at its first event, with `cs_n = 1` and the abort held, is answered in the next step. -/
theorem Started.step_abortHeld {s t : State} {p : Point} (h : Started s t p) (ha : s.abortHeld) (hcs : s.csN = true) :
    ∃ u, step t = .next u ∧ u.phase = .idle ∧ u.trace = s.trace ++ [.respond .errAborted 0x00] := by
  have hat : t.abortHeld := by
    unfold State.abortHeld
    rw [h.pins, h.plan]
    exact ha
  obtain ⟨hok, haborted, hpp⟩ := startPoints_checked p h.start
  exact ⟨_, step_abortAt_unselected hat.abortAt h.phase hok haborted (fun e => absurd e hpp) (h.csN.trans hcs), rfl,
    by simp [h.trace, h.srLatch]⟩

/-- Settles O40: the abort is not looked at in IDLE, and the next step takes it, unless that step is a RESPOND or the
request is answered already. -/
theorem abortHeldAtAcceptance : Obligations.AbortHeldAtAcceptance := by
  intro s hrst habort hplan hp hcs
  have hheld : s.abortHeld := ⟨hrst, habort, hplan⟩
  have hr := hheld.tick_rstN
  have hready : ∀ rest, (s.tick.setOffers rest).reqReady = true := fun rest => reqReady_of_idle hp hr
  refine ⟨fun hnone => ?_, fun i ho hzero hbad => ?_, fun a ho => ?_, fun o r a l ho => ?_⟩
  · have hquiet : idleStep s.tick = .next s.tick := by simp [idleStep, hnone]
    exact ⟨_, (step_idle hr hp).trans hquiet, rfl, hp, rfl⟩
  · obtain ⟨rest, hstep⟩ := step_idle_offersRequest hr ho
    obtain ⟨t, hexec, htaken⟩ := exec_taken (hready rest) i
    obtain ⟨-, w, -, -, rfl⟩ := ho
    obtain ⟨p, hstarted⟩ := htaken.started (encode_decodeRequest_ne_frame w) hzero hbad
    obtain ⟨u, hu, hphase, htrace⟩ := hstarted.step_abortHeld (tick_abortHeld hheld) hcs
    exact ⟨u, reaches_succ (hstep.trans hexec) (reaches_one hu), hphase, htrace⟩
  · obtain ⟨rest, hstep⟩ := step_idle_offersRequest hr ho
    rw [execWrite_ready a 0 (hready rest), chunkHead_done rfl] at hstep
    exact ⟨_, reaches_succ hstep (reaches_one (step_respondOk (State.abortHeld.tick_rstN (tick_abortHeld hheld)) rfl)),
      rfl, rfl⟩
  · obtain ⟨rest, hstep⟩ := step_idle_offersRequest hr ho
    rw [execReservedRequest_ready o r a l (hready rest)] at hstep
    exact ⟨_, hstep, rfl, rfl⟩

end Sys2Proof.Machine
end

section
/-! SUPPORT. The decoder and the encoder against each other (spec/30_encoding.md): which request each word is, and what
a frame that decodes consists of. -/

namespace Sys2Proof.Machine

/-! ### The words of WRITE and the bad words (R77, R78) -/

theorem decodeRequest_write {w : RequestWord} (hrsv : wordRsv w = 0) (hop : wordOp w = 0x1) :
    decodeRequest w = .write (wordAddr w) (wordLen w) := by
  simp [decodeRequest, hrsv, hop]

theorem decodeRequest_reserved {w : RequestWord} (h : isReserved (wordOp w) (wordRsv w) = true) :
    decodeRequest w = .reservedRequest (wordOp w) (wordRsv w) (wordAddr w) (wordLen w) := by
  unfold decodeRequest
  by_cases hrsv : wordRsv w = 0
  · have hop : isRequestOp (wordOp w) = false := by simpa [isReserved, hrsv] using h
    simp only [isRequestOp, Bool.or_eq_false_iff, beq_eq_false_iff_ne] at hop
    obtain ⟨⟨⟨hop1, hop2⟩, hop3⟩, hop4⟩ := hop
    rw [if_neg (not_not_intro hrsv), if_neg hop1, if_neg hop2, if_neg hop3, if_neg hop4]
  · exact if_pos hrsv

/-- Every word is a bad one or one of the four requests. -/
theorem requestWord_cases (w : RequestWord) :
    isReserved (wordOp w) (wordRsv w) = true ∨
      (wordRsv w = 0 ∧ (wordOp w = 0x1 ∨ wordOp w = 0x2 ∨ wordOp w = 0x3 ∨ wordOp w = 0x4)) := by
  have key : ∀ op rsv : Nibble, isReserved op rsv = true ∨
      (rsv = 0 ∧ (op = 0x1 ∨ op = 0x2 ∨ op = 0x3 ∨ op = 0x4)) := by decide
  exact key _ _

/-- R77's condition in the spec's words. -/
theorem isReserved_iff (op rsv : Nibble) : isReserved op rsv = true ↔ rsv ≠ 0 ∨ op ∉ [0x1, 0x2, 0x3, 0x4] := by
  simp [isReserved, isRequestOp, not_or, and_assoc]

/-- A word is bad exactly if it decodes to a reserved request. -/
theorem decodeRequest_eq_reserved_iff {w : RequestWord} :
    (∃ op rsv a len, decodeRequest w = .reservedRequest op rsv a len) ↔ isReserved (wordOp w) (wordRsv w) = true := by
  refine ⟨fun ⟨op, rsv, a, len, h⟩ => ?_, fun h => ⟨_, _, _, _, decodeRequest_reserved h⟩⟩
  obtain hbad | ⟨hrsv, hop | hop | hop | hop⟩ := requestWord_cases w
  · exact hbad
  · rw [decodeRequest_write hrsv hop] at h; cases h
  · rw [decodeRequest_waitReady hrsv hop] at h; cases h
  · rw [decodeRequest_readStatus hrsv hop] at h; cases h
  · rw [decodeRequest_writeEnable hrsv hop] at h; cases h

/-- Settles O7: R77's condition is that of `isReserved`, and the other words have reserved field 0 and one of four
opcodes. -/
theorem requestWordClasses : Obligations.RequestWordClasses := fun _ =>
  ⟨fun h => decodeRequest_reserved ((isReserved_iff _ _).2 h), decodeRequest_write, decodeRequest_waitReady,
    decodeRequest_readStatus, decodeRequest_writeEnable⟩

/-- Settles O4: each word is decoded as written. -/
theorem tableWordsDecode : Obligations.TableWordsDecode := by
  unfold Obligations.TableWordsDecode
  decide

/-! ### Decoding what was encoded -/

theorem decodeFrame_addressed_pp (a : FlashAddr) {ds : List Byte} (h : 1 ≤ ds.length) :
    decodeFrame (addressedFrame opPp a ds) = .ok (.pp a ds) := by
  cases ds with
  | nil => simp at h
  | cons d ds => exact congrArg (fun a => Except.ok (Instr.pp a (d :: ds))) (addrOfBytes_bytes a)

theorem decodeFrame_addressed_read (a : FlashAddr) (tx : List Byte) :
    decodeFrame (addressedFrame opRead a tx) = .ok (.read a tx) :=
  congrArg (fun a => Except.ok (Instr.read a tx)) (addrOfBytes_bytes a)

theorem decodeFrame_addressed_se (a : FlashAddr) : decodeFrame (addressedFrame opSe a []) = .ok (.se a) :=
  congrArg (fun a => Except.ok (Instr.se a)) (addrOfBytes_bytes a)

/-- A word is decoded by its opcode and reserved field, and has the fields it was made of (R71). -/
theorem decodeRequest_requestWord {op : Nibble} (a : FlashAddr) (len : Count) {i : FlashAddr → Count → Instr}
    {rsv : Nibble} (h : ∀ w, wordRsv w = rsv → wordOp w = op → decodeRequest w = i (wordAddr w) (wordLen w)) :
    decode (.request (requestWord op rsv a len)) = .ok (i a len) := by
  have hw := h _ (wordRsv_requestWord op rsv a len) (wordOp_requestWord op rsv a len)
  rw [wordAddr_requestWord, wordLen_requestWord] at hw
  exact congrArg _ hw

/-- Settles O5: a frame's opcode and length give its row back and three bytes give the address back; a request word
gives its four fields back. -/
theorem decodeOfEncode : Obligations.DecodeOfEncode := by
  intro i hwf
  cases i with
  | wren => rfl
  | rdsr tx => rfl
  | pp a ds => exact decodeFrame_addressed_pp a (by simp [Instr.wellFormed] at hwf; omega)
  | wrsr v => rfl
  | read a tx => exact decodeFrame_addressed_read a tx
  | se a => exact decodeFrame_addressed_se a
  | ce => rfl
  | rdid x y z => rfl
  | write a len => exact decodeRequest_requestWord a len fun _ => decodeRequest_write
  | waitReady a len => exact decodeRequest_requestWord a len fun _ => decodeRequest_waitReady
  | readStatus a len => exact decodeRequest_requestWord a len fun _ => decodeRequest_readStatus
  | writeEnable a len => exact decodeRequest_requestWord a len fun _ => decodeRequest_writeEnable
  | reservedRequest op rsv a len =>
    refine decodeRequest_requestWord a len (i := .reservedRequest op rsv) fun w hrsv hop => ?_
    subst hrsv hop
    exact decodeRequest_reserved hwf

/-! ### Encoding what was decoded -/

/-- Every request word encodes back to itself, and what it decodes to is well-formed. -/
theorem encode_decodeRequest (w : RequestWord) :
    encode (decodeRequest w) = .request w ∧ (decodeRequest w).wellFormed = true := by
  have hfields := requestWord_fields w
  obtain hbad | ⟨hrsv, hop | hop | hop | hop⟩ := requestWord_cases w
  · rw [decodeRequest_reserved hbad]
    exact ⟨congrArg _ hfields, hbad⟩
  · rw [hrsv, hop] at hfields
    rw [decodeRequest_write hrsv hop]
    exact ⟨congrArg _ hfields, rfl⟩
  · rw [hrsv, hop] at hfields
    rw [decodeRequest_waitReady hrsv hop]
    exact ⟨congrArg _ hfields, rfl⟩
  · rw [hrsv, hop] at hfields
    rw [decodeRequest_readStatus hrsv hop]
    exact ⟨congrArg _ hfields, rfl⟩
  · rw [hrsv, hop] at hfields
    rw [decodeRequest_writeEnable hrsv hop]
    exact ⟨congrArg _ hfields, rfl⟩

/-- The address bytes of a frame are those of the address it decodes to (R49). -/
theorem addressedFrame_addrOfBytes (b h m l : Byte) (ds : List Byte) :
    addressedFrame b (addrOfBytes h m l) ds = b :: h :: m :: l :: ds := by
  rw [addressedFrame, addrHigh_addrOfBytes, addrMid_addrOfBytes, addrLow_addrOfBytes]

/-- A frame that decodes is the frame of what it decodes to; a Page Program has at least one data byte. -/
theorem decodeFrame_ok {f : List Byte} {i : Instr} (h : decodeFrame f = .ok i) :
    encode i = .frame f ∧ (i.wellFormed = true ∨ ∃ a ds, i = .pp a ds ∧ 1 ≤ ds.length) := by
  unfold decodeFrame at h
  split at h
  · cases h
  · rename_i b args
    repeat' split at h
    all_goals cases h
    all_goals (try subst b)
    · exact ⟨rfl, .inl rfl⟩
    · exact ⟨rfl, .inl rfl⟩
    · exact ⟨congrArg _ (addressedFrame_addrOfBytes ..), .inr ⟨_, _, rfl, by simp⟩⟩
    · exact ⟨rfl, .inl rfl⟩
    · exact ⟨congrArg _ (addressedFrame_addrOfBytes ..), .inl rfl⟩
    · exact ⟨congrArg _ (addressedFrame_addrOfBytes ..), .inl rfl⟩
    · exact ⟨rfl, .inl rfl⟩
    · exact ⟨rfl, .inl rfl⟩

/-- Settles O6, for request words and for frames; a Page Program is well-formed up to 256 data bytes. -/
theorem encodeOfDecode : Obligations.EncodeOfDecode := by
  intro c i h
  cases c with
  | request w =>
    cases h
    obtain ⟨hencode, hwf⟩ := encode_decodeRequest w
    exact ⟨hencode, .inl hwf⟩
  | frame f =>
    obtain ⟨hencode, hwf | ⟨a, ds, rfl, hpos⟩⟩ := decodeFrame_ok h
    · exact ⟨hencode, .inl hwf⟩
    · refine ⟨hencode, ?_⟩
      by_cases hlen : ds.length ≤ 256
      · exact .inl (by simp [Instr.wellFormed, hpos, hlen])
      · exact .inr ⟨a, ds, rfl, by omega⟩

end Sys2Proof.Machine
end

section
/-! SUPPORT. The invariant over one step (spec/10_state.md R43, spec/42_page_write_splitter.md R121): what it says at a
point inside a transaction and at one between two, and how each event primitive, the abort, the reset and an offer keep
it. -/

namespace Sys2Proof.Machine

/-! ### What the invariant depends on -/

/-- `t` has the registers and parameters of `s` that the invariant speaks of. -/
def SameRegs (s t : State) : Prop :=
  t.op = s.op ∧ t.srLatch = s.srLatch ∧ SameChunk s t ∧ t.params = s.params

theorem chunkOk_congr {s t : State} (h : SameChunk s t) (hok : chunkOk s) : chunkOk t := by
  obtain ⟨ha, hb, hr, hl⟩ := h
  unfold chunkOk
  rw [ha, hb, hr, hl]
  exact hok

theorem Point.sentIs_congr {s t : State} (h : SameRegs s t) {f : List Byte} {p : Point} (hs : p.sentIs s f) :
    p.sentIs t f := by
  obtain ⟨-, -, ⟨ha, -, -, hl⟩, hp⟩ := h
  cases p <;> simpa only [Point.sentIs, ha, hl, hp] using hs

theorem Point.regsOk_congr {s t : State} (h : SameRegs s t) {p : Point} (hp : p.regsOk s) : p.regsOk t := by
  obtain ⟨hop, hsr, hc, -⟩ := h
  obtain ⟨h1, h2, h3, h4⟩ := hp
  refine ⟨hop ▸ h1, ?_, fun hin => chunkOk_congr hc (h3 hin), ?_⟩
  · revert h2
    cases p <;> simp only [Point.latchOk, hop, hsr] <;> exact id
  · rw [hop, hc.2.2.1]
    exact h4

/-- The opcode at any point is one of the four requests' (R22). -/
theorem Point.opIs_isRequestOp {p : Point} {op : Nibble} (h : p.opIs op) : isRequestOp op = true := by
  cases p with
  | respondOk => exact h
  | respondAborted => exact h
  | _ => cases h; rfl

/-! ### The invariant in each kind of phase -/

theorem inv_idle {s : State} (hp : s.phase = .idle) (hcs : s.csN = true) (hf : s.chip.frame = none)
    (hw : s.chip.flash.wf = true) : s.Inv where
  cs := by rw [hp, hcs]; rfl
  unselected _ := hf
  sent p h := by rw [hp] at h; cases h
  regs p h := by rw [hp] at h; cases h
  flash := hw

theorem inv_between {s : State} {p : Point} (hp : s.phase = .busy p) (hsel : p.selected = false) (hcs : s.csN = true)
    (hf : s.chip.frame = none) (hr : p.regsOk s) (hw : s.chip.flash.wf = true) : s.Inv where
  cs := by rw [hp, hcs]; simp [Phase.selected, hsel]
  unselected _ := hf
  sent _ _ h := by rw [hcs] at h; cases h
  regs q h := by rw [hp] at h; cases h; exact hr
  flash := hw

theorem inv_inside {s : State} {p : Point} {f : List Byte} (hp : s.phase = .busy p) (hsel : p.selected = true)
    (hcs : s.csN = false) (hf : s.chip.frame = some f) (hs : p.sentIs s f) (hr : p.regsOk s)
    (hw : s.chip.flash.wf = true) : s.Inv where
  cs := by rw [hp, hcs]; simp [Phase.selected, hsel]
  unselected h := by rw [hcs] at h; cases h
  sent q h _ := by rw [hp] at h; cases h; exact ⟨f, hf, hs⟩
  regs q h := by rw [hp] at h; cases h; exact hr
  flash := hw

theorem State.Inv.csN_idle {s : State} (h : s.Inv) (hp : s.phase = .idle) : s.csN = true := by
  rw [h.cs, hp]; rfl

theorem State.Inv.csN_between {s : State} (h : s.Inv) {p : Point} (hp : s.phase = .busy p) (hsel : p.selected = false) :
    s.csN = true := by
  rw [h.cs, hp]; simp [Phase.selected, hsel]

theorem State.Inv.csN_inside {s : State} (h : s.Inv) {p : Point} (hp : s.phase = .busy p) (hsel : p.selected = true) :
    s.csN = false := by
  rw [h.cs, hp]; simp [Phase.selected, hsel]

theorem State.Inv.frame_inside {s : State} (h : s.Inv) {p : Point} (hp : s.phase = .busy p) (hsel : p.selected = true) :
    ∃ f, s.chip.frame = some f ∧ p.sentIs s f :=
  h.sent p hp (h.csN_inside hp hsel)

/-- Inside a chunk the registers are those of a chunk. -/
theorem State.Inv.chunkOk {s : State} (h : s.Inv) {p : Point} (hp : s.phase = .busy p) (hin : p.inChunk = true) :
    chunkOk s := by
  obtain ⟨-, -, hok, -⟩ := h.regs p hp
  exact hok hin

/-- The invariant says nothing of the levels and the strobes. -/
theorem State.Inv.tick {s : State} (h : s.Inv) : s.tick.Inv := by
  have hsame : SameRegs s s.tick := ⟨rfl, rfl, ⟨rfl, rfl, rfl, rfl⟩, rfl⟩
  refine ⟨h.cs, h.unselected, fun p hp hcs => ?_, fun p hp => Point.regsOk_congr hsame (h.regs p hp), h.flash⟩
  obtain ⟨f, hf, hs⟩ := h.sent p hp hcs
  exact ⟨f, hf, Point.sentIs_congr hsame hs⟩

/-! ### Each event primitive, the abort and the reset keep it -/

theorem inv_csLow {s : State} {p : Point} (hsel : p.selected = true) (hs : p.sentIs s []) (hr : p.regsOk s)
    (hw : s.chip.flash.wf = true) : ((csLow s).goto p).Inv :=
  have hsame : SameRegs s ((csLow s).goto p) := ⟨rfl, rfl, ⟨rfl, rfl, rfl, rfl⟩, rfl⟩
  inv_inside rfl hsel rfl rfl (Point.sentIs_congr hsame hs) (Point.regsOk_congr hsame hr) hw

theorem inv_xfer {s : State} {p : Point} {f : List Byte} {tx : Byte} (hsel : p.selected = true) (hcs : s.csN = false)
    (hf : s.chip.frame = some f) (hs : p.sentIs s (f ++ [tx])) (hr : p.regsOk s) (hw : s.chip.flash.wf = true) :
    ((xfer tx s).goto p).Inv :=
  have hsame : SameRegs s ((xfer tx s).goto p) := ⟨rfl, rfl, ⟨rfl, rfl, rfl, rfl⟩, rfl⟩
  inv_inside rfl hsel hcs (by simp [hf]) (Point.sentIs_congr hsame hs) (Point.regsOk_congr hsame hr) (by simpa using hw)

theorem csHigh_chip_wf {s : State} (hw : s.chip.flash.wf = true) : (csHigh s).chip.flash.wf = true :=
  frameEffect_wf s hw

theorem inv_csHigh {s : State} {p : Point} (hsel : p.selected = false) (hr : p.regsOk s) (hw : s.chip.flash.wf = true) :
    ((csHigh s).goto p).Inv :=
  inv_between rfl hsel rfl rfl (Point.regsOk_congr ⟨rfl, rfl, ⟨rfl, rfl, rfl, rfl⟩, rfl⟩ hr) (csHigh_chip_wf hw)

theorem inv_resetBlock {s : State} (hw : s.chip.flash.wf = true) : (resetBlock s).Inv :=
  inv_idle rfl rfl rfl (dropEffect_wf s hw)

theorem inv_respond {s : State} (code : RspCode) (hcs : s.csN = true) (hf : s.chip.frame = none)
    (hw : s.chip.flash.wf = true) : (respond code s).Inv :=
  inv_idle rfl hcs hf hw

/-- An abort ends in IDLE or at its response, with the chip not selected (R141). -/
theorem State.Inv.takeAbort {s : State} (h : s.Inv) {p : Point} (hp : s.phase = .busy p) : (takeAbort p s).Inv := by
  obtain ⟨hop, -⟩ := h.regs p hp
  have hr : Point.respondAborted.regsOk s := ⟨Point.opIs_isRequestOp hop, trivial, nofun, nofun⟩
  obtain ⟨hcs, e⟩ | ⟨-, -, e⟩ | ⟨-, -, e⟩ := takeAbort_cases p s <;> rw [e]
  · exact inv_respond _ hcs (h.unselected hcs) h.flash
  · exact inv_between rfl rfl rfl rfl hr (cutEffect_wf s h.flash)
  · exact inv_csHigh rfl hr h.flash

/-- What is before an event is the abort, which keeps the invariant, or the event. -/
theorem State.Inv.checked {s : State} (h : s.Inv) {p : Point} (hp : s.phase = .busy p) {event : State → State}
    (he : (event s).Inv) : (checked p s event).Inv := by
  obtain ⟨-, e⟩ | ⟨-, e⟩ := checked_cases p s event <;> rw [e]
  · exact h.takeAbort hp
  · exact he

/-! ### READ_SR and GATE -/

/-- The points `at'` names are those of a READ_SR of one caller, at which the registers are the same. -/
structure SrCaller (at' : SrPoint → Point) : Prop where
  selected : ∀ q, (at' q).selected = q.selected
  sentIs : ∀ q s f, (at' q).sentIs s f ↔ f = q.sent s.params.dummyTx
  regsOk : ∀ q q' s, (at' q).regsOk s → (at' q').regsOk s

theorem srCaller_readStatus : SrCaller .readStatus :=
  ⟨fun _ => rfl, fun _ _ _ => Iff.rfl, fun _ _ _ ⟨hop, hl, hc, _⟩ => ⟨hop, hl, hc, nofun⟩⟩

theorem GateSite.srCaller (g : GateSite) : SrCaller fun q => g.point (.poll q) := by
  cases g <;>
    exact ⟨fun _ => rfl, fun _ _ _ => Iff.rfl, fun _ _ _ ⟨hop, hl, hc, _⟩ => ⟨hop, hl, hc, nofun⟩⟩

/-- `sr_latch` is free at a poll. -/
theorem GateSite.regsOk_poll (g : GateSite) {s : State} {q : GatePoint} (h : (g.point q).regsOk s) (v : Byte)
    (q' : SrPoint) : (g.point (.poll q')).regsOk { s with srLatch := v } := by
  cases g <;> exact have ⟨hop, _, hc, _⟩ := h; ⟨hop, trivial, hc, nofun⟩

/-- Past a poll that has answered busy the registers are those of the time check and of the log (R88, R91). -/
theorem GateSite.regsOk_now (g : GateSite) {s : State} {q : SrPoint} (h : (g.point (.poll q)).regsOk s)
    (hb : isBusyStatus s.srLatch = true) : (g.point .now).regsOk s := by
  cases g <;> exact have ⟨hop, _, hc, _⟩ := h; ⟨hop, hb, hc, nofun⟩

theorem GateSite.regsOk_log (g : GateSite) {s : State} (h : (g.point .now).regsOk s) (τ : Time) :
    (g.point (.log τ)).regsOk s := by
  cases g <;> exact have ⟨hop, hb, hc, _⟩ := h; ⟨hop, hb, hc, nofun⟩

theorem State.Inv.readSrStep {at' : SrPoint → Point} {done : Byte → State → State} (hat : SrCaller at')
    {s : State} (h : s.Inv) {q : SrPoint} (hp : s.phase = .busy (at' q))
    (hdone : ∀ v, q = .cs1 v → (done v { csHigh s with srLatch := v }).Inv) : (readSrStep at' done q s).Inv := by
  have hr := fun q' => hat.regsOk q q' s (h.regs _ hp)
  refine h.checked hp ?_
  cases q with
  | cs0 => exact inv_csLow (hat.selected _) ((hat.sentIs _ _ _).2 rfl) (hr _) h.flash
  | opcode =>
    obtain ⟨f, hf, hs⟩ := h.frame_inside hp (hat.selected _)
    refine inv_xfer (hat.selected _) (h.csN_inside hp (hat.selected _)) hf ((hat.sentIs _ _ _).2 ?_) (hr _) h.flash
    rw [(hat.sentIs _ _ _).1 hs]
    rfl
  | data =>
    obtain ⟨f, hf, hs⟩ := h.frame_inside hp (hat.selected _)
    refine inv_xfer (hat.selected _) (h.csN_inside hp (hat.selected _)) hf ((hat.sentIs _ _ _).2 ?_) (hr _) h.flash
    rw [(hat.sentIs _ _ _).1 hs]
    rfl
  | cs1 v => exact hdone v rfl

/-- At the head of the chunk loop, with the latch ready and `buf_off + remaining` in range, the invariant holds (R107).
-/
theorem inv_chunkHead {t : State} (hop : t.op = 0x1) (hready : isBusyStatus t.srLatch = false)
    (hsum : t.bufOff.toNat + t.remaining.toNat < 2 ^ 32) (hcs : t.csN = true) (hf : t.chip.frame = none)
    (hw : t.chip.flash.wf = true) : (chunkHead t).Inv := by
  by_cases hzero : t.remaining = 0
  · rw [chunkHead_done hzero]
    exact inv_between rfl rfl hcs hf ⟨by rw [State.goto_op, hop]; rfl, .inr hready, nofun, fun _ _ => hzero⟩ hw
  · have hok := chunkOk_chunkHead hzero hsum
    rw [chunkHead_more hzero] at hok ⊢
    exact inv_between rfl rfl hcs hf ⟨hop, trivial, fun _ => hok, nofun⟩ hw

/-- What comes after a gate keeps the invariant. -/
theorem GateSite.inv_after (g : GateSite) {t : State} (hr : (g.point GatePoint.start).regsOk t)
    (hready : isBusyStatus t.srLatch = false) (hcs : t.csN = true) (hf : t.chip.frame = none)
    (hw : t.chip.flash.wf = true) : (g.after t).Inv := by
  obtain ⟨hop, -, hok, -⟩ := hr
  cases g with
  | waitReady =>
    refine inv_between rfl rfl hcs hf ⟨Point.opIs_isRequestOp hop, .inr hready, nofun, fun _ h => ?_⟩ hw
    exact absurd (hop.symm.trans h) (by decide)
  | enable =>
    refine inv_between rfl rfl hcs hf ⟨Point.opIs_isRequestOp hop, .inr hready, nofun, fun _ h => ?_⟩ hw
    exact absurd (hop.symm.trans h) (by decide)
  | chunk1 => exact inv_between rfl rfl hcs hf ⟨hop, trivial, hok, nofun⟩ hw
  | chunk2 => exact inv_between rfl rfl hcs hf ⟨hop, hready, hok, nofun⟩ hw
  | chunk3 =>
    have hchunk : Machine.chunkOk t := hok rfl
    obtain ⟨-, -, hsum⟩ := hchunk
    exact inv_chunkHead hop hready ((chunkAdvance_sum_toNat (hok rfl)).trans_lt hsum) hcs hf hw

theorem GateSite.selected_between (g : GateSite) : (g.point GatePoint.start).selected = false ∧
    (g.point .now).selected = false ∧ ∀ τ, (g.point (.log τ)).selected = false := by
  cases g <;> exact ⟨rfl, rfl, fun _ => rfl⟩

theorem State.Inv.gateStep (g : GateSite) {s : State} (h : s.Inv) {q : GatePoint} (hp : s.phase = .busy (g.point q)) :
    (gateStep g.point g.after q s).Inv := by
  have hr := h.regs _ hp
  obtain ⟨hstart, hnow, hlog⟩ := g.selected_between
  cases q with
  | poll q =>
    rw [gateStep_poll]
    refine State.Inv.readSrStep g.srCaller h hp fun v _ => ?_
    have hr' : (g.point GatePoint.start).regsOk { csHigh s with srLatch := v } :=
      Point.regsOk_congr ⟨rfl, rfl, ⟨rfl, rfl, rfl, rfl⟩, rfl⟩ (g.regsOk_poll hr v .cs0)
    split
    · rename_i hb
      exact inv_between rfl hnow rfl rfl
        (Point.regsOk_congr ⟨rfl, rfl, ⟨rfl, rfl, rfl, rfl⟩, rfl⟩ (g.regsOk_now hr' hb)) (csHigh_chip_wf h.flash)
    · rename_i hb
      exact g.inv_after hr' (eq_false_of_ne_true hb) rfl rfl (csHigh_chip_wf h.flash)
  | now =>
    have hcs := h.csN_between hp hnow
    unfold Machine.gateStep
    refine h.checked hp ?_
    split
    · exact inv_between rfl (hlog _) hcs (h.unselected hcs)
        (Point.regsOk_congr ⟨rfl, rfl, ⟨rfl, rfl, rfl, rfl⟩, rfl⟩ (g.regsOk_log hr _)) h.flash
    · exact inv_between rfl hstart hcs (h.unselected hcs)
        (Point.regsOk_congr ⟨rfl, rfl, ⟨rfl, rfl, rfl, rfl⟩, rfl⟩ (g.regsOk_poll hr s.srLatch .cs0)) h.flash
  | log τ =>
    have hcs := h.csN_between hp (hlog τ)
    unfold Machine.gateStep
    refine h.checked hp ?_
    exact inv_between rfl hstart hcs (h.unselected hcs)
      (Point.regsOk_congr ⟨rfl, rfl, ⟨rfl, rfl, rfl, rfl⟩, rfl⟩ (g.regsOk_poll hr s.srLatch .cs0)) h.flash

/-! ### WREN_TXN -/

theorem WrenSite.point_spec (g : WrenSite) (q : WrenPoint) :
    (g.point q).selected = q.selected ∧ (∀ s f, (g.point q).sentIs s f ↔ f = q.sent) ∧ g.gate.selected = false := by
  cases g <;> exact ⟨rfl, fun _ _ => Iff.rfl, rfl⟩

theorem WrenSite.regsOk (g : WrenSite) {q : WrenPoint} {s : State} (h : (g.point q).regsOk s) :
    (∀ q', (g.point q').regsOk s) ∧ g.gate.regsOk s := by
  cases g <;>
    exact have ⟨hop, _, hc, _⟩ := h; ⟨fun _ => ⟨hop, trivial, hc, nofun⟩, hop, trivial, hc, nofun⟩

theorem State.Inv.wrenStep (g : WrenSite) {s : State} (h : s.Inv) {q : WrenPoint} (hp : s.phase = .busy (g.point q)) :
    (wrenStep g.point (fun t => t.goto g.gate) q s).Inv := by
  obtain ⟨hr, hgate⟩ := g.regsOk (h.regs _ hp)
  refine h.checked hp ?_
  cases q with
  | cs0 =>
    obtain ⟨hsel, hsent, -⟩ := g.point_spec .opcode
    exact inv_csLow hsel ((hsent _ _).2 rfl) (hr _) h.flash
  | opcode =>
    obtain ⟨hsel, hsent, -⟩ := g.point_spec .opcode
    obtain ⟨hsel', hsent', -⟩ := g.point_spec .cs1
    obtain ⟨f, hf, hs⟩ := h.frame_inside hp hsel
    refine inv_xfer hsel' (h.csN_inside hp hsel) hf ((hsent' _ _).2 ?_) (hr _) h.flash
    rw [(hsent _ _).1 hs]
    rfl
  | cs1 =>
    obtain ⟨-, -, hsel⟩ := g.point_spec .cs1
    exact inv_csHigh hsel hgate h.flash

/-! ### PP_TXN -/

theorem ppAfter_selected (params : Params) (n : BitVec 9) (j : Nat) : (ppAfter params n j).selected = true := by
  unfold ppAfter
  split <;> rfl

/-- After `j` data bytes, of `dataCount` in all, the frame is that of a Page Program of the bytes sent (R112). -/
theorem ppAfter_sentIs {params : Params} {n : BitVec 9} {a : FlashAddr} {ds : List Byte}
    (h : ds.length ≤ dataCount params n) :
    (ppAfter params n ds.length).sentIs a (dataCount params n) (addressedFrame opPp a ds) := by
  unfold ppAfter
  split
  · exact ⟨by assumption, ds, rfl, rfl⟩
  · exact ⟨ds, by omega, rfl⟩

theorem addressedFrame_append (b : Byte) (a : FlashAddr) (ds : List Byte) (d : Byte) :
    addressedFrame b a ds ++ [d] = addressedFrame b a (ds ++ [d]) := rfl

theorem State.Inv.ppStep {s t : State} (h : s.Inv) {q : PpPoint} (hp : s.phase = .busy (.chunkPp q))
    (hstep : ppStep q s = .next t) : t.Inv := by
  obtain ⟨hop, hl, hok, -⟩ := h.regs _ hp
  have hr : ∀ q, (Point.chunkPp q).regsOk s := fun _ => ⟨hop, hl, hok, nofun⟩
  cases q with
  | cs0 =>
    simp only [Machine.ppStep] at hstep
    split at hstep
    · cases hstep
      exact h.checked hp (inv_csLow rfl rfl (hr _) h.flash)
    · cases hstep
  | opcode =>
    cases hstep
    obtain ⟨f, hf, rfl⟩ := h.frame_inside hp rfl
    exact h.checked hp (inv_xfer rfl (h.csN_inside hp rfl) hf rfl (hr _) h.flash)
  | addrHigh =>
    cases hstep
    obtain ⟨f, hf, rfl⟩ := h.frame_inside hp rfl
    exact h.checked hp (inv_xfer rfl (h.csN_inside hp rfl) hf rfl (hr _) h.flash)
  | addrMid =>
    cases hstep
    obtain ⟨f, hf, rfl⟩ := h.frame_inside hp rfl
    exact h.checked hp (inv_xfer rfl (h.csN_inside hp rfl) hf rfl (hr _) h.flash)
  | addrLow =>
    cases hstep
    obtain ⟨f, hf, rfl⟩ := h.frame_inside hp rfl
    exact h.checked hp (inv_xfer (ppAfter_selected _ _ _) (h.csN_inside hp rfl) hf
      (ppAfter_sentIs (ds := []) (Nat.zero_le _)) (hr _) h.flash)
  | bufRead j =>
    cases hstep
    obtain ⟨f, hf, hs⟩ := h.frame_inside hp rfl
    have hsame : SameRegs s ((Machine.bufRead (ppIndex s j) s).goto (.chunkPp (.data j (bufValue (ppIndex s j) s)))) :=
      ⟨rfl, rfl, ⟨rfl, rfl, rfl, rfl⟩, rfl⟩
    exact h.checked hp (inv_inside rfl rfl (h.csN_inside hp rfl) hf
      (Point.sentIs_congr hsame (p := .chunkPp (.data j _)) hs) (Point.regsOk_congr hsame (hr _)) h.flash)
  | data j d =>
    cases hstep
    obtain ⟨f, hf, hlt, ds, rfl, rfl⟩ := h.frame_inside hp rfl
    refine h.checked hp (inv_xfer (ppAfter_selected _ _ _) (h.csN_inside hp rfl) hf ?_ (hr _) h.flash)
    rw [addressedFrame_append]
    have hlen : (ds ++ [d]).length = ds.length + 1 := by simp
    rw [← hlen]
    exact ppAfter_sentIs (hlen.trans_le hlt)
  | cs1 =>
    cases hstep
    exact h.checked hp (inv_csHigh rfl ⟨hop, trivial, hok, nofun⟩ h.flash)

/-! ### A whole step -/

/-- A busy block's step keeps the invariant. -/
theorem State.Inv.advance {s t : State} (h : s.Inv) {p : Point} (hp : s.phase = .busy p)
    (hadv : advance p s = .next t) : t.Inv := by
  cases p with
  | readStatus q =>
    cases hadv
    obtain ⟨hop, -⟩ := h.regs _ hp
    refine State.Inv.readSrStep srCaller_readStatus h hp fun v _ => ?_
    refine inv_between rfl rfl rfl rfl ⟨Point.opIs_isRequestOp hop, .inl hop, nofun, fun _ h => ?_⟩
      (csHigh_chip_wf h.flash)
    exact absurd (hop.symm.trans h) (by decide)
  | waitReady q => cases hadv; exact State.Inv.gateStep .waitReady h hp
  | enableWren q => cases hadv; exact State.Inv.wrenStep .enable h hp
  | enableGate q => cases hadv; exact State.Inv.gateStep .enable h hp
  | chunkWren q => cases hadv; exact State.Inv.wrenStep .chunk h hp
  | chunkGate1 q => cases hadv; exact State.Inv.gateStep .chunk1 h hp
  | chunkGate2 q => cases hadv; exact State.Inv.gateStep .chunk2 h hp
  | chunkPp q => exact h.ppStep hp hadv
  | chunkGate3 q => cases hadv; exact State.Inv.gateStep .chunk3 h hp
  | respondOk =>
    cases hadv
    have hcs := h.csN_between hp rfl
    exact inv_respond _ hcs (h.unselected hcs) h.flash
  | respondAborted =>
    cases hadv
    have hcs := h.csN_between hp rfl
    exact inv_respond _ hcs (h.unselected hcs) h.flash

/-- A software frame leaves the chip not selected and the flash in canonical form. -/
theorem swTransaction_chip_wf (f : List Byte) {s : State} (hw : s.chip.flash.wf = true) :
    (swTransaction f s).chip.frame = none ∧ (swTransaction f s).chip.flash.wf = true := by
  obtain ⟨-, hflash, -, -⟩ := swXfer_foldl_block f (swSelect s)
  rw [swTransaction_chip]
  refine ⟨rfl, chipReact_wf _ _ ?_⟩
  simpa [hflash] using hw

/-- Taking an offer keeps the invariant. -/
theorem State.Inv.taken {s t : State} {i : Instr} (h : s.Inv) (hp : s.phase = .idle) (ht : Taken s i t) : t.Inv := by
  have hcs := h.csN_idle hp
  have hf := h.unselected hcs
  cases ht with
  | write a len =>
    exact inv_chunkHead rfl (show isBusyStatus 0x00 = false by decide) (by simp [len.isLt]) hcs hf h.flash
  | waitReady a len => exact inv_between rfl rfl hcs hf ⟨rfl, trivial, nofun, nofun⟩ h.flash
  | readStatus a len => exact inv_between rfl rfl hcs hf ⟨rfl, trivial, nofun, nofun⟩ h.flash
  | writeEnable a len => exact inv_between rfl rfl hcs hf ⟨rfl, trivial, nofun, nofun⟩ h.flash
  | badWord op rsv a len => exact inv_respond _ hcs hf h.flash
  | frame i f he =>
    obtain ⟨hphase, -, -, -, -, -, -, -, hcsN, -⟩ := swTransaction_block f s
    obtain ⟨hframe, hwf⟩ := swTransaction_chip_wf f h.flash
    exact inv_idle (hphase.trans hp) (hcsN.trans hcs) hframe hwf

/-- Settles O42, by the four things a step can be: a reset, one event of a busy block, a quiet step, an offer taken. -/
theorem everyStepKeepsTheInvariant : Obligations.EveryStepKeepsTheInvariant := by
  intro s t h hstep
  obtain ⟨-, rfl⟩ | ⟨-, p, hp, hadv⟩ | ⟨-, -, -, rfl⟩ | ⟨-, hp, c, rest, i, -, -, ht⟩ := step_next_cases hstep
  · exact inv_resetBlock h.flash
  · exact h.tick.advance hp hadv
  · exact h.tick
  · have htake : s.tick.takeOffer.Inv :=
      inv_idle hp (h.csN_idle hp) (h.unselected (h.csN_idle hp)) h.flash
    exact htake.taken hp ht

/-- Settles O43. -/
theorem invariantHoldsAtReset : Obligations.InvariantHoldsAtReset := inv_idle rfl rfl rfl rfl

end Sys2Proof.Machine
end

section
/-! SUPPORT. What follows from the invariant (spec/10_state.md R43, spec/42_page_write_splitter.md R121, R122,
spec/60_exceptions.md R141 to R147, spec/70_reset_and_hazards.md R159): no fault, the chunk registers over one step, the
first byte of a frame, and what an abort or a reset leaves in the flash. -/

namespace Sys2Proof.Machine

/-! ### Faults (R121, R147) -/

/-- Settles O35: the assertion comes before the abort check. -/
theorem boundaryViolationIsAFault : Obligations.BoundaryViolationIsAFault := by
  intro s hr hp hfits
  rw [step_busy hr hp]
  exact if_neg (by simp [hfits])

/-- In a state of the invariant the assertion of PP_TXN holds, so no step faults. -/
theorem State.Inv.step_ne_fault {s : State} (h : s.Inv) (r : Fault) : step s ≠ .fault r := by
  intro hstep
  obtain ⟨hp, hfits, -⟩ := step_fault_cases hstep
  rw [chunkOk_fits (h.chunkOk hp rfl)] at hfits
  cases hfits

/-- Settles O36: a Page Program's chunk is one of R109's, which meets the assertion. -/
theorem noPageProgramCrossesAPage : Obligations.NoPageProgramCrossesAPage := by
  refine fun s h => ⟨fun q hp => ?_, h.step_ne_fault⟩
  have hfits := chunkOk_fits (h.chunkOk hp rfl)
  simp only [chunkFits, Bool.and_eq_true, decide_eq_true_eq] at hfits
  obtain ⟨⟨hpos, -⟩, hpage⟩ := hfits
  refine ⟨hpos, hpage, fun hl => ?_, fun hl => by simp [dataCount, hl]⟩
  have hcount : dataCount s.params s.chunkLen = s.chunkLen.toNat := by simp [dataCount, hl]
  rw [hcount]
  exact ⟨hpos, hpage⟩

/-- Settles O37: a busy block's step is no refusal, and in a state of the invariant no fault. -/
theorem busyBlockAlwaysSteps : Obligations.BusyBlockAlwaysSteps := by
  intro s p h hp
  obtain ⟨-, hstep⟩ | ⟨-, q, -, hstep⟩ | ⟨-, hidle, -⟩ := step_cases s
  · exact ⟨_, hstep⟩
  · cases hs : step s with
    | next t => exact ⟨t, rfl⟩
    | fault r => exact absurd hs (h.step_ne_fault r)
    | refused r => exact absurd (hstep.symm.trans hs) (advance_not_refused q s.tick r)
  · rw [hp] at hidle; cases hidle

/-- Settles O41: RESPOND(OK) is not checked, and a reset comes before it. -/
theorem respondIsNotChecked : Obligations.RespondIsNotChecked := fun _ hp =>
  ⟨fun hr => ⟨_, step_respondOk hr hp, rfl, rfl⟩, fun hr => ⟨_, step_reset hr, rfl, rfl⟩⟩

/-! ### The chunk registers over one step (R114, R122) -/

theorem SameChunk.trans' {s t u : State} (h : SameChunk s t) (h' : SameChunk t u) : SameChunk s u := by
  obtain ⟨a1, a2, a3, a4⟩ := h
  obtain ⟨b1, b2, b3, b4⟩ := h'
  exact ⟨b1.trans a1, b2.trans a2, b3.trans a3, b4.trans a4⟩

theorem takeAbort_sameChunk (p : Point) (s : State) : SameChunk s (takeAbort p s) := by
  obtain ⟨-, e⟩ | ⟨-, -, e⟩ | ⟨-, -, e⟩ := takeAbort_cases p s <;> rw [e] <;> exact ⟨rfl, rfl, rfl, rfl⟩

/-- What holds of every state with the chunk registers of `s` holds after an abort check if it holds after the event. -/
theorem checked_of_sameChunk {P : State → Prop} {p : Point} {s : State} {event : State → State}
    (hsame : ∀ t, SameChunk s t → P t) (he : P (event s)) : P (checked p s event) := by
  obtain ⟨-, e⟩ | ⟨-, e⟩ := checked_cases p s event <;> rw [e]
  · exact hsame _ (takeAbort_sameChunk p s)
  · exact he

theorem readSrStep_of_sameChunk {P : State → Prop} {at' : SrPoint → Point} {done : Byte → State → State} {s : State}
    (hsame : ∀ t, SameChunk s t → P t) (hdone : ∀ v t, SameChunk s t → P (done v t)) (q : SrPoint) :
    P (readSrStep at' done q s) := by
  refine checked_of_sameChunk hsame ?_
  cases q with
  | cs1 v => exact hdone v _ ⟨rfl, rfl, rfl, rfl⟩
  | _ => exact hsame _ ⟨rfl, rfl, rfl, rfl⟩

theorem gateStep_of_sameChunk {P : State → Prop} {at' : GatePoint → Point} {done : State → State} {s : State}
    (hsame : ∀ t, SameChunk s t → P t) (hdone : ∀ t, SameChunk s t → P (done t)) (q : GatePoint) :
    P (gateStep at' done q s) := by
  cases q with
  | poll q =>
    rw [gateStep_poll]
    refine readSrStep_of_sameChunk hsame (fun v t ht => ?_) q
    split
    · exact hsame _ ht
    · exact hdone t ht
  | now =>
    unfold gateStep
    refine checked_of_sameChunk hsame ?_
    split <;> exact hsame _ ⟨rfl, rfl, rfl, rfl⟩
  | log τ =>
    unfold gateStep
    exact checked_of_sameChunk hsame (hsame _ ⟨rfl, rfl, rfl, rfl⟩)

/-- Of the gates only a chunk's third writes chunk registers. -/
theorem gateStep_sameChunk {g : GateSite} (hg : g ≠ .chunk3) (q : GatePoint) (s : State) :
    SameChunk s (gateStep g.point g.after q s) :=
  gateStep_of_sameChunk (P := SameChunk s) (fun _ => id) (fun t ht => ht.trans' (GateSite.sameChunk_after hg t)) q

theorem wrenStep_sameChunk (g : WrenSite) (q : WrenPoint) (s : State) :
    SameChunk s (wrenStep g.point (fun t => t.goto g.gate) q s) := by
  refine checked_of_sameChunk (fun _ => id) ?_
  cases q <;> exact ⟨rfl, rfl, rfl, rfl⟩

/-- PP_TXN writes no chunk register (R111). -/
theorem ppStep_sameChunk {q : PpPoint} {s t : State} (h : ppStep q s = .next t) : SameChunk s t := by
  cases q with
  | cs0 =>
    simp only [ppStep] at h
    split at h
    · cases h
      exact checked_of_sameChunk (fun _ => id) ⟨rfl, rfl, rfl, rfl⟩
    · cases h
  | _ =>
    cases h
    exact checked_of_sameChunk (fun _ => id) ⟨rfl, rfl, rfl, rfl⟩

/-- A step of a chunk leaves the chunk registers, or is the end of its third gate, with the advance (R114). -/
theorem advance_chunk {p : Point} {s t : State} (hin : p.inChunk = true) (h : advance p s = .next t) :
    SameChunk s t ∨ ∃ u, SameChunk s u ∧ t = chunkHead (chunkAdvance u) := by
  cases p with
  | chunkWren q => cases h; exact .inl (wrenStep_sameChunk .chunk q s)
  | chunkGate1 q => cases h; exact .inl (gateStep_sameChunk (g := .chunk1) (by decide) q s)
  | chunkGate2 q => cases h; exact .inl (gateStep_sameChunk (g := .chunk2) (by decide) q s)
  | chunkPp q => exact .inl (ppStep_sameChunk h)
  | chunkGate3 q =>
    cases h
    exact gateStep_of_sameChunk (P := fun t => SameChunk s t ∨ ∃ u, SameChunk s u ∧ t = chunkHead (chunkAdvance u))
      (fun _ => .inl) (fun u hu => .inr ⟨u, hu, rfl⟩) q
  | _ => cases hin

/-- Settles O44: only the advance moves the chunk registers, and it keeps the sum. -/
theorem bufferBytesAreConserved : Obligations.BufferBytesAreConserved := by
  intro s t p h hp hin hr hstep
  rw [step_busy hr hp] at hstep
  obtain ⟨-, hb, hrem, -⟩ | ⟨u, hu, rfl⟩ := advance_chunk hin hstep
  · rw [hb, hrem]
    rfl
  · have hsum := chunkAdvance_sum_toNat (chunkOk_congr hu (h.tick.chunkOk hp hin))
    obtain ⟨-, hb, hrem, -⟩ := hu
    rw [hb, hrem] at hsum
    rw [chunkHead_bufOff, chunkHead_remaining]
    exact hsum

/-! ### The first byte of a frame (R131) -/

/-- The step at `p` is the abort, or sends an opcode of the block's three (R100, R85, R111). -/
def SendsOpcode (p : Point) (s : State) : Prop :=
  ∃ tx q, advance p s = .next (checked p s fun s => (xfer tx s).goto q) ∧ (tx = 0x06 ∨ tx = 0x05 ∨ tx = 0x02)

theorem readSr_sendsOpcode {at' : SrPoint → Point} {done : Byte → State → State} {s : State}
    (hadv : ∀ q s, advance (at' q) s = .next (readSrStep at' done q s)) {q : SrPoint} (hsel : q.selected = true)
    (hsent : [] = q.sent s.params.dummyTx) : SendsOpcode (at' q) s := by
  cases q with
  | cs0 => cases hsel
  | opcode => exact ⟨_, _, hadv _ _, .inr (.inl rfl)⟩
  | data => cases hsent
  | cs1 v => cases hsent

theorem gate_sendsOpcode (g : GateSite) {s : State} {q : GatePoint} (hsel : q.selected = true)
    (hsent : [] = q.sent s.params.dummyTx) : SendsOpcode (g.point q) s := by
  cases q with
  | poll q => exact readSr_sendsOpcode (at' := fun q => g.point (.poll q)) (advance_poll g) hsel hsent
  | now => cases hsel
  | log τ => cases hsel

theorem wren_sendsOpcode (g : WrenSite) {s : State} {q : WrenPoint} (hsel : q.selected = true) (hsent : [] = q.sent) :
    SendsOpcode (g.point q) s := by
  cases q with
  | cs0 => cases hsel
  | opcode => exact ⟨_, _, advance_wren g _ s, .inl rfl⟩
  | cs1 => cases hsent

/-- Where a frame is open and nothing is sent yet, an opcode comes next. -/
theorem sendsOpcode_of_sentIs_nil {p : Point} {s : State} (hsel : p.selected = true) (hsent : p.sentIs s []) :
    SendsOpcode p s := by
  cases p with
  | readStatus q => exact readSr_sendsOpcode (at' := .readStatus) (fun _ _ => rfl) hsel hsent
  | waitReady q => exact gate_sendsOpcode .waitReady hsel hsent
  | enableWren q => exact wren_sendsOpcode .enable hsel hsent
  | enableGate q => exact gate_sendsOpcode .enable hsel hsent
  | chunkWren q => exact wren_sendsOpcode .chunk hsel hsent
  | chunkGate1 q => exact gate_sendsOpcode .chunk1 hsel hsent
  | chunkGate2 q => exact gate_sendsOpcode .chunk2 hsel hsent
  | chunkPp q =>
    cases q with
    | cs0 => cases hsel
    | opcode => exact ⟨_, _, rfl, .inr (.inr rfl)⟩
    | addrHigh => cases hsent
    | addrMid => cases hsent
    | addrLow => cases hsent
    | bufRead j => obtain ⟨-, ds, -, hf⟩ := hsent; cases hf
    | data j d => obtain ⟨-, ds, -, hf⟩ := hsent; cases hf
    | cs1 => obtain ⟨ds, -, hf⟩ := hsent; cases hf
  | chunkGate3 q => exact gate_sendsOpcode .chunk3 hsel hsent
  | respondOk => cases hsel
  | respondAborted => cases hsel

/-- An abort makes no exchange. -/
theorem takeAbort_trace (p : Point) (s : State) :
    (takeAbort p s).trace = s.trace ++ [.respond .errAborted s.srLatch] ∨
      (takeAbort p s).trace = s.trace ++ [.cs true] := by
  obtain ⟨-, e⟩ | ⟨-, -, e⟩ | ⟨-, -, e⟩ := takeAbort_cases p s <;> rw [e]
  · exact .inl rfl
  · exact .inr rfl
  · exact .inr rfl

/-- Taking an offer makes no event and no strobe, but for the answer to a bad word (R108, R140). -/
theorem Taken.silent_or_badWord {s t : State} {i : Instr} (h : Taken s i t) :
    (t.trace = s.trace ∧ t.ports = s.ports) ∨
      ∃ op rsv a len, i = .reservedRequest op rsv a len ∧ t = respond .errBadOp (accept op s) := by
  cases h with
  | write a len => exact .inl ⟨chunkHead_trace _, chunkHead_ports _⟩
  | badWord op rsv a len => exact .inr ⟨op, rsv, a, len, rfl, rfl⟩
  | frame i f hf =>
    obtain ⟨-, -, -, -, -, -, -, -, -, hports, htr, -⟩ := swTransaction_block f s
    exact .inl ⟨htr, hports⟩
  | _ => exact .inl ⟨rfl, rfl⟩

/-- An event added to a trace is the one event. -/
theorem trace_append_inj {es : List Event} {e e' : Event} (h : es ++ [e] = es ++ [e']) : e = e' := by
  simpa using h

theorem trace_append_ne (es : List Event) (e : Event) : es ≠ es ++ [e] := by simp

/-- Settles O48: a frame with no byte yet is open only where an opcode comes next. -/
theorem blockSendsThreeOpcodes : Obligations.BlockSendsThreeOpcodes := by
  intro s t tx rx h hstep htr hf
  obtain ⟨-, rfl⟩ | ⟨-, p, hp, hadv⟩ | ⟨-, -, -, rfl⟩ | ⟨-, -, c, rest, i, -, -, ht⟩ := step_next_cases hstep
  · exact absurd htr (trace_append_ne _ _)
  · have hcs : s.csN = false := by
      cases hcs : s.csN with
      | false => rfl
      | true => rw [h.unselected hcs] at hf; cases hf
    have hsel : p.selected = true := by simpa [hp, hcs, Phase.selected] using h.cs
    obtain ⟨f, hf', hsent⟩ := h.tick.frame_inside hp hsel
    cases hf'.symm.trans hf
    obtain ⟨tx', q, hsends, hop⟩ := sendsOpcode_of_sentIs_nil hsel hsent
    rw [hsends] at hadv
    cases hadv
    obtain ⟨-, e⟩ | ⟨-, e⟩ := checked_cases p s.tick fun s => (xfer tx' s).goto q
    · rw [e] at htr
      obtain e' | e' := takeAbort_trace p s.tick <;> cases trace_append_inj (e'.symm.trans htr)
    · rw [e] at htr
      cases trace_append_inj htr
      exact hop
  · exact absurd htr (trace_append_ne _ _)
  · obtain ⟨e, -⟩ | ⟨op, rsv, a, len, -, rfl⟩ := ht.silent_or_badWord
    · exact absurd (e.symm.trans htr) (trace_append_ne _ _)
    · cases trace_append_inj htr

/-! ### What an abort and a reset leave in the flash (R143, R159) -/

/-- A Page Program changes its page only. -/
theorem reactProgram_read_other {a b : FlashAddr} (ds : List Byte) {s : State} (hw : s.chip.flash.wf = true)
    (hb : pageIndex b ≠ pageIndex a) : (reactProgram a ds s).chip.flash.read b = s.chip.flash.read b := by
  unfold reactProgram
  split
  · refine programBytes_read_other a b ds 0 _ hw fun i _ hi => hb ?_
    rw [hi, pageIndex_pageTarget]
  · exact scramblePage_read_other a b _ _ hw hb

/-- A Page Program cut off changes its page only (I5). -/
theorem cutEffect_read_other {b : FlashAddr} {s : State} (hw : s.chip.flash.wf = true)
    (hb : pageIndex b ≠ pageIndex s.curAddr) : (cutEffect s).chip.flash.read b = s.chip.flash.read b :=
  scramblePage_read_other s.curAddr b _ _ hw hb

/-- A frame that is empty, a Write Enable or a Read Status: none of them changes a flash byte (R86, R100). -/
def SparesFlash (f : List Byte) : Prop := f = [] ∨ f = [opWren] ∨ ∃ args, f = opRdsr :: args

theorem SrPoint.sent_sparesFlash (dummy : Byte) (q : SrPoint) : SparesFlash (q.sent dummy) := by
  cases q with
  | cs0 => exact .inl rfl
  | opcode => exact .inl rfl
  | data => exact .inr (.inr ⟨_, rfl⟩)
  | cs1 v => exact .inr (.inr ⟨_, rfl⟩)

theorem GatePoint.sent_sparesFlash (dummy : Byte) (q : GatePoint) : SparesFlash (q.sent dummy) := by
  cases q with
  | poll q => exact q.sent_sparesFlash dummy
  | now => exact .inl rfl
  | log τ => exact .inl rfl

theorem WrenPoint.sent_sparesFlash (q : WrenPoint) : SparesFlash q.sent := by
  cases q with
  | cs0 => exact .inl rfl
  | opcode => exact .inl rfl
  | cs1 => exact .inr (.inl rfl)

/-- The block's frames but a Page Program are of these three kinds. -/
theorem Point.sparesFlash_of_sentIs {p : Point} {s : State} {f : List Byte} (hpp : ∀ q, p ≠ .chunkPp q)
    (hs : p.sentIs s f) : SparesFlash f := by
  cases p with
  | readStatus q => cases hs; exact q.sent_sparesFlash _
  | enableWren q => cases hs; exact q.sent_sparesFlash
  | chunkWren q => cases hs; exact q.sent_sparesFlash
  | chunkPp q => exact absurd rfl (hpp q)
  | respondOk => exact .inl hs
  | respondAborted => exact .inl hs
  | waitReady q => cases hs; exact q.sent_sparesFlash _
  | enableGate q => cases hs; exact q.sent_sparesFlash _
  | chunkGate1 q => cases hs; exact q.sent_sparesFlash _
  | chunkGate2 q => cases hs; exact q.sent_sparesFlash _
  | chunkGate3 q => cases hs; exact q.sent_sparesFlash _

theorem SparesFlash.frameEffect_flash {s : State} {f : List Byte} (h : SparesFlash f) (hf : s.chip.frame = some f) :
    (frameEffect s).chip.flash = s.chip.flash := by
  unfold frameEffect
  rw [hf]
  obtain rfl | rfl | ⟨args, rfl⟩ := h <;> exact Chip.settle_flash _

/-- The `CS(1)` of an abort changes the flash only in the page of a Page Program. -/
theorem State.Inv.takeAbort_flash {s : State} (h : s.Inv) {p : Point} (hp : s.phase = .busy p) :
    ((∀ q, p ≠ .chunkPp q) → (Machine.takeAbort p s).chip.flash = s.chip.flash) ∧
      ∀ b, pageIndex b ≠ pageIndex s.curAddr → (Machine.takeAbort p s).chip.flash.read b = s.chip.flash.read b := by
  obtain ⟨-, e⟩ | ⟨-, hun, e⟩ | ⟨hcs, hun, e⟩ := takeAbort_cases p s <;> rw [e]
  · exact ⟨fun _ => rfl, fun _ _ => rfl⟩
  · refine ⟨fun hpp => ?_, fun b hb => cutEffect_read_other h.flash hb⟩
    cases p with
    | chunkPp q => exact absurd rfl (hpp q)
    | _ => cases hun
  · obtain ⟨f, hf, hs⟩ := h.sent p hp hcs
    have hnot := fun hpp => (Point.sparesFlash_of_sentIs hpp hs).frameEffect_flash hf
    refine ⟨hnot, fun b hb => ?_⟩
    by_cases hpp : ∀ q, p ≠ .chunkPp q
    · exact congrArg (·.read b) (hnot hpp)
    · obtain ⟨q, rfl⟩ := not_forall_not.1 hpp
      cases q with
      | cs1 =>
        obtain ⟨ds, hlen, rfl⟩ := hs
        cases ds with
        | nil =>
          have hpos := chunkOk_len_pos (h.chunkOk hp rfl)
          simp only [List.length_nil, dataCount] at hlen
          omega
        | cons d ds =>
          show (frameEffect s).chip.flash.read b = _
          rw [frameEffect, hf, Option.getD_some, chipReact_pp,
            reactProgram_read_other (s := { s with chip := s.chip.settle }) _ (by simpa using h.flash) hb]
          exact congrArg (·.read b) (Chip.settle_flash _)
      | _ => cases hun

/-- Settles O39: the step takes the abort, or is a RESPOND. -/
theorem abortSparesOtherPages : Obligations.AbortSparesOtherPages := by
  intro s t p h ha hp hstep
  by_cases hok : p = .respondOk
  · subst hok
    cases (step_respondOk ha.1 hp).symm.trans hstep
    exact ⟨fun _ => rfl, fun _ _ => rfl⟩
  · by_cases haborted : p = .respondAborted
    · subst haborted
      cases (step_respondAborted ha.1 hp).symm.trans hstep
      exact ⟨fun _ => rfl, fun _ _ => rfl⟩
    · have hfits : p = .chunkPp .cs0 → chunkFits s.curAddr s.chunkLen = true := by
        rintro rfl
        exact chunkOk_fits (h.chunkOk hp rfl)
      cases (step_abortAt ha hp hok haborted hfits).symm.trans hstep
      exact h.tick.takeAbort_flash hp

theorem Chip.deselect_of_unselected {c : Chip} (h : c.frame = none) : c.deselect = c := by
  cases c; cases h; rfl

/-- Settles O3: with `cs_n = 1` no frame is open, and inside a transaction only a Page Program is cut off. -/
theorem resetSparesTheChip : Obligations.ResetSparesTheChip := by
  intro s t h hr hstep
  cases (step_reset hr).symm.trans hstep
  refine ⟨fun hcs => ?_, rfl, ?_⟩
  · rw [resetBlock_chip, dropEffect_of_high (s := s.tick) hcs]
    exact Chip.deselect_of_unselected (h.unselected hcs)
  · rw [resetBlock_chip]
    obtain e | ⟨-, ⟨q, hq⟩, e⟩ | ⟨-, -, e⟩ := dropEffect_cases s.tick <;> rw [e]
    · exact ⟨rfl, fun _ => ⟨rfl, rfl⟩, fun _ _ => rfl⟩
    · exact ⟨rfl, fun hpp => absurd hq (hpp q), fun b hb => cutEffect_read_other (s := s.tick) h.flash hb⟩
    · exact ⟨rfl, fun _ => ⟨rfl, rfl⟩, fun _ _ => rfl⟩

end Sys2Proof.Machine
end

section
/-! SUPPORT. Reset, the request handshake and the first step of each request (spec/10_state.md R34, R42,
spec/70_reset_and_hazards.md R158). -/

namespace Sys2Proof.Machine

/-! ### Reset (R42, R158) -/

/-- Settles O1. -/
theorem resetStateAsSpecified : Obligations.ResetStateAsSpecified := ⟨rfl, rfl, rfl, rfl, rfl, rfl, rfl⟩

/-- A block in reset is not ready (R34). -/
theorem reqReady_of_reset {s : State} (h : s.env.pins.rstN = false) : s.reqReady = false := by
  simp [State.reqReady, h]

/-- Settles O2: the step is the reset, which touches neither trace nor inputs. -/
theorem resetFromAnyState : Obligations.ResetFromAnyState := fun s hr =>
  ⟨_, step_reset hr, rfl, rfl, rfl, rfl, rfl, rfl, reqReady_of_reset (s := resetBlock s.tick) hr, rfl,
    Env.tick_offers _, Env.tick_statuses _, Env.tick_nows _⟩

/-! ### The step of an idle block (R34) -/

/-- The step of an idle block with reset released runs its first offer. -/
theorem step_of_offer {s : State} {c : Code} {rest : List Code} {i : Instr} (hr : s.env.tick.pins.rstN = true)
    (hp : s.phase = .idle) (ho : s.env.offers = c :: rest) (hd : decode c = .ok i) :
    step s = exec i (s.tick.setOffers rest) :=
  (step_idle hr hp).trans (idleStep_cons ((Env.tick_offers s.env).trans ho) hd)

/-- Settles O8. -/
theorem stepRunsTheOfferedInstruction : Obligations.StepRunsTheOfferedInstruction := by
  refine fun s hr hp => ⟨fun c rest i ho hd => step_of_offer hr hp ho hd, fun c rest r ho hd => ?_, fun ho => ?_⟩
  · rw [step_idle hr hp]
    simp [idleStep, ho, hd]
  · rw [step_idle hr hp]
    simp [idleStep, ho]

/-- Settles O12. -/
theorem pollRequestsAreTaken : Obligations.PollRequestsAreTaken := fun _ a len h =>
  ⟨execWaitReady_ready a len h, execReadStatus_ready a len h, execWriteEnable_ready a len h⟩

/-- Settles O14: each request's `exec` is `whenReady`. -/
theorem requestWaitsUntilReady : Obligations.RequestWaitsUntilReady := by
  intro s a len op rsv h
  simp only [exec, execWrite, execWaitReady, execReadStatus, execWriteEnable, execReservedRequest, whenReady_busy h,
    and_self]

/-! ### The handshake -/

/-- On a ready machine a request word is taken whole: `op` and `sr_latch` are written, and the block is then idle
exactly if the word is a bad one. -/
theorem exec_decodeRequest_ready {s : State} (h : s.reqReady = true) (w : RequestWord) :
    ∃ t, exec (decodeRequest w) s = .next t ∧ t.op = wordOp w ∧ t.srLatch = 0x00 ∧ t.env.offers = s.env.offers ∧
      (t.phase = .idle ↔ isReserved (wordOp w) (wordRsv w) = true) := by
  obtain hbad | ⟨hrsv, hop | hop | hop | hop⟩ := requestWord_cases w
  · rw [decodeRequest_reserved hbad]
    exact ⟨_, execReservedRequest_ready _ _ _ _ h, rfl, rfl, rfl, iff_of_true rfl hbad⟩
  · rw [decodeRequest_write hrsv hop, hop, hrsv]
    refine ⟨_, execWrite_ready _ _ h, chunkHead_op _, chunkHead_srLatch _, by rw [chunkHead_env]; rfl,
      iff_of_false ?_ (by decide)⟩
    rw [chunkHead_phase]
    split <;> exact Phase.noConfusion
  · rw [decodeRequest_waitReady hrsv hop, hop, hrsv]
    exact ⟨_, execWaitReady_ready _ _ h, rfl, rfl, rfl, iff_of_false Phase.noConfusion (by decide)⟩
  · rw [decodeRequest_readStatus hrsv hop, hop, hrsv]
    exact ⟨_, execReadStatus_ready _ _ h, rfl, rfl, rfl, iff_of_false Phase.noConfusion (by decide)⟩
  · rw [decodeRequest_writeEnable hrsv hop, hop, hrsv]
    exact ⟨_, execWriteEnable_ready _ _ h, rfl, rfl, rfl, iff_of_false Phase.noConfusion (by decide)⟩

/-- No event touches the parameters, the software's trace, the offers or the buffers. -/
theorem Primitive.keeps {s u : State} (h : Primitive s u) :
    u.params = s.params ∧ u.swTrace = s.swTrace ∧ u.env.offers = s.env.offers ∧ u.env.buf = s.env.buf ∧
      u.env.bufs = s.env.bufs := by
  cases h with
  | xfer tx => simp
  | _ => exact ⟨rfl, rfl, rfl, rfl, rfl⟩

/-- Nor does a busy block's step. -/
theorem advance_keeps {p : Point} {s t : State} (h : advance p s = .next t) :
    t.params = s.params ∧ t.swTrace = s.swTrace ∧ t.env.offers = s.env.offers ∧ t.env.buf = s.env.buf ∧
      t.env.bufs = s.env.bufs := by
  obtain ⟨u, hu, -, -, -, -, hsw, -, henv, -, hpar⟩ := advance_oneEvent h
  rw [hsw, henv, hpar]
  exact hu.keeps

/-- Settles O9: an idle block with reset released is ready; a reset and a busy block's event leave the offers. -/
theorem requestHandshake : Obligations.RequestHandshake := by
  refine fun s w rest ho => ⟨fun hr hp => ?_, fun t hnot hstep => ?_⟩
  · rw [step_of_offer hr hp ho (i := decodeRequest w) rfl]
    exact exec_decodeRequest_ready (s := s.tick.setOffers rest) (reqReady_of_idle hp hr) w
  · obtain ⟨-, rfl⟩ | ⟨-, p, -, hadv⟩ | ⟨hr, hp, -⟩ | ⟨hr, hp, -⟩ := step_next_cases hstep
    · exact Env.tick_offers _
    · obtain ⟨-, -, hoffers, -, -⟩ := advance_keeps hadv
      exact hoffers.trans (Env.tick_offers _)
    · exact absurd hnot (by simp [hr, hp])
    · exact absurd hnot (by simp [hr, hp])

/-! ### The bus lock (R55, R131) -/

theorem busLock_of_busy {s : State} (h : s.phase ≠ .idle) : s.busLock = true := by
  simpa [State.busLock, State.busy] using h

/-- Settles O60: a frame's `exec` is `onBus`, which the lock refuses; a busy block's step is the reset or its event. -/
theorem noFrameWhileTheBusIsLocked : Obligations.NoFrameWhileTheBusIsLocked := by
  intro s i f hp hf
  refine ⟨?_, fun t hstep => ?_, fun r hstep => ?_⟩
  · have hlock := busLock_of_busy hp
    cases i with
    | write a len => cases hf
    | waitReady a len => cases hf
    | readStatus a len => cases hf
    | writeEnable a len => cases hf
    | reservedRequest op rsv a len => cases hf
    | _ => exact onBus_locked hlock
  · obtain ⟨-, rfl⟩ | ⟨-, p, -, hadv⟩ | ⟨-, hidle, -⟩ | ⟨-, hidle, -⟩ := step_next_cases hstep
    · rfl
    · obtain ⟨-, hsw, -⟩ := advance_keeps hadv
      exact hsw
    · exact absurd hidle hp
    · exact absurd hidle hp
  · obtain ⟨-, e⟩ | ⟨-, p, -, e⟩ | ⟨-, hidle, -⟩ := step_cases s
    · cases e.symm.trans hstep
    · exact advance_not_refused p s.tick r (e.symm.trans hstep)
    · exact hp hidle

end Sys2Proof.Machine
end

section
/-! SUPPORT. The events of one step (spec/00_scope.md R16, spec/10_state.md R36 to R39): at which point a busy block
makes which event, and the strobe each event raises. -/

namespace Sys2Proof.Machine

/-! ### The event at a point -/

/-- The events a procedure makes at the point `p`, but for its response: the time is sampled at the time check of a gate
only, and a log there writes `last_log_ts` (R91). -/
inductive EventAt (p : Point) (s : State) : State → Prop where
  | csLow : EventAt p s (csLow s)
  | csHigh : EventAt p s (csHigh s)
  | xfer (tx : Byte) : EventAt p s (xfer tx s)
  | bufRead (i : Count) : EventAt p s (bufRead i s)
  | now (g : GateSite) (h : p = g.point .now) : EventAt p s (sampleNow s)
  | log (g : GateSite) (τ : Time) (h : p = g.point (.log τ)) : EventAt p s { logEvent s.srLatch s with lastLogTs := τ }

/-- `t` is one event of the point `p` after `s`, and what the procedure then assigns. -/
def MakesEvent (p : Point) (s t : State) : Prop := ∃ u, EventAt p s u ∧ SameBus u t ∧ t.lastLogTs = u.lastLogTs

theorem EventAt.goto {p : Point} {s u : State} (h : EventAt p s u) (q : Point) : MakesEvent p s (u.goto q) :=
  ⟨u, h, sameBus_goto u q, rfl⟩

/-- `t` is the abort taken at `p`, or an event of `p`. -/
def AbortOrEvent (p : Point) (s t : State) : Prop :=
  (s.env.pins.abort = true ∧ t = takeAbort p s) ∨ MakesEvent p s t

theorem checked_abortOrEvent {p : Point} {s : State} {event : State → State} (h : MakesEvent p s (event s)) :
    AbortOrEvent p s (checked p s event) := by
  obtain ⟨ha, e⟩ | ⟨-, e⟩ := checked_cases p s event <;> rw [e]
  · exact .inl ⟨ha, rfl⟩
  · exact .inr h

theorem readSrStep_abortOrEvent {at' : SrPoint → Point} {done : Byte → State → State}
    (hdone : ∀ v t, GoesOn t (done v t)) (q : SrPoint) (s : State) :
    AbortOrEvent (at' q) s (readSrStep at' done q s) := by
  refine checked_abortOrEvent ?_
  cases q with
  | cs0 => exact EventAt.csLow.goto _
  | opcode => exact (EventAt.xfer _).goto _
  | data => exact (EventAt.xfer _).goto _
  | cs1 v =>
    obtain ⟨hbus, -, hts⟩ := hdone v { csHigh s with srLatch := v }
    have hlatch : SameBus (csHigh s) { csHigh s with srLatch := v } := ⟨rfl, rfl, rfl, rfl, rfl, rfl, rfl, rfl, rfl⟩
    exact ⟨_, .csHigh, hlatch.trans' hbus, hts⟩

theorem gateStep_abortOrEvent (g : GateSite) (q : GatePoint) (s : State) :
    AbortOrEvent (g.point q) s (gateStep g.point g.after q s) := by
  cases q with
  | poll q =>
    rw [gateStep_poll]
    refine readSrStep_abortOrEvent (at' := fun q => g.point (.poll q)) (fun v t => ?_) q s
    split
    · exact goesOn_goto t _
    · exact g.goesOn_after t
  | now =>
    unfold gateStep
    refine checked_abortOrEvent ?_
    split
    · exact (EventAt.now g rfl).goto _
    · exact (EventAt.now g rfl).goto _
  | log τ =>
    unfold gateStep
    exact checked_abortOrEvent ((EventAt.log g τ rfl).goto _)

theorem wrenStep_abortOrEvent (g : WrenSite) (q : WrenPoint) (s : State) :
    AbortOrEvent (g.point q) s (wrenStep g.point (fun t => t.goto g.gate) q s) := by
  refine checked_abortOrEvent ?_
  cases q with
  | cs0 => exact EventAt.csLow.goto _
  | opcode => exact (EventAt.xfer _).goto _
  | cs1 => exact EventAt.csHigh.goto _

theorem ppStep_abortOrEvent {q : PpPoint} {s t : State} (h : ppStep q s = .next t) : AbortOrEvent (.chunkPp q) s t := by
  cases q with
  | cs0 =>
    simp only [ppStep] at h
    split at h
    · cases h
      exact checked_abortOrEvent (EventAt.csLow.goto _)
    · cases h
  | bufRead j => cases h; exact checked_abortOrEvent ((EventAt.bufRead _).goto _)
  | cs1 => cases h; exact checked_abortOrEvent (EventAt.csHigh.goto _)
  | _ => cases h; exact checked_abortOrEvent ((EventAt.xfer _).goto _)

/-- What a busy block's step is: a response, at the point where it is due; the abort; or the event of its point. -/
theorem advance_cases {p : Point} {s t : State} (h : advance p s = .next t) :
    (p = .respondOk ∧ t = respond .ok s) ∨ (p = .respondAborted ∧ t = respond .errAborted s) ∨ AbortOrEvent p s t := by
  cases p with
  | readStatus q =>
    cases h; exact .inr (.inr (readSrStep_abortOrEvent (at' := .readStatus) (fun _ t => goesOn_goto t _) q s))
  | waitReady q => cases h; exact .inr (.inr (gateStep_abortOrEvent .waitReady q s))
  | enableWren q => cases h; exact .inr (.inr (wrenStep_abortOrEvent .enable q s))
  | enableGate q => cases h; exact .inr (.inr (gateStep_abortOrEvent .enable q s))
  | chunkWren q => cases h; exact .inr (.inr (wrenStep_abortOrEvent .chunk q s))
  | chunkGate1 q => cases h; exact .inr (.inr (gateStep_abortOrEvent .chunk1 q s))
  | chunkGate2 q => cases h; exact .inr (.inr (gateStep_abortOrEvent .chunk2 q s))
  | chunkPp q => exact .inr (.inr (ppStep_abortOrEvent h))
  | chunkGate3 q => cases h; exact .inr (.inr (gateStep_abortOrEvent .chunk3 q s))
  | respondOk => cases h; exact .inl ⟨rfl, rfl⟩
  | respondAborted => cases h; exact .inr (.inl ⟨rfl, rfl⟩)

/-! ### Time and log (R28, R91) -/

theorem takeAbort_lastLogTs (p : Point) (s : State) : (takeAbort p s).lastLogTs = s.lastLogTs := by
  obtain ⟨-, e⟩ | ⟨-, -, e⟩ | ⟨-, -, e⟩ := takeAbort_cases p s <;> rw [e] <;> rfl

theorem Taken.lastLogTs {s t : State} {i : Instr} (h : Taken s i t) : t.lastLogTs = s.lastLogTs := by
  cases h with
  | write a len => exact chunkHead_lastLogTs _
  | frame i f hf =>
    obtain ⟨-, -, -, -, -, -, -, hts, -⟩ := swTransaction_block f s
    exact hts
  | _ => rfl

/-- A busy block samples the time only at the time check of a gate. -/
theorem advance_now {p : Point} {s t : State} {τ : Time} (h : advance p s = .next t)
    (htr : t.trace = s.trace ++ [.now τ]) : ∃ g : GateSite, p = g.point .now := by
  obtain ⟨-, rfl⟩ | ⟨-, rfl⟩ | ⟨-, rfl⟩ | ⟨u, hu, ⟨-, -, -, htr', -⟩, -⟩ := advance_cases h
  · cases trace_append_inj htr
  · cases trace_append_inj htr
  · obtain e | e := takeAbort_trace p s <;> cases trace_append_inj (e.symm.trans htr)
  · rw [htr'] at htr
    cases hu with
    | now g hp => exact ⟨g, hp⟩
    | _ => cases trace_append_inj htr

/-- A busy block writes `last_log_ts` only with a log. -/
theorem advance_lastLogTs {p : Point} {s t : State} (h : advance p s = .next t) (hne : t.lastLogTs ≠ s.lastLogTs) :
    ∃ (g : GateSite) (τ : Time), p = g.point (.log τ) ∧ t.lastLogTs = τ ∧ t.trace = s.trace ++ [.log s.srLatch] := by
  obtain ⟨-, rfl⟩ | ⟨-, rfl⟩ | ⟨-, rfl⟩ | ⟨u, hu, ⟨-, -, -, htr, -⟩, hts⟩ := advance_cases h
  · exact absurd rfl hne
  · exact absurd rfl hne
  · exact absurd (takeAbort_lastLogTs p s) hne
  · rw [hts] at hne
    cases hu with
    | log g τ hp => exact ⟨g, τ, hp, hts, htr⟩
    | _ => exact absurd rfl hne

/-- Settles O19: taking an offer makes no such event, and a reset sets `last_log_ts` to 0. -/
theorem timeIsReadOnlyInTheGate : Obligations.TimeIsReadOnlyInTheGate := by
  intro s t hstep
  obtain ⟨hr, rfl⟩ | ⟨-, p, hp, hadv⟩ | ⟨-, -, -, rfl⟩ | ⟨-, -, c, rest, i, -, -, ht⟩ := step_next_cases hstep
  · exact ⟨fun τ htr => absurd htr (trace_append_ne _ _), fun _ => .inl ⟨hr, rfl⟩⟩
  · refine ⟨fun τ htr => ?_, fun hne => .inr ?_⟩
    · obtain ⟨g, rfl⟩ := advance_now hadv htr
      exact ⟨g, hp⟩
    · obtain ⟨g, τ, rfl, hts, htr⟩ := advance_lastLogTs hadv hne
      exact ⟨g, τ, hp, hts, htr⟩
  · exact ⟨fun τ htr => absurd htr (trace_append_ne _ _), fun hne => absurd rfl hne⟩
  · refine ⟨fun τ htr => ?_, fun hne => absurd ht.lastLogTs hne⟩
    obtain ⟨e, -⟩ | ⟨op, rsv, a, len, -, rfl⟩ := ht.silent_or_badWord
    · exact absurd (e.symm.trans htr) (trace_append_ne _ _)
    · cases trace_append_inj htr

/-! ### Strobes (R36 to R39) -/

/-- The strobes in the step of an event. -/
def Event.strobes : Event → Ports
  | .cs _ => Ports.quiet
  | .xfer tx _ => { Ports.quiet with xfer := some tx }
  | .bufRead i _ => { Ports.quiet with buf := some i }
  | .log v => { Ports.quiet with log := some v }
  | .now _ => Ports.quiet
  | .respond c v => { Ports.quiet with rsp := some (c, v) }

/-- `t` is `s` with no event and no strobe, or with one event and its strobe. -/
def Strobed (s t : State) : Prop :=
  (t.trace = s.trace ∧ t.ports = Ports.quiet) ∨ ∃ e, t.trace = s.trace ++ [e] ∧ t.ports = e.strobes

theorem Primitive.strobed {s u : State} (h : Primitive s u) (hq : s.ports = Ports.quiet) : Strobed s u := by
  cases h with
  | csLow => exact .inr ⟨.cs false, rfl, hq⟩
  | csHigh => exact .inr ⟨.cs true, rfl, hq⟩
  | csHighCut => exact .inr ⟨.cs true, rfl, hq⟩
  | xfer tx => exact .inr ⟨.xfer tx (xferRx s), rfl, by rw [xfer_ports, hq]; rfl⟩
  | bufRead i => exact .inr ⟨.bufRead i (bufValue i s), rfl, by rw [bufRead_ports, hq]; rfl⟩
  | log v => exact .inr ⟨.log v, rfl, by rw [logEvent_ports, hq]; rfl⟩
  | now => exact .inr ⟨.now (nowValue s), rfl, hq⟩
  | respond code => exact .inr ⟨.respond code s.srLatch, rfl, by rw [respond_ports, hq]; rfl⟩

/-- Every step makes at most one event, with its strobe. -/
theorem step_strobed {s t : State} (hstep : step s = .next t) : Strobed s t := by
  obtain ⟨-, rfl⟩ | ⟨-, p, -, hadv⟩ | ⟨-, -, -, rfl⟩ | ⟨-, -, c, rest, i, -, -, ht⟩ := step_next_cases hstep
  · exact .inl ⟨rfl, rfl⟩
  · obtain ⟨u, hu, -, -, hports, htr, -⟩ := advance_oneEvent hadv
    unfold Strobed
    rw [hports, htr]
    exact hu.strobed rfl
  · exact .inl ⟨rfl, rfl⟩
  · obtain ⟨htr, hports⟩ | ⟨op, rsv, a, len, -, rfl⟩ := ht.silent_or_badWord
    · exact .inl ⟨htr, hports⟩
    · exact .inr ⟨_, rfl, rfl⟩

/-- Settles O46: the event a step adds, if any, determines the strobes. -/
theorem strobesShowTheEvent : Obligations.StrobesShowTheEvent := by
  intro s t hstep
  obtain ⟨htr, hports⟩ | ⟨e, htr, hports⟩ := step_strobed hstep
  · rw [htr, hports]
    simp [Ports.quiet]
  · rw [htr, hports]
    refine ⟨.inr ⟨e, rfl⟩, ?_⟩
    cases e <;> simp [Event.strobes, Ports.quiet]

/-! ### Responses (R36, R81, R139) -/

/-- A busy block answers at the point where a response is due, or by an abort between transactions. -/
theorem advance_rsp {p : Point} {s t : State} (hq : s.ports = Ports.quiet) (h : advance p s = .next t)
    (hrsp : t.ports.rsp ≠ none) :
    (p = .respondOk ∧ t = respond .ok s) ∨
      (t = respond .errAborted s ∧ (p = .respondAborted ∨ s.env.pins.abort = true)) := by
  obtain ⟨hp, rfl⟩ | ⟨hp, rfl⟩ | ⟨ha, rfl⟩ | ⟨u, hu, ⟨-, -, hports, -⟩, -⟩ := advance_cases h
  · exact .inl ⟨hp, rfl⟩
  · exact .inr ⟨rfl, .inl hp⟩
  · obtain ⟨-, e⟩ | ⟨-, -, e⟩ | ⟨-, -, e⟩ := takeAbort_cases p s
    · exact .inr ⟨e, .inr ha⟩
    · rw [e] at hrsp; exact absurd (congrArg Ports.rsp hq) hrsp
    · rw [e] at hrsp; exact absurd (congrArg Ports.rsp hq) hrsp
  · rw [hports] at hrsp
    cases hu <;> exact absurd (congrArg Ports.rsp hq) hrsp

/-- Settles O47, by the three steps that respond: at RESPOND, by an abort, to a bad word. -/
theorem responsesCarryTheStatus : Obligations.ResponsesCarryTheStatus := by
  intro s t c v hstep hrsp
  have hsome : t.ports.rsp ≠ none := by simp [hrsp]
  obtain ⟨-, rfl⟩ | ⟨hr, p, hp, hadv⟩ | ⟨-, -, -, rfl⟩ | ⟨-, hp, code, rest, i, ho, hd, ht⟩ := step_next_cases hstep
  · cases hrsp
  · obtain ⟨rfl, rfl⟩ | ⟨rfl, hcause⟩ := advance_rsp rfl hadv hsome
    · cases hrsp
      exact ⟨rfl, rfl, fun _ => ⟨hp, rfl⟩, nofun, nofun⟩
    · cases hrsp
      refine ⟨rfl, rfl, nofun, fun _ => ⟨rfl, ?_⟩, nofun⟩
      obtain rfl | ha := hcause
      · exact .inl hp
      · exact .inr ⟨⟨hr, ha⟩, p, hp⟩
  · cases hrsp
  · obtain ⟨-, hports⟩ | ⟨op, rsv, a, len, rfl, rfl⟩ := ht.silent_or_badWord
    · exact absurd (congrArg Ports.rsp hports) hsome
    · cases hrsp
      refine ⟨rfl, rfl, nofun, nofun, fun _ => ⟨rfl, hp, ?_⟩⟩
      cases code with
      | request w =>
        exact ⟨w, rest, ho, decodeRequest_eq_reserved_iff.1 ⟨op, rsv, a, len, by injection hd⟩⟩
      | frame f =>
        obtain ⟨hencode, -⟩ := decodeFrame_ok hd
        cases hencode

/-! ### Parameters, traces and buffers (R19, R45, R50, R58) -/

/-- Taking a WRITE presents its own buffer; nothing else that is taken changes a buffer (R79, log 16). -/
theorem Taken.buffer {s t : State} {i : Instr} (h : Taken s i t) :
    ((∃ a len, i = .write a len) ∧ t.env.buf = s.env.bufs.headD [] ∧ t.env.bufs = s.env.bufs.tail) ∨
      ((∀ a len, i ≠ .write a len) ∧ t.env.buf = s.env.buf ∧ t.env.bufs = s.env.bufs) := by
  cases h with
  | write a len => exact .inl ⟨⟨a, len, rfl⟩, by rw [chunkHead_env]; rfl, by rw [chunkHead_env]; rfl⟩
  | frame i f hf =>
    obtain ⟨-, -, -, hbuf, hbufs, -⟩ := swTransaction_inputs f s
    exact .inr ⟨fun a len e => (by subst e; cases hf), hbuf, hbufs⟩
  | _ => exact .inr ⟨nofun, rfl, rfl⟩

theorem Taken.params {s t : State} {i : Instr} (h : Taken s i t) : t.params = s.params ∧ s.swTrace <+: t.swTrace := by
  cases h with
  | write a len => exact ⟨chunkHead_params _, by rw [chunkHead_swTrace]; exact List.prefix_rfl⟩
  | frame i f hf =>
    obtain ⟨-, -, -, -, -, -, -, -, -, -, -, hparams⟩ := swTransaction_block f s
    exact ⟨hparams, swTransaction_swTrace f s⟩
  | _ => exact ⟨rfl, List.prefix_rfl⟩

/-- The parameters stay and the software's trace only grows. -/
theorem step_params {s t : State} (hstep : step s = .next t) : t.params = s.params ∧ s.swTrace <+: t.swTrace := by
  obtain ⟨-, rfl⟩ | ⟨-, p, -, hadv⟩ | ⟨-, -, -, rfl⟩ | ⟨-, -, c, rest, i, -, -, ht⟩ := step_next_cases hstep
  · exact ⟨rfl, List.prefix_rfl⟩
  · obtain ⟨hparams, hsw, -⟩ := advance_keeps hadv
    exact ⟨hparams, by rw [hsw]; exact List.prefix_rfl⟩
  · exact ⟨rfl, List.prefix_rfl⟩
  · exact ht.params

theorem Strobed.trace_grows {s t : State} (h : Strobed s t) : s.trace <+: t.trace := by
  obtain ⟨e, -⟩ | ⟨e, he, -⟩ := h
  · rw [e]
  · exact ⟨[e], he.symm⟩

/-- The step that takes a WRITE presents its buffer. -/
theorem step_write_buffer {s t : State} {a : FlashAddr} {len : Count} (ho : s.offersRequest (.write a len))
    (hr : s.env.tick.pins.rstN = true) (hstep : step s = .next t) :
    t.env.buf = s.env.bufs.headD [] ∧ t.env.bufs = s.env.bufs.tail := by
  obtain ⟨rest, e⟩ := step_idle_offersRequest hr ho
  have hready : (s.tick.setOffers rest).reqReady = true := reqReady_of_idle ho.1 hr
  rw [execWrite_ready a len hready] at e
  cases e.symm.trans hstep
  rw [chunkHead_env]
  exact ⟨congrArg (fun l => l.headD []) (Env.tick_bufs s.env), congrArg List.tail (Env.tick_bufs s.env)⟩

/-- Every other step leaves the buffers. -/
theorem step_other_buffer {s t : State}
    (hno : (∀ a len, ¬ s.offersRequest (.write a len)) ∨ s.env.tick.pins.rstN = false) (hstep : step s = .next t) :
    t.env.buf = s.env.buf ∧ t.env.bufs = s.env.bufs := by
  have hbuf := Env.tick_buf s.env
  have hbufs := Env.tick_bufs s.env
  obtain ⟨-, rfl⟩ | ⟨-, p, -, hadv⟩ | ⟨-, -, -, rfl⟩ | ⟨hr, hp, c, rest, i, ho, hd, ht⟩ := step_next_cases hstep
  · exact ⟨hbuf, hbufs⟩
  · obtain ⟨-, -, -, e, e'⟩ := advance_keeps hadv
    exact ⟨e.trans hbuf, e'.trans hbufs⟩
  · exact ⟨hbuf, hbufs⟩
  · obtain ⟨⟨a, len, rfl⟩, -⟩ | ⟨-, e, e'⟩ := ht.buffer
    · have hwrite : s.offersRequest (.write a len) := by
        cases c with
        | request w => exact ⟨hp, w, rest, ho, by injection hd⟩
        | frame f =>
          obtain ⟨hencode, -⟩ := decodeFrame_ok hd
          cases hencode
      obtain hno | hno := hno
      · exact absurd hwrite (hno a len)
      · exact absurd (hr.symm.trans hno) (by decide)
    · exact ⟨e.trans hbuf, e'.trans hbufs⟩

/-- Settles O49. -/
theorem stepKeepsParametersAndBuffer : Obligations.StepKeepsParametersAndBuffer := by
  intro s t hstep
  obtain ⟨hparams, hsw⟩ := step_params hstep
  exact ⟨hparams, (step_strobed hstep).trace_grows, hsw, fun _ _ ho hr => step_write_buffer ho hr hstep,
    fun hno => step_other_buffer hno hstep⟩

end Sys2Proof.Machine
end

section
/-! SUPPORT. What a Page Program leaves at each flash address (spec/20_memory.md R56), and the bus commands of the
surrounding software (spec/43_other_bus_commands.md R131 to R136): the frame each sends, what comes back, and the chip's
reaction. -/

namespace Sys2Proof.Machine

/-! ### The flash (R54, R56) -/

/-- Settles O50. -/
theorem flashReadAfterWrite : Obligations.FlashReadAfterWrite := fun m a b v h =>
  ⟨m.write_wf a v h, m.read_write a b v h⟩

theorem pageOffset_append (p : BitVec 16) (o : BitVec 8) : pageOffset (p ++ o) = o := BitVec.extractLsb'_append_eq_right

theorem pageOffset_pageTarget (a : FlashAddr) (j : Nat) :
    (pageOffset (pageTarget a j)).toNat = ((pageOffset a).toNat + j) % 256 := by
  rw [pageTarget, pageOffset_append, BitVec.toNat_add, BitVec.toNat_ofNat, Nat.add_mod_mod]

/-- The data bytes from `j` on that land on `b`, by recursion on them. -/
def landingFrom (a b : FlashAddr) : Nat → List Byte → List Byte
  | _, [] => []
  | j, d :: ds => if pageTarget a j = b then d :: landingFrom a b (j + 1) ds else landingFrom a b (j + 1) ds

theorem landingFrom_eq (a b : FlashAddr) : ∀ (ds : List Byte) (j : Nat),
    ((List.range ds.length).filter (fun i => pageTarget a (j + i) = b)).filterMap (fun i => ds[i]?) =
      landingFrom a b j ds
  | [], _ => rfl
  | d :: ds, j => by
    have hshift : (fun i => decide (pageTarget a (j + i) = b)) ∘ Nat.succ =
        fun i => decide (pageTarget a (j + 1 + i) = b) := by
      funext i
      rw [Function.comp_apply, Nat.add_succ, Nat.succ_add]
    have hrest : (((List.range ds.length).map Nat.succ).filter (fun i => pageTarget a (j + i) = b)).filterMap
        (fun i => (d :: ds)[i]?) = landingFrom a b (j + 1) ds := by
      rw [List.filter_map, List.filterMap_map, hshift]
      exact landingFrom_eq a b ds (j + 1)
    rw [List.length_cons, List.range_succ_eq_map, List.filter_cons, landingFrom, Nat.add_zero]
    by_cases h : pageTarget a j = b
    · rw [if_pos h, if_pos (decide_eq_true h), List.filterMap_cons, hrest]
      rfl
    · rw [if_neg h, if_neg (by simpa using h), hrest]

theorem landing_eq_landingFrom (a b : FlashAddr) (ds : List Byte) : landing a b ds = landingFrom a b 0 ds := by
  rw [← landingFrom_eq]
  simp only [landing, Nat.zero_add]

/-- A byte after a Page Program is the byte before with the data that lands on it applied in order. -/
theorem programBytes_read (a b : FlashAddr) : ∀ (ds : List Byte) (j : Nat) (m : Memory), m.wf = true →
    (programBytes a j ds m).read b = (landingFrom a b j ds).foldl programByte (m.read b)
  | [], _, _, _ => rfl
  | d :: ds, j, m, h => by
    rw [programBytes, programBytes_read a b ds (j + 1) _ (m.write_wf _ _ h), m.read_write _ _ _ h, landingFrom]
    by_cases hb : pageTarget a j = b
    · rw [if_pos hb, if_pos hb.symm, hb, List.foldl_cons]
    · rw [if_neg hb, if_neg (Ne.symm hb)]

/-- Settles O51. -/
theorem pageProgramEffect : Obligations.PageProgramEffect := by
  refine fun m a b ds h => ⟨?_, fun old new => ⟨if_pos rfl, fun hne => if_neg hne⟩, fun j =>
    ⟨pageIndex_pageTarget a j, pageOffset_pageTarget a j⟩⟩
  rw [landing_eq_landingFrom]
  exact programBytes_read a b ds 0 m h

/-! ### A frame of the software, exchange by exchange (R63) -/

theorem busLock_of_idle {s : State} (h : s.phase = .idle) : s.busLock = false := by
  simp [State.busLock, State.busy, h]

/-- On an idle block a bus command is the transaction of its frame. -/
theorem exec_of_frame {s : State} {i : Instr} {f : List Byte} (hp : s.phase = .idle) (hf : encode i = .frame f) :
    exec i s = .next (swTransaction f s) := by
  have hfree := busLock_of_idle hp
  cases i with
  | write a len => cases hf
  | waitReady a len => cases hf
  | readStatus a len => cases hf
  | writeEnable a len => cases hf
  | reservedRequest op rsv a len => cases hf
  | _ => cases hf; exact onBus_free hfree

/-- Only the data phase of a Read Status moves the chip or the inputs. -/
theorem chipAnswer_keeps {s : State} (h : s.chip.frame ≠ some [opRdsr]) :
    (chipAnswer s).chip = s.chip ∧ (chipAnswer s).env = s.env := by
  obtain e | ⟨v, e⟩ | ⟨hf, -⟩ := chipAnswer_cases s
  · rw [e]; exact ⟨rfl, rfl⟩
  · rw [e]; exact ⟨rfl, rfl⟩
  · exact absurd hf h

/-- The exchanges a list of bytes gives with what came back. -/
def exchanges (sent : List (Byte × Byte)) : List Event := sent.map fun x => .xfer x.1 x.2

theorem frameEvents_eq (sent : List (Byte × Byte)) : frameEvents sent = .cs false :: exchanges sent ++ [.cs true] := rfl

/-- `w` is `s` as far as the chip's answers depend on it, with the bytes `f` received. -/
def Received (s w : State) (f : List Byte) : Prop :=
  w.chip = { s.chip with frame := some f } ∧ w.params = s.params ∧ w.env = s.env

theorem received_self {s : State} {f : List Byte} (hf : s.chip.frame = some f) : Received s s f := by
  refine ⟨?_, rfl, rfl⟩
  rw [← hf]

/-- The bytes `bytes` sent one by one after `f`, in a frame that is no Read Status: each comes with the chip's answer,
and the chip receives them. -/
theorem swXfer_foldl {bytes : List Byte} : ∀ {s : State} {f : List Byte}, s.chip.frame = some f →
    (∀ j, j < bytes.length → f ++ bytes.take j ≠ [opRdsr]) →
    ∃ rxs, rxs.length = bytes.length ∧ Received s (bytes.foldl swXfer s) (f ++ bytes) ∧
      (bytes.foldl swXfer s).swTrace = s.swTrace ++ exchanges (bytes.zip rxs) ∧
      ∀ j, j < bytes.length → ∃ w, rxs[j]? = some (xferRx w) ∧ Received s w (f ++ bytes.take j) := by
  induction bytes with
  | nil =>
    intro s f hf _
    refine ⟨[], rfl, ?_, (List.append_nil _).symm, fun j h => absurd h (Nat.not_lt_zero j)⟩
    rw [List.append_nil]
    exact received_self hf
  | cons b bs ih =>
    intro s f hf hno
    have hne : s.chip.frame ≠ some [opRdsr] := by
      rw [hf]
      exact fun e => hno 0 (Nat.succ_pos _) (by simpa using e)
    obtain ⟨hchip, henv⟩ := chipAnswer_keeps hne
    have hfirst : Received s (swXfer s b) (f ++ [b]) := by
      refine ⟨?_, rfl, (swXfer_env s b).trans henv⟩
      rw [swXfer_chip, hchip, Chip.take, hf]
      rfl
    obtain ⟨rxs, hlen, ⟨hc, hp, he⟩, htr, hrx⟩ := ih (s := swXfer s b) (f := f ++ [b]) (by rw [hfirst.1])
      (fun j hj => by
        have := hno (j + 1) (by simpa using hj)
        simpa using this)
    have hbytes : ∀ l, f ++ [b] ++ l = f ++ b :: l := fun l => by simp
    have hreceived : ∀ {w : State} {g : List Byte}, Received (swXfer s b) w g → Received s w g := by
      rintro w g ⟨h1, h2, h3⟩
      exact ⟨by rw [h1, hfirst.1], h2, h3.trans hfirst.2.2⟩
    refine ⟨xferRx s :: rxs, by simp [hlen], ?_, ?_, ?_⟩
    · rw [List.foldl_cons, ← hbytes]
      exact hreceived ⟨hc, hp, he⟩
    · rw [List.foldl_cons, htr]
      simp [exchanges]
    · intro j hj
      cases j with
      | zero => exact ⟨s, rfl, by rw [List.take_zero, List.append_nil]; exact received_self hf⟩
      | succ j =>
        obtain ⟨w, hw, hw'⟩ := hrx j (by simpa using hj)
        refine ⟨w, by simpa using hw, ?_⟩
        rw [List.take_succ_cons, ← hbytes]
        exact hreceived hw'

/-- `t` is what the frame `bytes` leaves: `rxs` came back, and the chip, settled, has reacted to it in the state `u`. -/
structure FrameSent (s : State) (bytes rxs : List Byte) (u t : State) : Prop where
  block : SameBlock s t
  env : t.env = s.env
  swTrace : t.swTrace = s.swTrace ++ frameEvents (bytes.zip rxs)
  length : rxs.length = bytes.length
  answers : ∀ j, j < bytes.length → ∃ w, rxs[j]? = some (xferRx w) ∧ Received s w (bytes.take j)
  reacted : t.chip = (chipReact bytes u).chip.deselect
  settled : u.chip = { s.chip.settle with frame := some bytes }
  params : u.params = s.params

/-- A frame of the software that is no Read Status. -/
theorem swTransaction_frameSent {b : Byte} (hb : b ≠ opRdsr) (args : List Byte) (s : State) :
    ∃ rxs u, FrameSent s (b :: args) rxs u (swTransaction (b :: args) s) := by
  have hno : ∀ j, j < (b :: args).length → [] ++ (b :: args).take j ≠ [opRdsr] := by
    intro j _ h
    cases j with
    | zero => cases h
    | succ j =>
      rw [List.nil_append, List.take_succ_cons, List.cons.injEq] at h
      exact hb h.1
  obtain ⟨rxs, hlen, ⟨hchip, hparams, henv⟩, htr, hrx⟩ := swXfer_foldl (s := swSelect s) (f := []) rfl hno
  refine ⟨rxs, { (b :: args).foldl swXfer (swSelect s) with
    chip := ((b :: args).foldl swXfer (swSelect s)).chip.settle }, ?_⟩
  exact {
    block := swTransaction_block _ _
    env := henv
    swTrace := by
      show ((b :: args).foldl swXfer (swSelect s)).swTrace ++ [.cs true] = _
      rw [htr, frameEvents_eq]
      simp
    length := hlen
    answers := hrx
    reacted := swTransaction_chip _ _
    settled := by rw [hchip]; exact Chip.settle_reframe s.chip (some (b :: args))
    params := hparams }

/-- A bus command that is no Read Status, on an idle block. -/
theorem exec_frameSent {s : State} {i : Instr} {b : Byte} {args : List Byte} (hp : s.phase = .idle)
    (hf : encode i = .frame (b :: args)) (hb : b ≠ opRdsr) :
    ∃ t rxs u, exec i s = .next t ∧ FrameSent s (b :: args) rxs u t := by
  obtain ⟨rxs, u, h⟩ := swTransaction_frameSent hb args s
  exact ⟨_, rxs, u, exec_of_frame hp hf, h⟩

/-! ### Write Enable, Read Status, Write Status Register -/

/-- Settles O52. -/
theorem wrenCommand : Obligations.WrenCommand := by
  intro s hp
  obtain ⟨t, rxs, u, hexec, h⟩ := exec_frameSent (i := .wren) hp rfl (by decide)
  obtain ⟨rx, rfl⟩ := List.length_eq_one_iff.1 h.length
  refine ⟨t, rx, hexec, h.swTrace, ?_, h.block, h.env⟩
  have hbusy : u.chip.busy = s.chip.busy := by rw [h.settled]; exact s.chip.settle_busy
  rw [h.reacted, chipReact_wren, Chip.writeEnable, hbusy, h.settled]
  rfl

/-- Settles O55. -/
theorem wrsrCommand : Obligations.WrsrCommand := by
  intro s v hp
  obtain ⟨t, rxs, u, hexec, h⟩ := exec_frameSent (i := .wrsr v) hp rfl (by decide)
  obtain ⟨rx, rx', rfl⟩ := List.length_eq_two.1 h.length
  refine ⟨t, rx, rx', hexec, h.swTrace, ?_⟩
  have hflash : u.chip.flash = s.chip.flash := by rw [h.settled]; exact s.chip.settle_flash
  rw [h.reacted, chipReact_wrsr]
  exact ⟨rfl, rfl, hflash, rfl, h.env, h.block⟩

/-- What a status leaves known of a command executing (log 8). -/
theorem settle_told (c : Chip) (v : Byte) :
    (v.getLsbD 0 = true → (c.tell v).settle.wip = c.wip ∧ (c.tell v).settle.wel = c.wel) ∧
      (v.getLsbD 0 = false → (c.tell v).settle.wip = false ∧ (c.wip = false → (c.tell v).settle.wel = c.wel) ∧
        (c.wip = true → c.wel ≠ .unknown → (c.tell v).settle.wel = .clear)) := by
  refine ⟨fun hv => ?_, fun hv => ?_⟩
  · rw [Chip.settle_tell_busy c hv]
    exact ⟨rfl, rfl⟩
  · obtain ⟨hwip, -, -, hwel⟩ := Chip.settle_tell_ready c hv
    refine ⟨hwip, fun hw => ?_, fun hw hne => ?_⟩
    · rw [hwel, hw]; rfl
    · rw [hwel, hw, if_pos rfl, if_neg hne]

/-- The middle of a Read Status of the software: its opcode is sent. -/
theorem swXfer_rdsr (s : State) :
    ∃ w, swXfer (swSelect s) opRdsr = w ∧ w.chip = { s.chip with frame := some [opRdsr] } ∧ w.env = s.env ∧
      w.swTrace = s.swTrace ++ [.cs false, .xfer opRdsr (Config.freeRx s.draws)] := by
  have e : chipAnswer (swSelect s) = answerFree (swSelect s) := chipAnswer_quiet (.inr (.inl rfl))
  refine ⟨_, rfl, ?_, ?_, ?_⟩
  · rw [swXfer_chip, e]; rfl
  · rw [swXfer_env, e]; rfl
  · rw [swXfer_swTrace, xferRx, e]; simp [answerFree]

/-- Settles O53: the second byte's answer is the status, and the chip settles with it told. -/
theorem rdsrCommand : Obligations.RdsrCommand := by
  intro s tx hp
  obtain ⟨w, hw, hchip, henv, htr⟩ := swXfer_rdsr s
  have hans : chipAnswer w = answerStatus w := chipAnswer_status (by rw [hchip])
  have hsent : swTransaction [opRdsr, tx] s = swDeselect (swXfer w tx) := by rw [← hw]; rfl
  have ht : (swTransaction [opRdsr, tx] s).chip = ((s.chip.tell (statusValue w.env w.draws)).settle).deselect := by
    have hframe : (swXfer w tx).chip = { s.chip.tell (statusValue w.env w.draws) with frame := some [opRdsr, tx] } := by
      rw [swXfer_chip, hans, answerStatus, hchip]; rfl
    rw [hsent, swDeselect_chip, frameEffect, hframe, Option.getD_some, chipReact_rdsr, reactNone_chip,
      Chip.settle_reframe]
    rfl
  obtain ⟨hbusy, hready⟩ := settle_told s.chip (statusValue w.env w.draws)
  refine ⟨_, Config.freeRx s.draws, statusValue w.env w.draws, exec_of_frame hp rfl, ?_, ?_, ht, ?_, ?_, ?_, ?_,
    swTransaction_block _ _⟩
  · rw [hsent, swDeselect_swTrace, swXfer_swTrace, htr, xferRx, hans]
    simp [frameEvents, answerStatus, opRdsr]
  · intro v' vs hs
    rw [henv, statusValue, hs]
  · rw [ht]; exact (s.chip.tell _).settle_flash
  · rw [ht]; exact hbusy
  · rw [ht]; exact hready
  · rw [hsent, swDeselect_env, swXfer_env, hans, ← henv]; rfl

/-! ### Page Program and erase -/

/-- What is the same whether the spec gives a Page Program's effect or not. -/
theorem reactProgram_chip (a : FlashAddr) (ds : List Byte) (s : State) :
    (reactProgram a ds s).chip.wip = true ∧ (reactProgram a ds s).chip.prot = s.chip.prot := by
  unfold reactProgram
  split <;> exact ⟨rfl, rfl⟩

/-- An accepted Page Program below the capacity. -/
theorem reactProgram_accepted {a : FlashAddr} {ds : List Byte} {s : State} (hacc : s.chip.accepts = true)
    (hcap : ∀ j, j < ds.length → (pageTarget a j).toNat < s.params.capacity) :
    reactProgram a ds s = { chip := s.chip.execute (programBytes a 0 ds s.chip.flash), draws := s.draws } := by
  have hbelow : belowCapacity s.params a ds.length = true := by simpa [belowCapacity] using hcap
  exact if_pos (by rw [hacc, hbelow]; rfl)

/-- What is received in a frame has no part in whether a command is accepted. -/
theorem FrameSent.settle_eq {s t u : State} {bytes rxs : List Byte} (h : FrameSent s bytes rxs u t) :
    u.chip.accepts = s.chip.settle.accepts ∧ u.chip.wel = s.chip.settle.wel ∧ u.chip.flash = s.chip.flash ∧
      u.chip.prot = s.chip.prot := by
  rw [h.settled]
  exact ⟨rfl, rfl, s.chip.settle_flash, s.chip.settle_prot⟩

/-- Settles O54. -/
theorem ppCommand : Obligations.PpCommand := by
  intro s a ds hp hne hwf
  obtain ⟨d, ds, rfl⟩ := List.exists_cons_of_ne_nil hne
  obtain ⟨t, rxs, u, hexec, h⟩ := exec_frameSent (i := .pp a (d :: ds)) hp rfl (by decide)
  obtain ⟨hacc, hwel, hflash, hprot⟩ := h.settle_eq
  have hchip : t.chip = (reactProgram a (d :: ds) u).chip.deselect :=
    h.reacted.trans (congrArg (·.chip.deselect) (chipReact_pp a d ds u))
  have hwfu : u.chip.flash.wf = true := by rw [hflash]; exact hwf
  obtain ⟨hwip, hprot'⟩ := reactProgram_chip a (d :: ds) u
  refine ⟨t, rxs, hexec, h.swTrace, ?_, ?_, ?_, ?_, ?_, ?_, ?_, h.env, h.block⟩
  · rw [h.length]; simp; omega
  · rw [hchip]; exact hwip
  · rw [hchip]; exact hprot'.trans hprot
  · rw [hchip]; rfl
  · intro ha hcap
    rw [hchip, reactProgram_accepted (hacc.trans ha) (by rw [h.params]; exact hcap)]
    refine ⟨hwel, fun b => ?_⟩
    rw [landing_eq_landingFrom, ← hflash]
    exact programBytes_read a b _ 0 _ hwfu
  · intro b hb
    rw [hchip, Chip.deselect_flash, reactProgram_read_other _ hwfu hb, hflash]
  · rw [hchip]; exact reactProgram_wf a _ u hwfu

theorem eraseBase_dvd (a : FlashAddr) : (Config.eraseSpan + 1) ∣ eraseBase a := Nat.dvd_sub_mod a.toNat

theorem reactErase_chip (a : FlashAddr) (s : State) :
    (reactErase a s).chip.wip = true ∧ (reactErase a s).chip.prot = s.chip.prot := by
  unfold reactErase
  split <;> exact ⟨rfl, rfl⟩

theorem reactErase_accepted {a : FlashAddr} {s : State} (hacc : s.chip.accepts = true)
    (hcap : a.toNat < s.params.capacity) :
    reactErase a s = { chip := s.chip.execute (eraseBlock a s.chip.flash), draws := s.draws } :=
  if_pos (by simp [hacc, hcap])

/-- Settles O57. -/
theorem seCommand : Obligations.SeCommand := by
  intro s a hp hwf
  obtain ⟨t, rxs, u, hexec, h⟩ := exec_frameSent (i := .se a) hp rfl (by decide)
  obtain ⟨hacc, hwel, hflash, hprot⟩ := h.settle_eq
  have hchip : t.chip = (reactErase a u).chip.deselect :=
    h.reacted.trans (congrArg (·.chip.deselect) (chipReact_se a u))
  have hwfu : u.chip.flash.wf = true := by rw [hflash]; exact hwf
  obtain ⟨hwip, hprot'⟩ := reactErase_chip a u
  obtain ⟨hlo, hhi⟩ := mem_eraseBlock a
  refine ⟨t, rxs, hexec, h.length, h.swTrace, ?_, eraseBase_dvd a, hlo, hhi, ?_, ?_, ?_, ?_, h.env, h.block⟩
  · rw [hchip]; exact hwip
  · intro ha hcap
    rw [hchip, reactErase_accepted (hacc.trans ha) (by rw [h.params]; exact hcap)]
    refine ⟨hwel, eraseRange_read_inside _ a _ _ hwfu hlo hhi, fun b => ⟨fun ⟨hl, hh⟩ => ?_, fun hout => ?_⟩⟩
    · exact eraseRange_read_inside _ b _ _ hwfu hl hh
    · rw [← hflash]
      exact eraseRange_read_other _ b _ _ hwfu hout
  · rw [hchip]; exact hprot'.trans hprot
  · rw [hchip]; rfl
  · rw [hchip]; exact reactErase_wf a u hwfu

theorem reactEraseAll_chip (s : State) :
    (reactEraseAll s).chip.wip = true ∧ (reactEraseAll s).chip.prot = s.chip.prot := by
  unfold reactEraseAll
  split <;> exact ⟨rfl, rfl⟩

/-- Settles O58. -/
theorem ceCommand : Obligations.CeCommand := by
  intro s hp
  obtain ⟨t, rxs, u, hexec, h⟩ := exec_frameSent (i := .ce) hp rfl (by decide)
  obtain ⟨hacc, hwel, -, hprot⟩ := h.settle_eq
  obtain ⟨rx, rfl⟩ := List.length_eq_one_iff.1 h.length
  have hchip : t.chip = (reactEraseAll u).chip.deselect := h.reacted
  obtain ⟨hwip, hprot'⟩ := reactEraseAll_chip u
  refine ⟨t, rx, hexec, h.swTrace, ?_, ?_, ?_, ?_, ?_, h.env, h.block⟩
  · rw [hchip]; exact hwip
  · intro ha
    rw [hchip, reactEraseAll, if_pos (hacc.trans ha)]
    exact ⟨hwel, Memory.blank_read⟩
  · rw [hchip]; exact hprot'.trans hprot
  · rw [hchip]; rfl
  · rw [hchip]; exact reactEraseAll_wf u

/-! ### Read and Read Identification -/

/-- Byte `j` of the three identification bytes (R136). -/
theorem xferRx_rdid {s w : State} {args : List Byte} (h : Received s w (opRdid :: args)) (hlen : args.length < 3) :
    xferRx w = Config.idByte args.length := by
  obtain ⟨hchip, -, -⟩ := h
  have hans : chipAnswer w = answerFixed (Config.idByte args.length) w := by
    simp [chipAnswer, hchip, opRdid, opRdsr, opRead, hlen]
  rw [xferRx, hans]
  rfl

/-- Settles O59. -/
theorem rdidCommand : Obligations.RdidCommand := by
  intro s x y z hp
  obtain ⟨t, rxs, u, hexec, h⟩ := exec_frameSent (i := .rdid x y z) hp rfl (by decide)
  obtain ⟨rx, i0, i1, i2, rfl⟩ : ∃ rx i0 i1 i2, rxs = [rx, i0, i1, i2] := List.length_eq_four.1 h.length
  have hbyte : ∀ {j args v}, j < 4 → [rx, i0, i1, i2][j]? = some v → [opRdid, x, y, z].take j = opRdid :: args →
      args.length < 3 → v = Config.idByte args.length := by
    intro j args v hj hv htake hargs
    obtain ⟨w, hw, hreceived⟩ := h.answers j hj
    rw [htake] at hreceived
    rw [hv] at hw
    cases hw
    exact xferRx_rdid hreceived hargs
  have h0 : i0 = Config.idByte 0 := hbyte (j := 1) (args := []) (by decide) rfl rfl (by decide)
  have h1 : i1 = Config.idByte 1 := hbyte (j := 2) (args := [x]) (by decide) rfl rfl (Nat.lt_of_sub_eq_succ rfl)
  have h2 : i2 = Config.idByte 2 := hbyte (j := 3) (args := [x, y]) (by decide) rfl rfl (Nat.lt_of_sub_eq_succ rfl)
  subst h0 h1 h2
  refine ⟨t, rx, hexec, h.swTrace, ?_, h.env, h.block⟩
  rw [h.reacted, chipReact_rdid, reactNone_chip, h.settled]
  rfl

/-- Data byte `j` of a Read while no command executes and below the capacity is the flash byte (R133). -/
theorem xferRx_read {s w : State} {a : FlashAddr} {ds : List Byte} (h : Received s w (addressedFrame opRead a ds))
    (hready : s.chip.busy = false) (hcap : a.toNat + ds.length < s.params.capacity)
    (hsize : a.toNat + ds.length < flashSize) : xferRx w = s.chip.flash.read (a + BitVec.ofNat 24 ds.length) := by
  obtain ⟨hchip, hparams, -⟩ := h
  have hbusy : w.chip.busy = false := by rw [hchip]; exact hready
  have hflash : w.chip.flash = s.chip.flash := by rw [hchip]
  have hans : chipAnswer w = answerRead a ds.length w := by
    have e := addrOfBytes_bytes a
    simp [chipAnswer, hchip, addressedFrame, opRead, opRdsr, e]
  have haddr : BitVec.ofNat 24 (readTarget a ds.length) = a + BitVec.ofNat 24 ds.length := by
    apply BitVec.eq_of_toNat_eq
    simp [readTarget]
  rw [xferRx, hans, answerRead, if_pos (by simp [hbusy, readTarget, hparams, hcap, hsize]), haddr, hflash]
  rfl

/-- Settles O56: the answers to the opcode and the address are free, and those after them are the data. -/
theorem readCommand : Obligations.ReadCommand := by
  intro s a tx hp
  obtain ⟨t, rxs, u, hexec, h⟩ := exec_frameSent (i := .read a tx) hp rfl (by decide)
  have hlen : rxs.length = 4 + tx.length := by rw [h.length]; simp; omega
  refine ⟨t, rxs.take 4, rxs.drop 4, hexec, by simp [hlen], by simp [hlen], ?_, ?_, ?_, h.env, h.block⟩
  · rw [List.take_append_drop]
    exact h.swTrace
  · intro hready j hj hcap hsize
    obtain ⟨w, hw, hreceived⟩ := h.answers (4 + j) (by simp; omega)
    have htake : (opRead :: addrHigh a :: addrMid a :: addrLow a :: tx).take (4 + j) =
        addressedFrame opRead a (tx.take j) := by
      rw [Nat.add_comm]
      rfl
    rw [htake] at hreceived
    have hj' : (tx.take j).length = j := by simp; omega
    rw [List.getElem?_drop, hw, xferRx_read hreceived hready (by rwa [hj']) (by rwa [hj']), hj']
  · rw [h.reacted]
    show (reactNone u).chip.deselect = _
    rw [reactNone_chip, h.settled]
    rfl

end Sys2Proof.Machine
end

section
/-! SUPPORT. Whole runs of the requests that write no flash byte (spec/40_ready_gate.md, spec/41_write_enable.md): what
a gate leaves however many polls it makes, that times and logs have no part in it, and each request from its acceptance
to its response. -/

namespace Sys2Proof.Machine

/-! ### A request's acceptance and response -/

/-- `s` in the step that takes its first offer, with `rest` still offered. -/
def offerTaken (rest : List Code) (s : State) : State := s.tick.setOffers rest

/-- The step of a calm, idle block runs the request it is offered. -/
theorem step_offerTaken {s : State} {i : Instr} (hc : s.calm) (ho : s.offersRequest i) :
    ∃ rest, step s = exec i (offerTaken rest s) :=
  step_offersRequest hc ho

theorem offerTaken_calm {s : State} (h : s.calm) (rest : List Code) : (offerTaken rest s).calm := tick_calm h

theorem offerTaken_ready {s : State} {i : Instr} (h : s.calm) (ho : s.offersRequest i) (rest : List Code) :
    (offerTaken rest s).reqReady = true :=
  reqReady_of_idle ho.1 (offerTaken_calm h rest).1

theorem offerTaken_statuses (s : State) (rest : List Code) : (offerTaken rest s).env.statuses = s.env.statuses :=
  Env.tick_statuses s.env

theorem run_respondOk {s : State} (hc : s.calm) (hp : s.phase = .busy .respondOk) : Reaches 1 s (respond .ok s.tick) :=
  reaches_one (step_busy_calm hc hp)

/-! ### READ_STATUS (R95) -/

/-- Settles O22: the acceptance, the four events of READ_SR, and the response. -/
theorem readStatusRunsToItsResponse : Obligations.ReadStatusRunsToItsResponse := by
  intro s a len v vs hc ho hs
  obtain ⟨rest, htaken⟩ := step_offerTaken hc ho
  rw [execReadStatus_ready a len (offerTaken_ready hc ho rest)] at htaken
  have hpoll := run_polled (at' := .readStatus) (done := fun _ t => t.goto .respondOk) (fun _ _ => rfl)
    (s := (accept 0x3 (offerTaken rest s)).goto (.readStatus .cs0)) (offerTaken_calm hc rest) rfl
    ((offerTaken_statuses s rest).trans hs)
  have hrun := reaches_add (reaches_add (reaches_one htaken) hpoll) (run_respondOk (offerTaken_calm hc rest) rfl)
  refine ⟨_, Config.freeRx s.draws, hrun, rfl, ?_, rfl, rfl, rfl, ⟨rfl, rfl, rfl, rfl⟩, rfl, Env.tick_statuses _,
    polled_chip_flash v vs s⟩
  rw [respond_trace]
  simp [polled, offerTaken, opRdsr]

/-! ### A gate, whole: what it leaves (R87 to R90, R93) -/

/-- What a gate leaves, whatever it polled before the ready `v`: one poll for each busy status and for `v`, `sr_latch`
the last one, and at the chip what it was told last. -/
structure GateLeaves (v : Byte) (rest : List Byte) (polls : Nat) (s t : State) : Prop where
  chunk : SameChunk s t
  op : t.op = s.op
  params : t.params = s.params
  srLatch : t.srLatch = v
  csN : t.csN = true
  statuses : t.env.statuses = rest
  chip : t.chip = (s.chip.tell v).settle.deselect
  trace : ∃ es, t.trace = s.trace ++ es ∧ es.count (.cs false) = polls ∧ es.count (.cs true) = polls

theorem polled_gateLeaves (v : Byte) (vs : List Byte) (s : State) : GateLeaves v vs 1 s (polled v vs s) :=
  ⟨⟨rfl, rfl, rfl, rfl⟩, rfl, rfl, rfl, rfl, rfl, rfl, _, rfl, by simp, by simp⟩

/-- The events of a time check drive no chip-select. -/
theorem timed_trace (s : State) :
    ∃ es, (timed s).trace = s.trace ++ es ∧ es.count (.cs false) = 0 ∧ es.count (.cs true) = 0 := by
  refine ⟨_, rfl, ?_, ?_⟩ <;> cases s.due <;> simp

/-- A busy status changes nothing but what is known of the chip, and the next status replaces that (R86). -/
theorem tell_after_busy (c : Chip) {b v : Byte} (hb : isBusyStatus b = true) :
    ((c.tell b).settle.deselect.tell v).settle.deselect = (c.tell v).settle.deselect := by
  rw [Chip.settle_tell_busy c hb]
  have e : (c.tell b).deselect.tell v = (c.tell v).deselect := rfl
  rw [e, Chip.deselect_settle]
  rfl

theorem gated_gateLeaves (v : Byte) (rest : List Byte) :
    ∀ (bs : List Byte), (∀ b ∈ bs, isBusyStatus b = true) → ∀ s : State, GateLeaves v rest (bs.length + 1) s
        (gated v rest bs s)
  | [], _, s => polled_gateLeaves v rest s
  | b :: bs, hb, s => by
    have ih := gated_gateLeaves v rest bs (fun x hx => hb x (List.mem_cons_of_mem _ hx))
      (timed (polled b (bs ++ v :: rest) s))
    obtain ⟨es, htr, hlow, hhigh⟩ := ih.trace
    obtain ⟨es', htr', hlow', hhigh'⟩ := timed_trace (polled b (bs ++ v :: rest) s)
    obtain ⟨es'', htr'', hlow'', hhigh''⟩ := (polled_gateLeaves b (bs ++ v :: rest) s).trace
    refine ⟨ih.chunk, ih.op, ih.params, ih.srLatch, ih.csN, ih.statuses,
      ih.chip.trans (tell_after_busy s.chip (hb b List.mem_cons_self)), es'' ++ es' ++ es, ?_, ?_, ?_⟩
    · rw [gated, htr, htr', htr'', List.append_assoc, List.append_assoc, List.append_assoc]
    · simp only [List.count_append, hlow, hlow', hlow'', List.length_cons]
      omega
    · simp only [List.count_append, hhigh, hhigh', hhigh'', List.length_cons]
      omega

theorem gated_calm (v : Byte) (rest : List Byte) : ∀ (bs : List Byte) {s : State}, s.calm → (gated v rest bs s).calm
  | [], _, h => h
  | _ :: bs, _, h => gated_calm v rest bs (timed_calm h)

/-- Settles O23: the acceptance, the gate, and the response; a ready status completes what was executing. -/
theorem waitReadyRunsToItsResponse : Obligations.WaitReadyRunsToItsResponse := by
  intro s a len bs v rest hc ho hs hb hv
  obtain ⟨offers, htaken⟩ := step_offerTaken hc ho
  rw [execWaitReady_ready a len (offerTaken_ready hc ho offers)] at htaken
  obtain ⟨n, hgate⟩ := run_gated .waitReady v rest hv bs hb
    ((accept 0x2 (offerTaken offers s)).goto (.waitReady GatePoint.start)) (offerTaken_calm hc offers) rfl
    ((offerTaken_statuses s offers).trans hs)
  have hleaves := gated_gateLeaves v rest bs hb ((accept 0x2 (offerTaken offers s)).goto (.waitReady GatePoint.start))
  obtain ⟨es, htr, hlow, hhigh⟩ := hleaves.trace
  have hrun := reaches_add (reaches_add (reaches_one htaken) hgate)
    (run_respondOk (gated_calm v rest bs (offerTaken_calm hc offers)) rfl)
  obtain ⟨hwip, -, hflash, hwel⟩ := Chip.settle_tell_ready s.chip hv
  have hchip : (gated v rest bs ((accept 0x2 (offerTaken offers s)).goto (.waitReady GatePoint.start))).chip =
      (s.chip.tell v).settle.deselect := hleaves.chip
  refine ⟨_, _, es, hrun, rfl, ?_, hlow, hhigh, ?_, hleaves.srLatch, hleaves.csN, hleaves.chunk,
    (Env.tick_statuses _).trans hleaves.statuses, ?_, ?_, ?_, ?_, ?_⟩
  · show (gated v rest bs _).trace ++ [.respond .ok (gated v rest bs _).srLatch] = _
    rw [htr, hleaves.srLatch]
    rfl
  · show some (RspCode.ok, (gated v rest bs _).srLatch) = _
    rw [hleaves.srLatch]
  · refine hchip.trans ?_
    rw [Chip.tell, hv]
    rfl
  · exact (congrArg Chip.wip hchip).trans hwip
  · exact (congrArg Chip.flash hchip).trans hflash
  · intro hw
    refine (congrArg Chip.wel hchip).trans (hwel.trans ?_)
    rw [hw]; rfl
  · intro hw hne
    refine (congrArg Chip.wel hchip).trans (hwel.trans ?_)
    rw [hw, if_pos rfl, if_neg hne]

/-! ### A gate while the chip answers busy (R98) -/

/-- The first points of a poll are points of its gate. -/
theorem run_intoPoll (g : GateSite) {s : State} (hc : s.calm) (hp : s.phase = .busy (g.point GatePoint.start)) :
    ∀ n, n ≤ 3 → ∃ t q, Reaches n s t ∧ t.phase = .busy (g.point q) := by
  have hstep : ∀ {s : State} {q : SrPoint} {t : State}, s.calm → s.phase = .busy (g.point (.poll q)) →
      (s.tick.env.pins.abort = false → readSrStep (fun q => g.point (.poll q))
        (fun v t => if isBusyStatus v then t.goto (g.point .now) else g.after t) q s.tick = t) →
      step s = .next t ∧ t.calm := by
    intro s q t hc hp he
    have h : step s = .next t :=
      (step_busy_calm hc hp).trans ((advance_poll g q s.tick).trans (congrArg _ (he (tick_calm hc).2.1)))
    exact ⟨h, calm_of_step hc hp h⟩
  obtain ⟨h1, hc1⟩ := hstep hc hp readSrStep_cs0
  obtain ⟨h2, hc2⟩ := hstep hc1 rfl readSrStep_opcode
  obtain ⟨h3, -⟩ := hstep hc2 rfl readSrStep_data
  intro n hn
  match n, hn with
  | 0, _ => exact ⟨s, _, reaches_zero s, hp⟩
  | 1, _ => exact ⟨_, _, reaches_one h1, rfl⟩
  | 2, _ => exact ⟨_, _, reaches_succ h1 (reaches_one h2), rfl⟩
  | 3, _ => exact ⟨_, _, reaches_succ h1 (reaches_succ h2 (reaches_one h3)), rfl⟩

/-- Past a busy poll a gate takes at least one step to its next poll: `n` more than that are within it if they are
within it from there. -/
theorem run_timeCheck (g : GateSite) {s : State} (hc : s.calm) (hp : s.phase = .busy (g.point .now)) {m : Nat}
    (hnext : ∀ n, n + 1 ≤ m → ∃ t q, Reaches n { timed s with phase := .busy (g.point GatePoint.start) } t ∧
      t.phase = .busy (g.point q)) :
    ∀ n, n ≤ m → ∃ t q, Reaches n s t ∧ t.phase = .busy (g.point q) := by
  intro n hn
  have hrun := run_timed g hc hp
  obtain ⟨u, hu, ⟨v, hv, -⟩ | ⟨-, q', hq'⟩⟩ := gateEndsExactlyWhenReady s g .now hc hp
  · cases hv
  cases hdue : s.due with
  | true =>
    rw [hdue, if_pos rfl] at hrun
    match n, hn with
    | 0, _ => exact ⟨s, _, reaches_zero s, hp⟩
    | 1, _ => exact ⟨u, q', reaches_one hu, hq'⟩
    | n + 2, hn =>
      obtain ⟨t, q, ht, hq⟩ := hnext n (by omega)
      exact ⟨t, q, Nat.add_comm 2 n ▸ reaches_add hrun ht, hq⟩
  | false =>
    rw [hdue, if_neg Bool.false_ne_true] at hrun
    match n, hn with
    | 0, _ => exact ⟨s, _, reaches_zero s, hp⟩
    | n + 1, hn =>
      obtain ⟨t, q, ht, hq⟩ := hnext n (by omega)
      exact ⟨t, q, Nat.add_comm 1 n ▸ reaches_add hrun ht, hq⟩

/-- A gate does not end while the scripted statuses, all busy, last. -/
theorem gate_hangs (g : GateSite) : ∀ (l : List Byte), (∀ b ∈ l, isBusyStatus b = true) → ∀ (s : State) (n : Nat),
    s.calm → s.phase = .busy (g.point GatePoint.start) → s.env.statuses = l → n ≤ 5 * l.length →
    ∃ t q, Reaches n s t ∧ t.phase = .busy (g.point q)
  | [], _, s, n, _, hp, _, hn => by
    obtain rfl : n = 0 := by simpa using hn
    exact ⟨s, _, reaches_zero s, hp⟩
  | b :: l, hb, s, n, hc, hp, hs, hn => by
    by_cases hn3 : n ≤ 3
    · exact run_intoPoll g hc hp n hn3
    · have hb1 : isBusyStatus b = true := hb b List.mem_cons_self
      have hpoll := run_polled (advance_poll g) hc hp hs
      simp only [hb1, if_true] at hpoll
      obtain ⟨m, rfl⟩ := Nat.exists_eq_add_of_le (Nat.lt_of_not_le hn3)
      have hrest := run_timeCheck g
        (s := State.goto { polled b l s with phase := .busy (g.point (.poll (.cs1 b))) }
          (g.point .now)) hc rfl (m := 5 * l.length + 1)
        (fun n hn => gate_hangs g l (fun x hx => hb x (List.mem_cons_of_mem _ hx)) _ n hc rfl rfl (by omega)) m
        (by simp only [List.length_cons] at hn; omega)
      obtain ⟨t, q, ht, hq⟩ := hrest
      exact ⟨t, q, reaches_add hpoll ht, hq⟩

/-- Settles O21. -/
theorem gateHangsWhileBusy : Obligations.GateHangsWhileBusy := fun s g n hc hp hn hb =>
  gate_hangs g s.env.statuses hb s n hc hp rfl hn

/-! ### Times and logs (R93) -/

/-- `s` with another `last_log_ts`, other times to come, and another trace and log strobe behind it. -/
def retimed (last : Time) (times : List Time) (tr : List Event) (po : Ports) (s : State) : State :=
  { s.setTimes last times with trace := tr, ports := po }

theorem busEvents_append (es es' : List Event) : busEvents (es ++ es') = busEvents es ++ busEvents es' :=
  List.filter_append ..

theorem polled_retimed (v : Byte) (vs : List Byte) (last : Time) (times : List Time) (tr : List Event) (po : Ports)
    (s : State) (htr : busEvents tr = busEvents s.trace) :
    ∃ tr', polled v vs (retimed last times tr po s) = retimed last times tr' Ports.quiet (polled v vs s) ∧
      busEvents tr' = busEvents (polled v vs s).trace := by
  refine ⟨_, rfl, ?_⟩
  show busEvents (tr ++ _) = busEvents (s.trace ++ _)
  rw [busEvents_append, busEvents_append, htr]
  rfl

theorem busEvents_timed (s : State) : busEvents (timed s).trace = busEvents s.trace := by
  show busEvents (s.trace ++ _) = _
  rw [busEvents_append]
  cases s.due <;> simp [busEvents]

/-- A time check with a scripted time writes only what `retimed` writes. -/
theorem timed_retimed (last : Time) {times : List Time} (tr : List Event) (po : Ports) {s : State}
    (htr : busEvents tr = busEvents s.trace) (hn : s.env.nows ≠ []) (hn' : times ≠ []) :
    ∃ last' tr' po', timed (retimed last times tr po s) = retimed last' times.tail tr' po' (timed s) ∧
      busEvents tr' = busEvents (timed s).trace := by
  obtain ⟨τ, τs, hn⟩ := List.exists_cons_of_ne_nil hn
  obtain ⟨τ', τs', rfl⟩ := List.exists_cons_of_ne_nil hn'
  refine ⟨(timed (retimed last (τ' :: τs') tr po s)).lastLogTs, (timed (retimed last (τ' :: τs') tr po s)).trace,
    (timed (retimed last (τ' :: τs') tr po s)).ports, ?_, ?_⟩
  · have hd : drawsAfter s.env.nows s.draws = s.draws := by rw [hn]; rfl
    unfold retimed timed
    simp only [hd]
    rfl
  · rw [busEvents_timed, busEvents_timed]
    exact htr

theorem gated_retimed (v : Byte) (rest : List Byte) : ∀ (bs : List Byte) (s : State) (last : Time) (times : List Time)
    (tr : List Event) (po : Ports), busEvents tr = busEvents s.trace → bs.length ≤ s.env.nows.length →
    bs.length ≤ times.length →
    ∃ last' times' tr', gated v rest bs (retimed last times tr po s) =
        { (gated v rest bs s).setTimes last' times' with trace := tr' } ∧
      busEvents tr' = busEvents (gated v rest bs s).trace
  | [], s, last, times, tr, po, htr, _, _ => by
    obtain ⟨tr', e, htr'⟩ := polled_retimed v rest last times tr po s htr
    exact ⟨last, times, tr', e, htr'⟩
  | b :: bs, s, last, times, tr, po, htr, hn, hn' => by
    obtain ⟨tr', e, htr'⟩ := polled_retimed b (bs ++ v :: rest) last times tr po s htr
    obtain ⟨last', tr'', po', e', htr''⟩ := timed_retimed last tr' Ports.quiet (times := times) htr'
      (List.ne_nil_of_length_pos (Nat.lt_of_lt_of_le (Nat.succ_pos _) hn))
      (List.ne_nil_of_length_pos (Nat.lt_of_lt_of_le (Nat.succ_pos _) hn'))
    rw [gated, e, e']
    refine gated_retimed v rest bs _ last' times.tail tr'' po' htr'' ?_ ?_
    · show bs.length ≤ s.env.nows.tail.length
      rw [List.length_tail]
      exact Nat.le_sub_one_of_lt hn
    · rw [List.length_tail]
      exact Nat.le_sub_one_of_lt hn'

/-- What comes after a gate looks at no time. -/
theorem GateSite.after_retimed (g : GateSite) (last : Time) (times : List Time) (tr : List Event) (t : State) :
    g.after { t.setTimes last times with trace := tr } = { (g.after t).setTimes last times with trace := tr } := by
  cases g with
  | chunk3 =>
    simp only [GateSite.after]
    by_cases h : (chunkAdvance t).remaining = 0
    · rw [chunkHead_done h, chunkHead_done (s := chunkAdvance { t.setTimes last times with trace := tr }) h]
      rfl
    · rw [chunkHead_more h, chunkHead_more (s := chunkAdvance { t.setTimes last times with trace := tr }) h]
      rfl
  | _ => rfl

/-- Settles O20: both runs are the gate's, and its state differs only in what `setTimes` and the trace hold. -/
theorem logHasNoEffectOnTheProtocol : Obligations.LogHasNoEffectOnTheProtocol := by
  rintro s s' g bs v rest last times hc hp rfl hs hb hv hn hn'
  obtain ⟨n, hrun⟩ := run_gated g v rest hv bs hb s hc hp hs
  obtain ⟨n', hrun'⟩ := run_gated g v rest hv bs hb (s.setTimes last times) hc hp hs
  obtain ⟨last', times', tr', e, htr⟩ := gated_retimed v rest bs s last times s.trace s.ports rfl hn hn'
  have e' : gated v rest bs (s.setTimes last times) =
      { (gated v rest bs s).setTimes last' times' with trace := tr' } := e
  rw [e', g.after_retimed] at hrun'
  obtain ⟨-, -, hrem, hlen⟩ := (gated_gateLeaves v rest bs hb s).chunk
  refine ⟨n, n', _, _, hrun, hrun', g.after_phase_congr hrem hlen, ?_, rfl⟩
  obtain ⟨⟨-, -, -, htrace, -⟩, -, -⟩ := g.goesOn_after (gated v rest bs s)
  rw [htrace]
  exact htr.symm

/-! ### Write Enable (R100, R103) -/

/-- A Write Enable sets the latch of a chip that is not known to be busy (R40, R104). -/
theorem enabled_wel {s : State} (h : s.chip.busy = false) : (enabled s).chip.wel = .set := by
  show (if s.chip.settle.busy then Latch.unknown else Latch.set) = _
  rw [Chip.settle_busy, h]
  rfl

/-- And that chip has no command executing afterwards. -/
theorem enabled_wip {s : State} (h : s.chip.busy = false) : (enabled s).chip.wip = false := Chip.settle_wip_of_ready h

theorem enabled_flash (s : State) : (enabled s).chip.flash = s.chip.flash := s.chip.settle_flash

/-- Settles O24. -/
theorem writeEnableTransaction : Obligations.WriteEnableTransaction := fun s g hc hp =>
  ⟨_, Config.freeRx s.draws, run_enabled (advance_wren g) hc hp, rfl, rfl, rfl, ⟨rfl, rfl, rfl, rfl⟩, rfl, rfl, rfl,
    enabled_flash s, enabled_wel⟩

theorem enabled_trace_outline (s : State) :
    (enabled s).trace.map Event.outline = s.trace.map Event.outline ++ wrenEvents := by
  simp [enabled, wrenEvents, Event.outline]

/-- A poll of a chip with no command executing leaves the latch. -/
theorem polled_wel {s : State} (v : Byte) (vs : List Byte) (h : s.chip.wip = false) :
    (polled v vs s).chip.wel = s.chip.wel := by
  show (s.chip.tell v).settle.wel = _
  rw [Chip.settle_of_idle (c := s.chip.tell v) h]
  rfl

/-- Settles O25: the acceptance, WREN_TXN, a poll, and the response. -/
theorem writeEnableRunsToItsResponse : Obligations.WriteEnableRunsToItsResponse := by
  intro s a len v vs hc ho hs hv
  obtain ⟨rest, htaken⟩ := step_offerTaken hc ho
  rw [execWriteEnable_ready a len (offerTaken_ready hc ho rest)] at htaken
  have hwren := run_enabled (advance_wren .enable) (s := (accept 0x4 (offerTaken rest s)).goto (.enableWren .cs0))
    (offerTaken_calm hc rest) rfl
  have hpoll := run_readyPoll .enable
    (s := (enabled ((accept 0x4 (offerTaken rest s)).goto (.enableWren .cs0))).goto (.enableGate GatePoint.start))
    (offerTaken_calm hc rest) rfl ((offerTaken_statuses s rest).trans hs) hv
  have hrun := reaches_add (reaches_add (reaches_add (reaches_one htaken) hwren) hpoll)
    (run_respondOk (offerTaken_calm hc rest) rfl)
  refine ⟨_, hrun, rfl, ?_, rfl, rfl, Env.tick_statuses _, ?_, fun hready => ?_⟩
  · show (((polled v vs _).trace ++ [_]).map Event.outline) = _
    rw [List.map_append, polled_trace_outline, State.goto_trace, enabled_trace_outline]
    rfl
  · exact (polled_chip_flash v vs _).trans (enabled_flash _)
  · exact (polled_wel v vs (enabled_wip hready)).trans (enabled_wel hready)

end Sys2Proof.Machine
end

section
/-! SUPPORT. A WRITE, whole, on a chip that answers ready (spec/42_page_write_splitter.md R110 to R127): one chunk from
its Write Enable to the next loop head, the chunks in closed form, and what they leave in the flash. -/

namespace Sys2Proof.Machine

/-- Settles O28: `run_pp` says so of the chip as it had settled. -/
theorem pageProgramReachesTheChip : Obligations.PageProgramReachesTheChip := by
  intro s hc hp hfits
  obtain ⟨ds, d, evs, -, -, hevs, hrun⟩ := run_pp hc hp hfits
  exact ⟨_, ds, { s with draws := d, chip := s.chip.settle }, hrun, by rw [List.map_append, hevs], rfl, rfl, rfl⟩

/-! ### One chunk (R110) -/

/-- The events of a chunk at `cur_addr` from `buf_off` that sends `ds`, all three gates answered ready. -/
def chunkEvents (s : State) (ds : List Byte) : List Event :=
  wrenEvents ++ pollEvents s.params.dummyTx ++ pollEvents s.params.dummyTx ++ ppEvents s.curAddr s.bufOff ds ++
    pollEvents s.params.dummyTx

/-- `t` is the loop head after a chunk that began at `s`, sent `ds`, and was answered `v` last, with `rest` still to
come. -/
structure ChunkRun (s : State) (v : Byte) (rest ds : List Byte) (t : State) : Prop where
  length : ds.length = dataCount s.params s.chunkLen
  bytes : ∀ i v, i < ds.length → s.bufByte? (ppIndex s i) = some v → ds[i]? = some v
  run : Reaches (21 + 2 * ds.length) s t
  pp : ∃ u, Reaches 11 s u ∧ u.phase = .busy (.chunkPp .cs0) ∧ SameChunk s u
  starts : ∀ n u, n < 21 + 2 * ds.length → Reaches n s u → u.phase = .busy (.chunkPp .cs0) → n = 11
  head : ∃ w, SameChunk s w ∧ w.srLatch = v ∧ w.csN = true ∧ t = chunkHead (chunkAdvance w)
  params : t.params = s.params
  lastLogTs : t.lastLogTs = s.lastLogTs
  env : t.env = { s.env with statuses := rest }
  trace : ∃ es, t.trace = s.trace ++ es ∧ es.map Event.outline = chunkEvents s ds
  chip : s.chipIdle → (∀ j, j < ds.length → (pageTarget s.curAddr j).toNat < s.params.capacity) →
    t.chipIdle ∧ t.chip.flash = programBytes s.curAddr 0 ds s.chip.flash

/-- `s` where the Page Program of its chunk begins, two ready polls after the Write Enable. -/
def atPp (v1 v2 : Byte) (rest : List Byte) (s : State) : State :=
  { polled v2 rest (polled v1 (v2 :: rest) (enabled s)) with phase := .busy (.chunkPp .cs0) }

/-- A ready poll leaves the chip ready. -/
theorem polled_ready {v : Byte} (vs : List Byte) (s : State) (hv : isBusyStatus v = false) :
    (polled v vs s).chip.busy = false ∧ (polled v vs s).chip.wip = false ∧ (polled v vs s).chip.prot = s.chip.prot ∧
      (polled v vs s).chip.flash = s.chip.flash := by
  obtain ⟨hwip, hprot, hflash, -⟩ := Chip.settle_tell_ready s.chip hv
  refine ⟨?_, hwip, hprot, hflash⟩
  show (s.chip.tell v).settle.busy = false
  rw [Chip.settle_busy, Chip.tell_busy, hv]

theorem atPp_trace_outline (v1 v2 : Byte) (rest : List Byte) (s : State) :
    (atPp v1 v2 rest s).trace.map Event.outline =
      s.trace.map Event.outline ++ wrenEvents ++ pollEvents s.params.dummyTx ++ pollEvents s.params.dummyTx := by
  show (polled v2 rest (polled v1 (v2 :: rest) (enabled s))).trace.map Event.outline = _
  rw [polled_trace_outline, polled_trace_outline, enabled_trace_outline]
  rfl

/-- On an idle chip the Page Program of a chunk finds the latch set and no command executing. -/
theorem atPp_accepts {s : State} {v1 v2 : Byte} (rest : List Byte) (h : s.chipIdle) (h1 : isBusyStatus v1 = false)
    (h2 : isBusyStatus v2 = false) :
    (atPp v1 v2 rest s).chip.settle.accepts = true ∧ (atPp v1 v2 rest s).chip.flash = s.chip.flash ∧
      (atPp v1 v2 rest s).chip.prot = none := by
  obtain ⟨hbusy, hprot⟩ := h
  obtain ⟨-, hwip1, hprot1, hflash1⟩ := polled_ready (v2 :: rest) (enabled s) h1
  obtain ⟨hbusy2, hwip2, hprot2, hflash2⟩ := polled_ready rest (polled v1 (v2 :: rest) (enabled s)) h2
  have hwel : (polled v2 rest (polled v1 (v2 :: rest) (enabled s))).chip.wel = .set := by
    rw [polled_wel v2 rest hwip1, polled_wel v1 _ (enabled_wip hbusy), enabled_wel hbusy]
  have hprot' : (polled v2 rest (polled v1 (v2 :: rest) (enabled s))).chip.prot = none := by
    rw [hprot2, hprot1]
    exact (Chip.settle_prot s.chip).trans hprot
  refine ⟨?_, hflash2.trans (hflash1.trans (enabled_flash s)), hprot'⟩
  show (polled v2 rest (polled v1 (v2 :: rest) (enabled s))).chip.settle.accepts = true
  rw [Chip.settle_of_idle hwip2, Chip.accepts, hbusy2, hwel, hprot']
  rfl

/-- So the chip programs the data bytes, where the capacity admits them. -/
theorem atPp_reacts {s : State} {v1 v2 : Byte} (rest : List Byte) {ds : List Byte} (d : Nat) (h : s.chipIdle)
    (h1 : isBusyStatus v1 = false) (h2 : isBusyStatus v2 = false)
    (hcap : ∀ j, j < ds.length → (pageTarget s.curAddr j).toNat < s.params.capacity) :
    (reactProgram s.curAddr ds
        { atPp v1 v2 rest s with draws := d, chip := (atPp v1 v2 rest s).chip.settle }).chip.prot = none ∧
      (reactProgram s.curAddr ds
        { atPp v1 v2 rest s with draws := d, chip := (atPp v1 v2 rest s).chip.settle }).chip.flash =
          programBytes s.curAddr 0 ds s.chip.flash := by
  obtain ⟨hacc, hflash, hnone⟩ := atPp_accepts rest h h1 h2
  rw [reactProgram_accepted (s := { atPp v1 v2 rest s with draws := d, chip := (atPp v1 v2 rest s).chip.settle }) hacc
    hcap, ← hflash]
  exact ⟨(Chip.settle_prot _).trans hnone, congrArg (programBytes s.curAddr 0 ds) (Chip.settle_flash _)⟩

/-- The events of a chunk whose Page Program made `evs`, up to the end of its third gate. -/
theorem chunk_trace_outline {s w : State} {v1 v2 : Byte} {rest : List Byte} {ds : List Byte} {evs : List Event}
    (v3 : Byte) (rest' : List Byte) (hw : w.trace = (atPp v1 v2 rest s).trace ++ evs) (hparams : w.params = s.params)
    (hevs : evs.map Event.outline = ppEvents s.curAddr s.bufOff ds) :
    (polled v3 rest' w).trace.map Event.outline = s.trace.map Event.outline ++ chunkEvents s ds := by
  rw [polled_trace_outline, hparams, hw, List.map_append, hevs, atPp_trace_outline]
  simp only [chunkEvents, List.append_assoc]

/-- No step takes back an event. -/
theorem reaches_trace_grows : ∀ {n : Nat} {s t : State}, Reaches n s t → s.trace <+: t.trace
  | 0, s, t, h => by
    cases (show Host.Outcome.next s = Host.Outcome.next t from h)
    exact List.prefix_rfl
  | n + 1, s, t, h => by
    obtain ⟨u, hu, h⟩ := reaches_succ_inv h
    exact (step_strobed hu).trace_grows.trans (reaches_trace_grows h)

/-- In a chunk whose Page Program begins at `u`, after 11 points, and ends at `w`, four points before the chunk does, no
other begins. -/
theorem start_unique {s u w : State} {k : Nat} (hbefore : NoStart 11 s) (hu : Reaches 11 s u) (hc : u.calm)
    (hp : u.phase = .busy (.chunkPp .cs0)) (hfits : chunkFits u.curAddr u.chunkLen = true)
    (hk : k = dataCount u.params u.chunkLen) (hw : Reaches (6 + 2 * k) u w) (hafter : NoStart 4 w) {n : Nat} {x : State}
    (hn : n < 21 + 2 * k) (hx : Reaches n s x) (hpx : x.phase = .busy (.chunkPp .cs0)) : n = 11 := by
  by_cases hlt : n < 11
  · exact absurd hpx (hbefore n x hlt hx)
  obtain ⟨m, rfl⟩ := Nat.exists_eq_add_of_le (Nat.le_of_not_lt hlt)
  cases m with
  | zero => rfl
  | succ m =>
    obtain ⟨y, hy, hyx⟩ := reaches_succ_inv (reaches_split hu hx)
    have hyw : Reaches (5 + 2 * k) y w := reaches_split (n := 1) (reaches_one hy) (by
      rwa [show 1 + (5 + 2 * k) = 6 + 2 * k by omega])
    have hpp : NoStart (5 + 2 * k) y := by
      rw [hk]
      exact noStart_pp hc hp hfits hy
    exact absurd hpx (noStart_add hpp hyw hafter m x (by omega) hyx)

/-- A chunk, whole. -/
theorem run_chunk {s : State} {v1 v2 v3 : Byte} {rest : List Byte} (hc : s.calm)
    (hp : s.phase = .busy (.chunkWren .cs0)) (hok : chunkOk s) (hs : s.env.statuses = v1 :: v2 :: v3 :: rest)
    (h1 : isBusyStatus v1 = false)
    (h2 : isBusyStatus v2 = false) (h3 : isBusyStatus v3 = false) : ∃ ds t, ChunkRun s v3 rest ds t := by
  have hfits : chunkFits (atPp v1 v2 (v3 :: rest) s).curAddr (atPp v1 v2 (v3 :: rest) s).chunkLen = true :=
    chunkOk_fits hok
  have hcp : (atPp v1 v2 (v3 :: rest) s).calm := hc
  have htoPp : Reaches 11 s (atPp v1 v2 (v3 :: rest) s) := run_toPp hc hp hs h1 h2
  obtain ⟨ds, d, evs, hlen, hbytes, hevs, hpp⟩ := run_pp hcp rfl hfits
  generalize hw : State.mk _ _ _ _ _ _ _ _ _ _ _ _ _ _ _ _ = w at hpp
  have hcw : w.calm := by rw [← hw]; exact hc
  have hpw : w.phase = .busy (GateSite.chunk3.point GatePoint.start) := by rw [← hw]; rfl
  have hpoll := run_readyPoll .chunk3 hcw hpw (v := v3) (vs := rest) (by rw [← hw]; rfl) h3
  have hrun : Reaches (21 + 2 * ds.length) s (chunkHead (chunkAdvance (polled v3 rest w))) := by
    have h := reaches_add (reaches_add htoPp hpp) hpoll
    rwa [show 11 + (6 + 2 * ds.length) + 4 = 21 + 2 * ds.length by omega] at h
  obtain ⟨es, hes⟩ := reaches_trace_grows hrun
  have houtline := chunk_trace_outline (s := s) (w := w) (v1 := v1) (v2 := v2) (rest := v3 :: rest) v3 rest
    (by rw [← hw]) (by rw [← hw]; rfl) hevs
  obtain ⟨hbusy, -, hprot, hflash⟩ := polled_ready rest w h3
  refine ⟨ds, chunkHead (chunkAdvance (polled v3 rest w)), ?_⟩
  exact {
    length := hlen
    bytes := hbytes
    run := hrun
    pp := ⟨_, htoPp, rfl, rfl, rfl, rfl, rfl⟩
    starts := fun n x =>
      start_unique (noStart_toPp hc hp hs h1) htoPp hcp rfl hfits hlen hpp (noStart_poll .chunk3 hcw hpw)
    head := ⟨polled v3 rest w, by rw [← hw]; exact ⟨rfl, rfl, rfl, rfl⟩, rfl, rfl, rfl⟩
    params := by rw [chunkHead_params, ← hw]; rfl
    lastLogTs := by rw [chunkHead_lastLogTs, ← hw]; rfl
    env := by rw [chunkHead_env, ← hw]; rfl
    trace := by
      rw [chunkHead_trace] at hes
      refine ⟨es, (chunkHead_trace _).trans hes.symm, ?_⟩
      rw [← List.append_cancel_left_eq (s.trace.map Event.outline), ← List.map_append, hes]
      exact houtline
    chip := by
      intro hidle hcap
      obtain ⟨hnone, hprogrammed⟩ := atPp_reacts (v3 :: rest) d hidle h1 h2 hcap
      have hwchip : w.chip = (reactProgram s.curAddr ds { atPp v1 v2 (v3 :: rest) s with
          draws := d, chip := (atPp v1 v2 (v3 :: rest) s).chip.settle }).chip.deselect := by rw [← hw]; rfl
      have hprot' : w.chip.prot = none := by rw [hwchip]; exact hnone
      have hflash' : w.chip.flash = programBytes s.curAddr 0 ds s.chip.flash := by rw [hwchip]; exact hprogrammed
      unfold State.chipIdle
      rw [chunkHead_chip]
      exact ⟨⟨hbusy, hprot.trans hprot'⟩, hflash.trans hflash'⟩ }

/-- Settles O31: `run_chunk`, and the loop head that follows. -/
theorem chunkSequence : Obligations.ChunkSequence := by
  intro s v1 v2 v3 rest hc hp hok hs h1 h2 h3
  obtain ⟨ds, t, h⟩ := run_chunk hc hp hok hs h1 h2 h3
  obtain ⟨w, ⟨ha, -, -, hl⟩, hsr, -, hhead⟩ := h.head
  obtain ⟨es, htr, hes⟩ := h.trace
  refine ⟨t, ds, h.run, h.length, ?_, by rw [h.env], ?_, h.lastLogTs, ?_, ?_⟩
  · rw [htr, List.map_append, hes]
    simp only [chunkEvents, List.append_assoc]
  · rw [hhead, chunkHead_srLatch]
    exact hsr
  · rw [hhead, chunkHead_curAddr, chunkAdvance_curAddr, ha, hl]
  · rw [hhead, chunkHead_phase]
    split
    · exact .inl rfl
    · exact .inr rfl

/-! ### The chunks in closed form (R118) -/

/-- How many bytes the first `k` chunks send: what the pages up to there hold, at most `len`. -/
def progress (a : FlashAddr) (len : Count) (k : Nat) : Nat := min len.toNat (256 * k - (pageOffset a).toNat)

theorem len_pos {len : Count} (h : len ≠ 0) : 0 < len.toNat :=
  Nat.pos_of_ne_zero fun e => h (BitVec.eq_of_toNat_eq e)

theorem progress_zero (a : FlashAddr) (len : Count) : progress a len 0 = 0 := by simp [progress]

theorem progress_le (a : FlashAddr) (len : Count) (k : Nat) : progress a len k ≤ len.toNat := Nat.min_le_left _ _

theorem progress_lt {a : FlashAddr} {len : Count} {k : Nat} (hpos : 0 < len.toNat) (h : k < chunkCount a len) :
    progress a len k < len.toNat := by
  have hf := (pageOffset a).isLt
  unfold chunkCount at h
  unfold progress
  omega

theorem progress_chunkCount (a : FlashAddr) (len : Count) : progress a len (chunkCount a len) = len.toNat := by
  unfold progress chunkCount
  omega

/-- The first `k` chunks, `k` at least 1 and not all, end with their page. -/
theorem progress_of_pos {a : FlashAddr} {len : Count} {k : Nat} (hk : 0 < k) (h : k < chunkCount a len) :
    progress a len k = 256 * k - (pageOffset a).toNat := by
  unfold chunkCount at h
  unfold progress
  omega

theorem chunkOff_eq_progress {a : FlashAddr} {len : Count} {k : Nat} (h : k < chunkCount a len) :
    chunkOff a len k = progress a len k := by
  have hf := (pageOffset a).isLt
  unfold chunkCount at h
  unfold chunkOff firstLen progress
  split <;> omega

theorem chunkSize_eq_progress {a : FlashAddr} {len : Count} {k : Nat} (h : k < chunkCount a len) :
    chunkSize a len k = progress a len (k + 1) - progress a len k := by
  have hf := (pageOffset a).isLt
  unfold chunkCount at h
  unfold chunkSize firstLen progress
  split <;> omega

theorem chunkAddr_eq_progress {a : FlashAddr} {len : Count} {k : Nat} (h : k < chunkCount a len) :
    chunkAddr a k = a + BitVec.ofNat 24 (progress a len k) := by
  have hf := pageOffset_toNat a
  unfold chunkAddr
  split
  · rename_i hk
    rw [hk, progress_zero]
    exact (BitVec.add_zero a).symm
  · rename_i hk
    rw [progress_of_pos (Nat.pos_of_ne_zero hk) h]
    apply BitVec.eq_of_toNat_eq
    simp only [BitVec.toNat_add, BitVec.toNat_ofNat]
    omega

/-- R109's length at the address the first `k` chunks lead to is that of chunk `k`. -/
theorem chunkLenFor_progress {a : FlashAddr} {len : Count} {k : Nat} (h : k < chunkCount a len) {c : FlashAddr}
    (hc : c = a + BitVec.ofNat 24 (progress a len k)) {r : Count} (hr : r.toNat = len.toNat - progress a len k) :
    (chunkLenFor r c).toNat = progress a len (k + 1) - progress a len k := by
  have hf := pageOffset_toNat a
  have hcNat : c.toNat % 256 = (a.toNat + progress a len k) % 256 := by
    rw [hc, BitVec.toNat_add, BitVec.toNat_ofNat]
    omega
  rw [chunkLenFor_toNat, pageOffset_toNat, hcNat, hr]
  rcases Nat.eq_zero_or_pos k with rfl | hk
  · rw [progress_zero]
    unfold progress
    omega
  · rw [progress_of_pos hk h]
    unfold chunkCount at h
    unfold progress
    omega

theorem progress_mono (a : FlashAddr) (len : Count) (k : Nat) : progress a len k ≤ progress a len (k + 1) := by
  unfold progress
  omega

/-! ### The loop of a WRITE (R107, R115) -/

/-- `w` is the state before the loop head after the first `k` chunks of the WRITE `a`, `len` that `s` was offered, `len`
not 0, with ready statuses for the others and then `rest`. -/
structure WriteHead (s : State) (a : FlashAddr) (len : Count) (rest : List Byte) (k : Nat) (w : State) : Prop where
  pos : 0 < len.toNat
  calm : w.calm
  curAddr : w.curAddr = a + BitVec.ofNat 24 (progress a len k)
  bufOff : w.bufOff.toNat = progress a len k
  remaining : w.remaining.toNat = len.toNat - progress a len k
  ready : isBusyStatus w.srLatch = false
  csN : 0 < k → w.csN = true
  lastLogTs : w.lastLogTs = s.lastLogTs
  params : w.params = s.params
  statuses : w.readyFor (3 * (chunkCount a len - k)) rest
  buf : w.env.buf = s.env.bufs.headD []
  bufs : w.env.bufs = s.env.bufs.tail

section
variable {s w : State} {a : FlashAddr} {len : Count} {rest : List Byte} {k : Nat}

theorem WriteHead.remaining_ne (h : WriteHead s a len rest k w) (hk : k < chunkCount a len) : w.remaining ≠ 0 := by
  intro e
  have hrem := h.remaining
  have hlt := progress_lt h.pos hk
  have hzero : w.remaining.toNat = 0 := congrArg BitVec.toNat e
  omega

theorem WriteHead.remaining_eq (h : WriteHead s a len rest (chunkCount a len) w) : w.remaining = 0 := by
  apply BitVec.eq_of_toNat_eq
  rw [h.remaining, progress_chunkCount, Nat.sub_self]
  rfl

/-- `buf_off + remaining` is the request length at every loop head (R122). -/
theorem WriteHead.bufLimit_eq (h : WriteHead s a len rest k w) : w.bufOff.toNat + w.remaining.toNat = len.toNat := by
  have hle := progress_le a len k
  rw [h.bufOff, h.remaining]
  omega

theorem WriteHead.chunkOk (h : WriteHead s a len rest k w) (hk : k < chunkCount a len) : chunkOk (chunkHead w) :=
  chunkOk_chunkHead (h.remaining_ne hk) (h.bufLimit_eq ▸ len.isLt)

theorem WriteHead.phase (h : WriteHead s a len rest k w) (hk : k < chunkCount a len) :
    (chunkHead w).phase = .busy (.chunkWren .cs0) :=
  (chunkHead_phase w).trans (if_neg (h.remaining_ne hk))

theorem WriteHead.chunkLen (h : WriteHead s a len rest k w) (hk : k < chunkCount a len) :
    (chunkHead w).chunkLen.toNat = progress a len (k + 1) - progress a len k := by
  rw [chunkHead_chunkLen, if_neg (h.remaining_ne hk)]
  exact chunkLenFor_progress hk h.curAddr h.remaining

/-- Where a chunk leads: the loop head after one chunk more. -/
theorem ChunkRun.writeHead {v : Byte} {rest' ds : List Byte} {t : State} (hw : WriteHead s a len rest k w)
    (hk : k < chunkCount a len) (hrun : ChunkRun (chunkHead w) v rest' ds t) (hv : isBusyStatus v = false)
    (hs : ∃ vs, rest' = vs ++ rest ∧ vs.length = 3 * (chunkCount a len - (k + 1)) ∧ ∀ v ∈ vs, isBusyStatus v = false) :
    ∃ w', t = chunkHead w' ∧ WriteHead s a len rest (k + 1) w' := by
  obtain ⟨u, hsame, hsr, hcs, rfl⟩ := hrun.head
  have hok : Machine.chunkOk u := chunkOk_congr hsame (hw.chunkOk hk)
  obtain ⟨ha, hb, hr, hl⟩ := hsame
  have henv := hrun.env
  have hparams := hrun.params
  have hts := hrun.lastLogTs
  rw [chunkHead_env, chunkHead_env] at henv
  rw [chunkHead_params, chunkHead_params] at hparams
  rw [chunkHead_lastLogTs, chunkHead_lastLogTs] at hts
  have hlen : u.chunkLen.toNat = progress a len (k + 1) - progress a len k := by rw [hl]; exact hw.chunkLen hk
  have hmono := progress_mono a len k
  refine ⟨chunkAdvance u, rfl, ?_⟩
  exact {
    pos := hw.pos
    calm := by
      unfold State.calm
      rw [henv]
      exact hw.calm
    curAddr := by
      have hadd : u.chunkLen.setWidth 24 = BitVec.ofNat 24 (progress a len (k + 1) - progress a len k) := by
        rw [← hlen, BitVec.ofNat_toNat]
      rw [chunkAdvance_curAddr, ha, chunkHead_curAddr, hw.curAddr, hadd, BitVec.add_assoc, ← BitVec.ofNat_add,
        Nat.add_sub_cancel' hmono]
    bufOff := by
      rw [chunkAdvance_bufOff_toNat (chunkOk_bufOff_lt hok), hlen, hb, chunkHead_bufOff, hw.bufOff]
      omega
    remaining := by
      rw [chunkAdvance_remaining_toNat (chunkOk_len_le hok), hlen, hr, chunkHead_remaining, hw.remaining]
      omega
    ready := by
      rw [chunkAdvance_srLatch, hsr]
      exact hv
    csN := fun _ => hcs
    lastLogTs := hts.trans hw.lastLogTs
    params := hparams.trans hw.params
    statuses := by
      obtain ⟨vs, hvs, hvs'⟩ := hs
      exact ⟨vs, by rw [henv]; exact hvs, hvs'⟩
    buf := by rw [henv]; exact hw.buf
    bufs := by rw [henv]; exact hw.bufs }

/-- A chunk leads from one loop head to the next. -/
theorem WriteHead.next (h : WriteHead s a len rest k w) (hk : k < chunkCount a len) :
    ∃ v rest' ds w', ChunkRun (chunkHead w) v rest' ds (chunkHead w') ∧ WriteHead s a len rest (k + 1) w' := by
  have hcalm : (chunkHead w).calm := by
    unfold State.calm
    rw [chunkHead_env]
    exact h.calm
  obtain ⟨vs, hvs, hlen, hready⟩ := h.statuses
  rw [show 3 * (chunkCount a len - k) = 3 * (chunkCount a len - (k + 1)) + 1 + 1 + 1 by omega] at hlen
  obtain ⟨v1, vs, rfl⟩ := List.exists_of_length_succ vs hlen
  obtain ⟨v2, vs, rfl⟩ := List.exists_of_length_succ vs (Nat.succ.inj hlen)
  obtain ⟨v3, vs, rfl⟩ := List.exists_of_length_succ vs (Nat.succ.inj (Nat.succ.inj hlen))
  have h3 : isBusyStatus v3 = false := hready v3 (by simp)
  obtain ⟨ds, t, hrun⟩ := run_chunk (v1 := v1) (v2 := v2) (v3 := v3) (rest := vs ++ rest) hcalm (h.phase hk)
    (h.chunkOk hk) (by rw [chunkHead_env, hvs]; rfl) (hready v1 (by simp)) (hready v2 (by simp)) h3
  obtain ⟨w', rfl, hw'⟩ := hrun.writeHead h hk h3
    ⟨vs, rfl, by simpa using hlen, fun v hv => hready v (by simp [hv])⟩
  exact ⟨v3, vs ++ rest, ds, w', hrun, hw'⟩

end

/-- `s` with the WRITE taken and the loop head still to come (R108). -/
def writeTaken (a : FlashAddr) (len : Count) (offers : List Code) (s : State) : State :=
  { accept 0x1 (offerTaken offers s) with
    curAddr := a
    bufOff := 0
    remaining := len
    env := (offerTaken offers s).env.takeBuffer }

theorem step_writeTaken {s : State} {a : FlashAddr} {len : Count} (hc : s.calm) (ho : s.offersRequest (.write a len)) :
    ∃ offers, step s = .next (chunkHead (writeTaken a len offers s)) := by
  obtain ⟨offers, htaken⟩ := step_offerTaken hc ho
  exact ⟨offers, htaken.trans (execWrite_ready a len (offerTaken_ready hc ho offers))⟩

theorem writeTaken_head {s : State} {a : FlashAddr} {len : Count} {rest : List Byte} (hc : s.calm)
    (hpos : 0 < len.toNat) (hs : s.readyFor (3 * chunkCount a len) rest) (offers : List Code) :
    WriteHead s a len rest 0 (writeTaken a len offers s) where
  pos := hpos
  calm := offerTaken_calm hc offers
  curAddr := by rw [progress_zero]; exact (BitVec.add_zero a).symm
  bufOff := by rw [progress_zero]; rfl
  remaining := by rw [progress_zero]; rfl
  ready := show isBusyStatus 0x00 = false by decide
  csN h := absurd h (Nat.lt_irrefl 0)
  lastLogTs := rfl
  params := rfl
  statuses := by
    obtain ⟨vs, hvs, hlen, hready⟩ := hs
    exact ⟨vs, (offerTaken_statuses s offers).trans hvs, hlen, hready⟩
  buf := congrArg (fun l => l.headD []) (Env.tick_bufs s.env)
  bufs := congrArg List.tail (Env.tick_bufs s.env)

/-- The extra data byte of a Page Program with LEGACY_INCLUSIVE_XFER (R113). -/
def extraByte (params : Params) : Nat := if params.legacyXfer then 1 else 0

/-- The steps of a WRITE up to the loop head after `k` chunks: the acceptance, 21 events a chunk, and two a data byte.
-/
def stepsBefore (params : Params) (a : FlashAddr) (len : Count) (k : Nat) : Nat :=
  1 + (21 + 2 * extraByte params) * k + 2 * progress a len k

theorem stepsBefore_zero (params : Params) (a : FlashAddr) (len : Count) : stepsBefore params a len 0 = 1 := by
  simp [stepsBefore, progress_zero]

section
variable {s w w' : State} {a : FlashAddr} {len : Count} {rest rest' ds : List Byte} {v : Byte} {k : Nat}

theorem ChunkRun.length_eq (h : WriteHead s a len rest k w) (hk : k < chunkCount a len)
    (hrun : ChunkRun (chunkHead w) v rest' ds (chunkHead w')) :
    ds.length = progress a len (k + 1) - progress a len k + extraByte s.params := by
  rw [hrun.length, dataCount, h.chunkLen hk, chunkHead_params, h.params]
  rfl

/-- A conforming block sends exactly the chunk (R112). -/
theorem ChunkRun.length_eq_of_conforming (h : WriteHead s a len rest k w) (hk : k < chunkCount a len)
    (hrun : ChunkRun (chunkHead w) v rest' ds (chunkHead w')) (hlegacy : s.params.legacyXfer = false) :
    ds.length = progress a len (k + 1) - progress a len k := by
  rw [hrun.length_eq h hk, extraByte, hlegacy]
  rfl

theorem ChunkRun.stepsBefore_succ (h : WriteHead s a len rest k w) (hk : k < chunkCount a len)
    (hrun : ChunkRun (chunkHead w) v rest' ds (chunkHead w')) :
    stepsBefore s.params a len (k + 1) = stepsBefore s.params a len k + (21 + 2 * ds.length) := by
  have hmono := progress_mono a len k
  rw [hrun.length_eq h hk, stepsBefore, stepsBefore, Nat.mul_succ]
  omega

/-- What holds at the first loop head and is kept by every chunk holds at each of the loop heads of a WRITE. -/
theorem write_induction (P : Nat → State → Prop) (hc : s.calm) (ho : s.offersRequest (.write a len))
    (hpos : 0 < len.toNat) (hs : s.readyFor (3 * chunkCount a len) rest)
    (hzero : ∀ offers, P 0 (writeTaken a len offers s))
    (hnext : ∀ k w v rest' ds w', k < chunkCount a len → WriteHead s a len rest k w →
      Reaches (stepsBefore s.params a len k) s (chunkHead w) → ChunkRun (chunkHead w) v rest' ds (chunkHead w') →
      WriteHead s a len rest (k + 1) w' → P k w → P (k + 1) w') :
    ∀ k, k ≤ chunkCount a len →
      ∃ w, WriteHead s a len rest k w ∧ Reaches (stepsBefore s.params a len k) s (chunkHead w) ∧ P k w := by
  intro k
  induction k with
  | zero =>
    intro _
    obtain ⟨offers, hstep⟩ := step_writeTaken hc ho
    refine ⟨_, writeTaken_head hc hpos hs offers, ?_, hzero offers⟩
    rw [stepsBefore_zero]
    exact reaches_one hstep
  | succ k ih =>
    intro hk
    obtain ⟨w, hw, hreach, hP⟩ := ih (Nat.le_of_succ_le hk)
    obtain ⟨v, rest', ds, w', hrun, hw'⟩ := hw.next hk
    refine ⟨w', hw', ?_, hnext k w v rest' ds w' hk hw hreach hrun hw' hP⟩
    rw [hrun.stepsBefore_succ hw hk]
    exact reaches_add hreach hrun.run

end

/-! ### The Page Programs of a WRITE (R118) -/

/-- Before step `n` of the run from `s`, Page Programs begin only 11 steps after the loop heads of the first `k` chunks.
-/
def StartsAt (s : State) (a : FlashAddr) (len : Count) (k : Nat) : Prop :=
  ∀ n t, n < stepsBefore s.params a len k → Reaches n s t → t.phase = .busy (.chunkPp .cs0) →
    ∃ j, j < k ∧ n = stepsBefore s.params a len j + 11

theorem startsAt_zero {s : State} (hp : s.phase = .idle) (a : FlashAddr) (len : Count) : StartsAt s a len 0 := by
  intro n t hn ht hpt
  rw [stepsBefore_zero] at hn
  obtain rfl : n = 0 := by omega
  cases (show Host.Outcome.next s = Host.Outcome.next t from ht)
  rw [hp] at hpt
  cases hpt

/-- The steps of the closed form are those of the loop. -/
theorem stepsBefore_eq {s : State} {a : FlashAddr} {len : Count} {extra k : Nat} (hextra : extra = extraByte s.params)
    (hk : k < chunkCount a len) :
    stepsBefore s.params a len k = 1 + (21 + 2 * extra) * k + 2 * chunkOff a len k := by
  rw [stepsBefore, chunkOff_eq_progress hk, hextra]

theorem stepsBefore_chunkCount {s : State} {a : FlashAddr} {len : Count} {extra : Nat}
    (hextra : extra = extraByte s.params) :
    stepsBefore s.params a len (chunkCount a len) = 1 + (21 + 2 * extra) * chunkCount a len + 2 * len.toNat := by
  rw [stepsBefore, progress_chunkCount, hextra]

/-- Settles O32: between two loop heads one Page Program begins, 11 steps after the first. -/
theorem chunkListInClosedForm : Obligations.ChunkListInClosedForm := by
  intro s a len rest extra hc ho hne hextra hs
  have hheads := write_induction (fun k _ => StartsAt s a len k) hc ho (len_pos hne) hs
    (fun _ => startsAt_zero ho.1 a len) (by
    intro k w v rest' ds w' hk hw hreach hrun _ hstarts n t hn ht hp
    by_cases hlt : n < stepsBefore s.params a len k
    · obtain ⟨j, hj, hn⟩ := hstarts n t hlt ht hp
      exact ⟨j, Nat.lt_succ_of_lt hj, hn⟩
    · obtain ⟨m, rfl⟩ := Nat.exists_eq_add_of_le (Nat.le_of_not_lt hlt)
      rw [hrun.stepsBefore_succ hw hk] at hn
      have hm := hrun.starts m t (by omega) (reaches_split hreach ht) hp
      exact ⟨k, Nat.lt_succ_self k, by rw [hm]⟩)
  refine ⟨fun k hk => ?_, ?_, fun n t hn ht hp => ?_⟩
  · obtain ⟨w, hw, hreach, -⟩ := hheads k (Nat.le_of_lt hk)
    obtain ⟨v, rest', ds, w', hrun, -⟩ := hw.next hk
    obtain ⟨u, hu, hpu, ha, hb, -, hl⟩ := hrun.pp
    refine ⟨u, ?_, hpu, ?_, ?_, ?_⟩
    · rw [← stepsBefore_eq hextra hk]
      exact reaches_add hreach hu
    · rw [ha, chunkHead_curAddr, hw.curAddr, chunkAddr_eq_progress hk]
    · rw [hb, chunkHead_bufOff, hw.bufOff, chunkOff_eq_progress hk]
    · rw [hl, hw.chunkLen hk, chunkSize_eq_progress hk]
  · obtain ⟨w, hw, hreach, -⟩ := hheads _ (Nat.le_refl _)
    rw [stepsBefore_chunkCount hextra] at hreach
    exact ⟨_, hreach, (chunkHead_phase w).trans (if_pos hw.remaining_eq)⟩
  · obtain ⟨w, hw, hreach, hstarts⟩ := hheads _ (Nat.le_refl _)
    rw [← stepsBefore_chunkCount hextra] at hn
    obtain hlt | rfl := Nat.lt_or_eq_of_le hn
    · obtain ⟨j, hj, hn⟩ := hstarts n t hlt ht hp
      exact ⟨j, hj, by rw [hn, stepsBefore_eq hextra hj]⟩
    · rw [reaches_unique ht hreach, chunkHead_phase, if_pos hw.remaining_eq] at hp
      cases hp

/-! ### The events of a WRITE (R122, R127) -/

theorem bufIndices_append (es es' : List Event) : bufIndices (es ++ es') = bufIndices es ++ bufIndices es' :=
  List.filterMap_append ..

/-- The received bytes have no part in which buffer indices are read. -/
theorem bufIndices_outline (es : List Event) : bufIndices (es.map Event.outline) = bufIndices es := by
  unfold bufIndices
  rw [List.filterMap_map]
  congr 1
  funext e
  cases e <;> rfl

theorem bufIndices_dataEvents : ∀ (ds : List Byte) (i : Count), i.toNat + ds.length ≤ 2 ^ 32 →
    bufIndices (dataEvents i ds) = List.range' i.toNat ds.length
  | [], _, _ => rfl
  | d :: ds, i, h => by
    show i.toNat :: bufIndices (dataEvents (i + 1) ds) = _
    rw [List.length_cons, List.range'_succ]
    cases ds with
    | nil => rfl
    | cons d' ds =>
      have hi : (i + 1).toNat = i.toNat + 1 := by
        simp only [List.length_cons] at h
        rw [BitVec.toNat_add]
        show (i.toNat + 1) % 2 ^ 32 = _
        omega
      rw [bufIndices_dataEvents (d' :: ds) (i + 1) (by simp only [List.length_cons] at h ⊢; omega), hi]

theorem dataEvents_length : ∀ (ds : List Byte) (i : Count), (dataEvents i ds).length = 2 * ds.length
  | [], _ => rfl
  | d :: ds, i => by
    simp only [dataEvents, List.length_cons, dataEvents_length ds (i + 1)]
    omega

/-- A chunk has 21 events and two for each data byte (R127). -/
theorem chunkEvents_length (s : State) (ds : List Byte) : (chunkEvents s ds).length = 21 + 2 * ds.length := by
  simp only [chunkEvents, wrenEvents, pollEvents, ppEvents, List.length_append, List.length_cons, List.length_nil,
    dataEvents_length]
  omega

/-- A chunk reads the buffer in its data phase only. -/
theorem bufIndices_chunkEvents (s : State) (ds : List Byte) :
    bufIndices (chunkEvents s ds) = bufIndices (dataEvents s.bufOff ds) := by
  simp only [chunkEvents, ppEvents, bufIndices_append]
  simp [bufIndices, wrenEvents, pollEvents]

/-- The events of the first `k` chunks of a WRITE, `es`: their number, and the buffer indices they read. -/
def EventsUpTo (s : State) (a : FlashAddr) (len : Count) (k : Nat) (w : State) : Prop :=
  ∃ es, (chunkHead w).trace = s.trace ++ es ∧ 1 + es.length = stepsBefore s.params a len k ∧
    (s.params.legacyXfer = false → bufIndices es = List.range (progress a len k))

theorem ChunkRun.eventsUpTo {s w w' : State} {a : FlashAddr} {len : Count} {rest rest' ds : List Byte} {v : Byte}
    {k : Nat} (hk : k < chunkCount a len) (hw : WriteHead s a len rest k w)
    (hrun : ChunkRun (chunkHead w) v rest' ds (chunkHead w')) (h : EventsUpTo s a len k w) :
    EventsUpTo s a len (k + 1) w' := by
  obtain ⟨es, htr, hlen, hidx⟩ := h
  obtain ⟨es', htr', hes'⟩ := hrun.trace
  have hlen' : es'.length = 21 + 2 * ds.length := by
    rw [← chunkEvents_length (chunkHead w), ← hes', List.length_map]
  refine ⟨es ++ es', by rw [htr', htr, List.append_assoc], ?_, fun hlegacy => ?_⟩
  · rw [hrun.stepsBefore_succ hw hk, List.length_append, hlen']
    omega
  · have hds := hrun.length_eq_of_conforming hw hk hlegacy
    have hoff : (chunkHead w).bufOff.toNat = progress a len k := by rw [chunkHead_bufOff, hw.bufOff]
    have hmono := progress_mono a len k
    have hle := progress_le a len (k + 1)
    have hlt := len.isLt
    rw [bufIndices_append, hidx hlegacy, ← bufIndices_outline es', hes', bufIndices_chunkEvents,
      bufIndices_dataEvents ds _ (by rw [hoff, hds]; omega), hoff, hds, List.range_eq_range', List.range_eq_range']
    rw [show List.range' (progress a len k) (progress a len (k + 1) - progress a len k) =
      List.range' (0 + 1 * progress a len k) (progress a len (k + 1) - progress a len k) by simp, List.range'_append,
      Nat.add_sub_cancel' hmono]

/-- Settles O33: the events of all chunks, and the response. -/
theorem writeRunsToItsResponse : Obligations.WriteRunsToItsResponse := by
  intro s a len rest extra hc ho hne hextra hs
  have hpos : 0 < chunkCount a len := by
    have hlen := len_pos hne
    unfold chunkCount
    omega
  obtain ⟨w, hw, hreach, es, htr, hlen, hidx⟩ := write_induction (EventsUpTo s a len) hc ho (len_pos hne) hs
    (fun offers => ⟨[], by rw [chunkHead_trace, List.append_nil]; rfl, by rw [stepsBefore_zero]; rfl,
      fun _ => by rw [progress_zero]; rfl⟩)
    (fun _ _ _ _ _ _ hk hw _ hrun _ h => hrun.eventsUpTo hk hw h) _ (Nat.le_refl _)
  rw [stepsBefore_chunkCount hextra] at hreach hlen
  have hcalm : (chunkHead w).calm := by
    unfold State.calm
    rw [chunkHead_env]
    exact hw.calm
  have hrun := reaches_add hreach (run_respondOk hcalm ((chunkHead_phase w).trans (if_pos hw.remaining_eq)))
  rw [show 1 + (21 + 2 * extra) * chunkCount a len + 2 * len.toNat + 1 =
    2 + (21 + 2 * extra) * chunkCount a len + 2 * len.toNat by omega] at hrun
  obtain ⟨vs, hvs, hvs0, -⟩ := hw.statuses
  refine ⟨_, es, w.srLatch, hrun, rfl, ?_, by omega, fun hl => ?_, hw.ready, ?_, ?_, ?_, ?_, ?_, ?_, ?_⟩
  · rw [respond_trace, State.tick_trace, State.tick_srLatch, htr, chunkHead_srLatch]
  · rw [hidx hl, progress_chunkCount]
  · rw [respond_ports, State.tick_srLatch, chunkHead_srLatch]
  · rw [respond_curAddr, State.tick_curAddr, chunkHead_curAddr, hw.curAddr, progress_chunkCount, BitVec.ofNat_toNat]
  · rw [respond_bufOff, State.tick_bufOff, chunkHead_bufOff]
    exact BitVec.eq_of_toNat_eq (hw.bufOff.trans (progress_chunkCount a len))
  · rw [respond_remaining, State.tick_remaining, chunkHead_remaining]
    exact hw.remaining_eq
  · rw [Nat.sub_self, Nat.mul_zero] at hvs0
    rw [List.eq_nil_of_length_eq_zero hvs0] at hvs
    rw [respond_env, State.tick_env, Env.tick_statuses, chunkHead_env, hvs]
    rfl
  · rw [respond_lastLogTs, State.tick_lastLogTs, chunkHead_lastLogTs, hw.lastLogTs]
  · rw [respond_csN, State.tick_csN, chunkHead_csN]
    exact hw.csN hpos

/-! ### The round trip (R56, L1-4) -/

/-- An address is its page and its offset (R47, R48). -/
theorem flashAddr_toNat_eq (a : FlashAddr) : a.toNat = 256 * (pageIndex a).toNat + (pageOffset a).toNat := by
  have h := a.isLt
  simp only [pageIndex, pageOffset, BitVec.extractLsb'_toNat, Nat.shiftRight_eq_div_pow]
  omega

/-- Where no offset wraps the targets of a Page Program rise from its address. -/
theorem pageTarget_toNat {a : FlashAddr} {j : Nat} (h : (pageOffset a).toNat + j < 256) :
    (pageTarget a j).toNat = a.toNat + j := by
  rw [flashAddr_toNat_eq (pageTarget a j), pageIndex_pageTarget, pageOffset_pageTarget, Nat.mod_eq_of_lt h,
    flashAddr_toNat_eq a]
  omega

/-- In a Page Program that does not wrap, data byte `i` alone lands on its target. -/
theorem programBytes_read_target {a : FlashAddr} : ∀ (ds : List Byte) (j i : Nat) (m : Memory) (d : Byte), m.wf = true →
    (pageOffset a).toNat + (j + ds.length) ≤ 256 → ds[i]? = some d →
    (programBytes a j ds m).read (pageTarget a (j + i)) = programByte (m.read (pageTarget a (j + i))) d
  | [], _, _, _, _, _, _, hd => by cases hd
  | d' :: ds, j, 0, m, d, hw, hfit, hd => by
    cases hd
    rw [List.length_cons] at hfit
    show (programBytes a j (d' :: ds) m).read (pageTarget a j) = programByte (m.read (pageTarget a j)) d'
    rw [programBytes, programBytes_read_other a _ ds (j + 1) _ (m.write_wf _ _ hw) ?_,
      m.read_write_same _ _ hw]
    intro i hi e
    have hNat := congrArg BitVec.toNat e
    rw [pageTarget_toNat (by omega), pageTarget_toNat (by omega)] at hNat
    omega
  | d' :: ds, j, i + 1, m, d, hw, hfit, hd => by
    rw [List.length_cons] at hfit
    rw [List.getElem?_cons_succ] at hd
    have hi : i < ds.length := (List.getElem?_eq_some_iff.1 hd).1
    have hne : pageTarget a (j + 1 + i) ≠ pageTarget a j := by
      intro e
      have hNat := congrArg BitVec.toNat e
      rw [pageTarget_toNat (by omega), pageTarget_toNat (by omega)] at hNat
      omega
    rw [show j + (i + 1) = j + 1 + i by omega, programBytes,
      programBytes_read_target ds (j + 1) i _ d (m.write_wf _ _ hw) (by omega) hd, m.read_write_other _ _ _ hw hne]

/-- The first `n` bytes of `buf` stand from `a` on in the flash of `w`, an idle chip, whose other bytes are those of
`s`. -/
structure Written (s : State) (a : FlashAddr) (buf : List (Option Byte)) (n : Nat) (w : State) : Prop where
  idle : w.chipIdle
  wf : w.chip.flash.wf = true
  inside : ∀ i, i < n → buf[i]? = some (some (w.chip.flash.read (a + BitVec.ofNat 24 i)))
  outside : ∀ b : FlashAddr, (b.toNat < a.toNat ∨ a.toNat + n ≤ b.toNat) → w.chip.flash.read b = s.chip.flash.read b

theorem addr_add_toNat {a : FlashAddr} {i n : Nat} (hi : i < n) (hfit : a.toNat + n ≤ flashSize) :
    (a + BitVec.ofNat 24 i).toNat = a.toNat + i := by
  unfold flashSize at hfit
  rw [BitVec.toNat_add, BitVec.toNat_ofNat]
  omega

/-- A buffer byte that is held stable is read, and sent, as it is (R50, R51). -/
theorem bufByte?_of_stable {s : State} {i : Count} {v : Byte} (hi : i.toNat < s.bufLimit)
    (hv : s.env.buf[i.toNat]? = some (some v)) : s.bufByte? i = some v := by
  rw [State.bufByte?, if_pos hi, hv]
  rfl

section
variable {s w w' : State} {a : FlashAddr} {len : Count} {rest rest' ds : List Byte} {v : Byte} {k : Nat}
  {buf : List (Option Byte)}

/-- Data byte `j` of chunk `k` is the buffer byte at the chunk's offset plus `j`. -/
theorem ChunkRun.data_eq (hw : WriteHead s a len rest k w) (hrun : ChunkRun (chunkHead w) v rest' ds (chunkHead w'))
    (hbuf : s.env.bufs.headD [] = buf) {j : Nat} {d : Byte} (hj : j < ds.length)
    (hlen : progress a len k + j < len.toNat) (hd : buf[progress a len k + j]? = some (some d)) : ds[j]? = some d := by
  have hlt := len.isLt
  have hidx : (ppIndex (chunkHead w) j).toNat = progress a len k + j := by
    rw [ppIndex, chunkHead_bufOff, BitVec.toNat_add, hw.bufOff, BitVec.toNat_ofNat]
    omega
  have hlimit : (chunkHead w).bufLimit = len.toNat := by
    rw [State.bufLimit, chunkHead_bufOff, chunkHead_remaining]
    exact hw.bufLimit_eq
  refine hrun.bytes j d hj (bufByte?_of_stable (by rw [hidx, hlimit]; exact hlen) ?_)
  rw [hidx, chunkHead_env, hw.buf, hbuf]
  exact hd

/-- The targets of chunk `k`'s Page Program follow those of the chunks before. -/
theorem ChunkRun.target_toNat (hk : k < chunkCount a len) (hw : WriteHead s a len rest k w)
    (hrun : ChunkRun (chunkHead w) v rest' ds (chunkHead w')) (hlegacy : s.params.legacyXfer = false)
    (hsize : a.toNat + len.toNat ≤ flashSize) :
    (pageOffset (chunkHead w).curAddr).toNat + ds.length ≤ 256 ∧
      ∀ j, j < ds.length → (pageTarget (chunkHead w).curAddr j).toNat = a.toNat + progress a len k + j := by
  have hfits := chunkOk_fits (hw.chunkOk hk)
  simp only [chunkFits, Bool.and_eq_true, decide_eq_true_eq, hw.chunkLen hk,
    ← hrun.length_eq_of_conforming hw hk hlegacy] at hfits
  obtain ⟨-, hpage⟩ := hfits
  refine ⟨hpage, fun j hj => ?_⟩
  rw [pageTarget_toNat (by omega), chunkHead_curAddr, hw.curAddr, addr_add_toNat (progress_lt hw.pos hk) hsize]

/-- On an idle chip a chunk below the capacity programs its data bytes, and leaves the chip idle. -/
theorem ChunkRun.programs (hk : k < chunkCount a len) (hw : WriteHead s a len rest k w)
    (hrun : ChunkRun (chunkHead w) v rest' ds (chunkHead w')) (hlegacy : s.params.legacyXfer = false)
    (hsize : a.toNat + len.toNat ≤ flashSize) (hcap : a.toNat + len.toNat ≤ s.params.capacity) (hidle : w.chipIdle) :
    w'.chipIdle ∧ w'.chip.flash = programBytes (chunkHead w).curAddr 0 ds w.chip.flash := by
  have hds := hrun.length_eq_of_conforming hw hk hlegacy
  have hle := progress_le a len (k + 1)
  obtain ⟨-, htarget⟩ := hrun.target_toNat hk hw hlegacy hsize
  have h := hrun.chip (by unfold State.chipIdle; rw [chunkHead_chip]; exact hidle) (fun j hj => by
    rw [htarget j hj, chunkHead_params, hw.params]
    omega)
  unfold State.chipIdle at h ⊢
  rw [chunkHead_chip, chunkHead_chip] at h
  exact h

/-- A chunk writes the next bytes of the buffer. -/
theorem ChunkRun.written (hk : k < chunkCount a len) (hw : WriteHead s a len rest k w)
    (hrun : ChunkRun (chunkHead w) v rest' ds (chunkHead w')) (hlegacy : s.params.legacyXfer = false)
    (hsize : a.toNat + len.toNat ≤ flashSize) (hcap : a.toNat + len.toNat ≤ s.params.capacity)
    (hbuf : s.env.bufs.headD [] = buf) (hstable : ∀ i, i < len.toNat → ∃ v, buf[i]? = some (some v))
    (herased : ∀ i, i < len.toNat → s.chip.flash.read (a + BitVec.ofNat 24 i) = erasedByte)
    (h : Written s a buf (progress a len k) w) : Written s a buf (progress a len (k + 1)) w' := by
  have hds := hrun.length_eq_of_conforming hw hk hlegacy
  have hmono := progress_mono a len k
  have hle := progress_le a len (k + 1)
  obtain ⟨hpage, htarget⟩ := hrun.target_toNat hk hw hlegacy hsize
  obtain ⟨hidle, hflash⟩ := hrun.programs hk hw hlegacy hsize hcap h.idle
  have hother : ∀ b : FlashAddr, (b.toNat < a.toNat + progress a len k ∨ a.toNat + progress a len (k + 1) ≤ b.toNat) →
      w'.chip.flash.read b = w.chip.flash.read b := by
    intro b hb
    rw [hflash]
    refine programBytes_read_other _ b ds 0 _ h.wf fun j hj e => ?_
    have hNat := htarget j hj
    rw [Nat.zero_add] at e
    rw [← e] at hNat
    omega
  refine ⟨hidle, by rw [hflash]; exact programBytes_wf _ ds 0 _ h.wf, fun i hi => ?_, fun b hb => ?_⟩
  · have hi' := addr_add_toNat (a := a) (i := i) (by omega) hsize
    by_cases hold : i < progress a len k
    · rw [hother _ (.inl (by omega))]
      exact h.inside i hold
    · obtain ⟨j, rfl⟩ := Nat.exists_eq_add_of_le (Nat.le_of_not_lt hold)
      have hj : j < ds.length := by omega
      obtain ⟨d, hd⟩ := hstable (progress a len k + j) (by omega)
      have hdj : ds[j]? = some d := hrun.data_eq hw hbuf hj (by omega) hd
      have haddr : a + BitVec.ofNat 24 (progress a len k + j) = pageTarget (chunkHead w).curAddr (0 + j) := by
        apply BitVec.eq_of_toNat_eq
        rw [hi', Nat.zero_add, htarget j hj]
        omega
      have hbefore : w.chip.flash.read (a + BitVec.ofNat 24 (progress a len k + j)) = erasedByte := by
        rw [h.outside _ (.inr (by omega))]
        exact herased _ (by omega)
      rw [hd, hflash, haddr, programBytes_read_target ds 0 j _ d h.wf (by omega) hdj, ← haddr, hbefore]
      rfl
  · rw [hother b (by omega)]
    exact h.outside b (by omega)

end

/-- Settles O34: every chunk writes its bytes of the buffer; the WRITE of length 0 has no chunk. -/
theorem writeRoundTrip : Obligations.WriteRoundTrip := by
  intro s a len rest buf bufs hc ho hbufs hlegacy hs hidle hwf hsize hcap hstable herased
  have hhead : s.env.bufs.headD [] = buf := by rw [hbufs]; rfl
  have hstart : ∀ offers, Written s a buf 0 (writeTaken a len offers s) := fun _ =>
    ⟨hidle, hwf, fun i hi => absurd hi (Nat.not_lt_zero i), fun _ _ => rfl⟩
  obtain ⟨n, w, hreach, hcalm, hdone, hb, hwritten⟩ : ∃ n w, Reaches n s (chunkHead w) ∧ w.calm ∧ w.remaining = 0 ∧
      w.env.bufs = s.env.bufs.tail ∧ Written s a buf len.toNat w := by
    by_cases hzero : len = 0
    · obtain ⟨offers, hstep⟩ := step_writeTaken hc ho
      have h := hstart offers
      refine ⟨1, _, reaches_one hstep, offerTaken_calm hc offers, hzero, congrArg List.tail (Env.tick_bufs s.env), ?_⟩
      rw [hzero] at h ⊢
      exact h
    · obtain ⟨w, hw, hreach, h⟩ := write_induction (fun k w => Written s a buf (progress a len k) w) hc ho
        (len_pos hzero) hs
        (fun offers => by rw [progress_zero]; exact hstart offers)
        (fun _ _ _ _ _ _ hk hw _ hrun _ h => hrun.written hk hw hlegacy hsize hcap hhead hstable herased h)
        _ (Nat.le_refl _)
      rw [progress_chunkCount] at h
      exact ⟨_, w, hreach, hw.calm, hw.remaining_eq, hw.bufs, h⟩
  rw [chunkHead_done hdone] at hreach
  refine ⟨_, _, w.srLatch, reaches_add hreach (run_respondOk (s := w.goto .respondOk) hcalm rfl), rfl, rfl, ?_,
    hwritten.inside, hwritten.outside⟩
  rw [respond_env, State.tick_env, Env.tick_bufs, State.goto_env, hb, hbufs]
  rfl

end Sys2Proof.Machine
end
